-- ==== Sys2Proof/Word.lean ====
section
/-! DEFINITION. The plain values of the 9-bit framing encoder: Byte, Polarity, the opaque part of a
Config, Config, frame (spec 00_scope.md R4, R9; 10_state.md R14, R16, R19; 30_encoding.md R55). A single
bit of the spec is a `Bool`. -/

namespace Sys2Proof

/-- `Byte`, 8 bits, values 0 to 255 (R4). -/
abbrev Byte := BitVec 8

/-- ParityPolarity, "odd vs even parity generation" (R4, R14): two legal values, none reserved (R15). -/
inductive Polarity where
  | even
  | odd
  deriving DecidableEq, Repr, Inhabited

/-- `EVEN = 0`, `ODD = 1` (R55). -/
def Polarity.bit : Polarity → Bool
  | .even => false
  | .odd => true

/-- The polarity a bit encodes (R55). -/
def Polarity.ofBit : Bool → Polarity
  | false => .even
  | true => .odd

/-- The type `Opaque` the machine is built at, by default, where a type argument `O` is left out: every
definition takes the type as its argument (R5 `OPAQUE_W`, D8; log 2). R16 says what the pass-through part of a
Config holds: baud rate, stop bits, character size, and whether parity generation is enabled; `rest` stands for
everything else. -/
structure Opaque where
  baud : Nat
  stopBits : Nat
  charSize : Nat
  parityOn : Bool
  rest : Nat
  deriving DecidableEq, Repr, Inhabited

/-- A Config: the pair `{opaque, parity}` (R14, R55), over the type argument `O` (R5). -/
structure Cfg (O : Type := Opaque) where
  opq : O
  parity : Polarity
  deriving DecidableEq, Repr, Inhabited

/-- A frame on the wire: the pair `(data, pbit)` (R19, R33). -/
structure Frame where
  data : Byte
  pbit : Bool
  deriving DecidableEq, Repr, Inhabited

end Sys2Proof
end

