-- ==== Sys2Proof/Config.lean ====
section
/-! DEFINITION. What the spec leaves open: the types Handle and Opaque, with premise P2 read off an Opaque, and the
encoder instance (00_scope.md R5; log 1, log 2, log 16), and the free values, constants without a body that no
proof can look into (log 3, log 4, log 5). Each free value is applied to the counter `State.draws`, so every draw
is a fresh one. -/

namespace Sys2Proof

/-- The type `Handle` (R20) the machine is built at, by default, where a type argument `H` is left out: every
definition takes the type as its argument (R5 `HANDLE_W`, D8; log 1). -/
abbrev Handle := Nat

/-- Which instance of the block (R131: the spec gives no identifier; log 16). -/
abbrev EncId := Nat

/-- `draw Config` (R110, U2): the Config a failed SETCFG leaves, any polarity and any opaque part (log 3). -/
opaque Config.drawCfg {O : Type} [Inhabited O] : Nat → Cfg O

/-- The frame a transport emits when premise P2 does not hold (U4): any frame (log 5). -/
opaque Config.drawFrame : Nat → Frame

/-- `T[h].open` after a command on a Handle that is not open (U3): any value (log 4). -/
opaque Config.drawOpen : Nat → Bool

/-- `T[h].txq` after a command on a Handle that is not open (U3): any value (log 4). -/
opaque Config.drawQueue : Nat → List Byte

/-- The frames a command on a Handle that is not open adds to `T[h].wire` (U3): any frames (log 4). -/
opaque Config.drawFrames : Nat → List Frame

/-- The opaque part of the Config of a Handle that was never opened: the type argument's default, which for
`Opaque` has every field zero (log 13). -/
def Config.zeroOpaque {O : Type} [Inhabited O] : O := default

/-- The Config of a Handle that was never opened: EVEN, opaque part zero (log 13). -/
def Config.zeroCfg {O : Type} [Inhabited O] : Cfg O := ⟨Config.zeroOpaque, .even⟩

/-- Premise P2 on the opaque part of a Config (R142): 8 data bits and a parity bit in every frame (log 2). An
argument of the drain agent, since `O` is one; the block never sees it. -/
def Config.p2 (o : Opaque) : Bool := o.charSize == 8 && o.parityOn

/-- A Config that meets premise P2 (R142): 8 data bits and a parity bit in every frame. Used only where
`withFetchWord` opens a connection to run a transport command as the next instruction (log 22). -/
def Config.framedCfg : Cfg := ⟨⟨0, 0, 8, true, 0⟩, .even⟩

end Sys2Proof
end

