-- ==== Sys2Proof/Syntax.lean ====
section
/-! DEFINITION. Syntax: one constructor of `Instr` per row of spec/opcode_table.json, the two kinds of word that
carry an instruction (formats Q and T), and the result words' content: status codes and responses
(30_encoding.md R51 to R53, R58, R59, R63). -/

namespace Sys2Proof

/-- The five operations of R59. The Handle of an operation travels beside its word (R51, R50) and is no
field of it. -/
inductive Instr where
  /-- `PAR8 b` (R74). `mk` is the field of format Q that PAR8 ignores, any value (R60). -/
  | par8 (mk b : Byte)
  /-- `SEND9 h, b, mk` (R80): `mk` the raw marker, `b` the Byte. -/
  | send9 (mk b : Byte)
  /-- `GETCFG h` (R101). -/
  | getcfg
  /-- `SETCFG h, c, AFTER_DRAIN` (R102); `p` is the `parity` field of c, its opaque part travels beside the word. -/
  | setcfg (p : Polarity)
  /-- `WRITE h, d` (R103). -/
  | write (d : Byte)
  deriving DecidableEq, Repr

/-- A word that carries an instruction: a request word on the caller interface (format Q, R51) or a command
word on the transport interface (format T, R53). -/
inductive IfWord where
  | q (w : BitVec 17)
  | t (w : BitVec 12)
  deriving DecidableEq, Repr

/-- The `status` field of format P (R58, R120): one success and the three errors. -/
inductive Status where
  | ok
  | configReadError
  | configApplyError
  | writeError
  deriving DecidableEq, Repr

/-- What a response says (R52): `status`, and `val`. -/
structure Response where
  status : Status
  val : Bool
  deriving DecidableEq, Repr

end Sys2Proof
end

