-- ==== Sys2Proof/WellFormed.lean ====
section
/-! DEFINITION. Well-formedness of words, field by field. Format Q has no illegal encoding (30_encoding.md R60), and
the types of `Instr` hold every other bound (a Byte has 8 bits, a Polarity two values), so every term of
`Instr` is well-formed; what can be ill-formed is a format-T word (R61, U9), and each way has a check and a
name here. -/

namespace Sys2Proof

/-- Why a format-T word is no command of the block (R61, U9). -/
inductive Reject where
  /-- `cmd = 0`: never presented with `t_valid = 1` (R53). -/
  | cmdZero
  /-- a bit that table 5.1 shows as 0 is set (R61). -/
  | unusedBits
  /-- a SETCFG with `timing = 0`: never issued by the block; from another user an immediate change (U9). -/
  | timingZero
  deriving DecidableEq, Repr

/-- The fields of format Q (R51). -/
structure QFields where
  op : Bool
  marker : Byte
  b : Byte
  deriving DecidableEq, Repr

/-- The fields of format T (R53). -/
structure TFields where
  cmd : BitVec 2
  timing : Bool
  par : Bool
  wdata : Byte
  deriving DecidableEq, Repr

/-- `cmd` is one of 1, 2, 3 (R53). -/
def TFields.cmdOk (f : TFields) : Bool := f.cmd != 0#2

/-- `timing` and `par` are 0 with every command but SETCFG, `wdata` is 0 with every command but WRITE (R53). -/
def TFields.unusedOk (f : TFields) : Bool :=
  (f.cmd == 2#2 || (!f.timing && !f.par)) && (f.cmd == 3#2 || f.wdata == 0#8)

/-- The block drives `timing = 1` with every SETCFG (R53, R61). -/
def TFields.timingOk (f : TFields) : Bool := f.cmd != 2#2 || f.timing

/-- The first check a format-T word fails, by name; `none` for a word the block can issue. -/
def TFields.rejects (f : TFields) : Option Reject :=
  if !f.cmdOk then some .cmdZero
  else if !f.unusedOk then some .unusedBits
  else if !f.timingOk then some .timingZero
  else none

/-- A format-T word the block can issue (R61). -/
def TFields.wf (f : TFields) : Bool := f.cmdOk && f.unusedOk && f.timingOk

/-- The fields of the format-T word of a transport command (R53, table 5.1); `none` for a request. -/
def Instr.tFields : Instr → Option TFields
  | .par8 _ _ => none
  | .send9 _ _ => none
  | .getcfg => some ⟨1#2, false, false, 0#8⟩
  | .setcfg p => some ⟨2#2, true, p.bit, 0#8⟩
  | .write d => some ⟨3#2, false, false, d⟩

/-- The fields of the format-Q word of a request (R51, table 5.1); `none` for a transport command. -/
def Instr.qFields : Instr → Option QFields
  | .par8 mk b => some ⟨false, mk, b⟩
  | .send9 mk b => some ⟨true, mk, b⟩
  | .getcfg => none
  | .setcfg _ => none
  | .write _ => none

/-- An instruction is well-formed when it has the fields of exactly one format and, for format T, they pass
the checks. -/
def Instr.wf (i : Instr) : Bool :=
  match i.tFields with
  | some f => f.wf && i.qFields.isNone
  | none => i.qFields.isSome

end Sys2Proof
end

