-- ==== Sys2Proof/Decode.lean ====
section
/-! DEFINITION. The decoder and the encoder, from formats Q and T and table 5.1 (30_encoding.md R51, R53, R59 to
R61). Format Q decodes every word; format T rejects by name every word the block cannot issue. -/

namespace Sys2Proof

/-- `req_word` pulled apart (R51). -/
def QFields.ofWord (w : BitVec 17) : QFields :=
  ⟨w.getLsbD 16, w.extractLsb' 8 8, w.extractLsb' 0 8⟩

/-- `req_word` from its fields (R51). -/
def QFields.word (f : QFields) : BitVec 17 := BitVec.ofBool f.op ++ f.marker ++ f.b

/-- `t_cmd_word` pulled apart (R53). -/
def TFields.ofWord (w : BitVec 12) : TFields :=
  ⟨w.extractLsb' 10 2, w.getLsbD 9, w.getLsbD 8, w.extractLsb' 0 8⟩

/-- `t_cmd_word` from its fields (R53). -/
def TFields.word (f : TFields) : BitVec 12 :=
  f.cmd ++ BitVec.ofBool f.timing ++ BitVec.ofBool f.par ++ f.wdata

/-- Format Q: `op` 0 selects PAR8, 1 selects SEND9; every word is legal (R51, R60). -/
def decodeQ (w : BitVec 17) : Instr :=
  let f := QFields.ofWord w
  if f.op then .send9 f.marker f.b else .par8 f.marker f.b

/-- Format T: `cmd` selects the command (R53); a word that fails a check is rejected by the check's name (R61). -/
def decodeT (w : BitVec 12) : Except Reject Instr :=
  let f := TFields.ofWord w
  match f.rejects with
  | some r => .error r
  | none =>
    if f.cmd = 1#2 then .ok .getcfg
    else if f.cmd = 2#2 then .ok (.setcfg (Polarity.ofBit f.par))
    else .ok (.write f.wdata)

/-- The instruction a word carries. -/
def decode : IfWord → Except Reject Instr
  | .q w => .ok (decodeQ w)
  | .t w => decodeT w

/-- The word of an instruction (table 5.1). -/
def encode : Instr → IfWord
  | .par8 mk b => .q (QFields.word ⟨false, mk, b⟩)
  | .send9 mk b => .q (QFields.word ⟨true, mk, b⟩)
  | .getcfg => .t (TFields.word ⟨1#2, false, false, 0#8⟩)
  | .setcfg p => .t (TFields.word ⟨2#2, true, p.bit, 0#8⟩)
  | .write d => .t (TFields.word ⟨3#2, false, false, d⟩)

/-- The word a number of the opcode table's numbering stands for: 12 bits (padded to at most 16) are format T,
17 bits (padded to at most 24) format Q, and the padding is 0 (log 25). -/
def wordOfTable (nbits w : Nat) : Option IfWord :=
  if 12 ≤ nbits && nbits ≤ 16 then
    if w < 4096 then some (.t (BitVec.ofNat 12 w)) else none
  else if 17 ≤ nbits && nbits ≤ 24 then
    if w < 131072 then some (.q (BitVec.ofNat 17 w)) else none
  else none

/-- The instruction the decoder reads from a row's word, numbered as spec/opcode_table.json numbers bits. -/
def decodeTableWord (nbits w : Nat) : Option Instr :=
  match wordOfTable nbits w with
  | none => none
  | some iw =>
    match decode iw with
    | .ok i => some i
    | .error _ => none

end Sys2Proof
end

