-- ==== Sys2Proof/Machine/State.lean ====
section
/-! DEFINITION. The state of the machine as plain data: encoders, transports, interface signals, the observer's
record, the events still to come (10_state.md R10 to R24, 30_encoding.md R50, 00_scope.md R7, R8), the reasons a
step can stop, and the state after reset (R22 to R24). Every type takes the types of a Handle and of the opaque
part of a Config as arguments `H` and `O` (R5, D8); left out, they are `Handle` and `Opaque` (log 1, log 2). -/

namespace Sys2Proof.Machine

/-- `phase`: the position in the six steps of SEND9 (R12). -/
inductive Phase where
  | IDLE
  | RD
  | AP
  | WR
  deriving DecidableEq, Repr

/-- The operand latches `lat.h`, `lat.b`, `lat.m` (R11), written at acceptance (R81). -/
structure Latches (H : Type := Handle) where
  h : H
  b : Byte
  m : Bool
  deriving DecidableEq, Repr

/-- One instance of the block: its phase with the latches that hold a value in it (R11, R12). In IDLE no latch
has a value (R10, R22; log 15), and `lat.c` has one once GETCFG has answered (R82). -/
inductive Encoder (H : Type := Handle) (O : Type := Opaque) where
  | idle
  | rd (l : Latches H)
  | ap (l : Latches H) (c : Cfg O)
  | wr (l : Latches H) (c : Cfg O)
  deriving DecidableEq, Repr

/-- The transport record `T[h]` (R17). -/
structure Transport (O : Type := Opaque) where
  /-- `T[h].open`: h references "an open, configured connection". -/
  isOpen : Bool
  /-- `T[h].cfg`: the Config in force (R14). -/
  cfg : Cfg O
  /-- `T[h].txq`: the Bytes queued and not yet transmitted, oldest first (R18); how many it may hold is
  `State.txqDepth`. -/
  txq : List Byte
  /-- `T[h].wire`: the frames transmitted, oldest first (R19). -/
  wire : List Frame
  deriving DecidableEq, Repr

/-- The input signals of the caller interface beside the request word (R50): the instance the request is at
and `req_handle`. -/
structure CallerPort (H : Type := Handle) where
  enc : EncId
  handle : H
  deriving DecidableEq, Repr

/-- The input signals of the transport interface (R50): who issued the command (`some k`: instance k of the
block; `none`: another user of the Handle, R107), the Handle and opaque part of another user's command or the
`t_opaque_in` of an answer, and the answer word `t_rsp_word` the environment chooses (R106). -/
structure TransPort (H : Type := Handle) (O : Type := Opaque) where
  issuer : Option EncId
  handle : H
  opq : O
  ans : BitVec 3
  deriving DecidableEq, Repr

/-- What an observer records of the block (R8, R96): a command with its word, Handle and, for a SETCFG, opaque
part, as the block presents it; a response word as it is delivered; a reset of an instance (R140). -/
inductive Obs (H : Type := Handle) (O : Type := Opaque) where
  | command (k : EncId) (w : BitVec 12) (h : H) (o : Option O)
  | response (k : EncId) (w : BitVec 3)
  | reset (k : EncId)
  deriving DecidableEq, Repr

/-- One step's worth of the outside world (R7, R106, R107; log 7). -/
inductive Event (H : Type := Handle) (O : Type := Opaque) where
  /-- The caller presents a request word and a Handle at instance k (R50, R81). -/
  | request (k : EncId) (w : BitVec 17) (h : H)
  /-- The transport answers the command instance k has outstanding: the answer word, and `t_opaque_in`, as the
  environment chooses them (R54, R106). -/
  | answer (k : EncId) (w : BitVec 3) (o : O)
  /-- The drain agent of h takes its step (R104). -/
  | drain (h : H)
  /-- Another user of h presents a format-T word, with its opaque part, and the answer it gets (R107, U9). -/
  | command (w : BitVec 12) (h : H) (o : O) (a : BitVec 3)
  /-- An external reconfiguration of h with the discard of the queued bytes (R107 (b)). -/
  | flush (h : H) (c : Cfg O)
  /-- The out-of-scope plumbing opens h with Config c (R20, R108; log 21). -/
  | connect (h : H) (c : Cfg O)
  /-- The out-of-scope plumbing closes h (R20, R108; log 21). -/
  | disconnect (h : H)
  /-- Reset of instance k (R140). If a command is outstanding, `fate` says whether it takes effect and with
  what answer (R141; log 12). -/
  | reset (k : EncId) (fate : Option (BitVec 3))
  deriving DecidableEq, Repr

/-- Why the machine stops. The spec has no such condition: errors are responses, a hold and a hang are waits
(R120, R134), so there is no constructor and no meaning can fault (neither safe nor unsafe: nothing raises one). -/
inductive Fault where
  deriving DecidableEq, Repr

/-- Why the machine declines to say anything. -/
inductive Refusal where
  /-- Raised by `exec` for an instruction without a meaning; every row of the table has one, so nothing raises
  it. Safe: the run ends. -/
  | notModelled (mnemonic : String)
  /-- Raised by a step, never by an instruction's meaning: another user of a Handle presents a format-T word that
  has no meaning (`cmd = 0` or an unused bit set), which "a model should refuse" (R61, U9). Safe: the run ends. -/
  | illegalCommandWord (w : BitVec 12)
  deriving DecidableEq, Repr

/-- The state of the machine, with the parameter `TXQ_DEPTH`, which no step changes. -/
structure State (H : Type := Handle) (O : Type := Opaque) where
  /-- The instances of the block by number; an unlisted one is idle (R131; log 16). -/
  encs : List (EncId × Encoder H O)
  /-- `T[h]` by Handle (R17); an unlisted Handle was never opened (log 13). -/
  trans : List (H × Transport O)
  /-- Input signals of the caller interface (R50). -/
  caller : CallerPort H
  /-- Input signals of the transport interface (R50). -/
  tport : TransPort H O
  /-- `rsp_valid`, `rsp_word`: the response the last step delivered, and by which instance (R50, R22). -/
  rsp : Option (EncId × BitVec 3)
  /-- The observer's record, oldest first (R8; log 17). -/
  trace : List (Obs H O)
  /-- The events to come, next first (log 7). -/
  sched : List (Event H O)
  /-- How many free values have been drawn (log 6). -/
  draws : Nat
  /-- `TXQ_DEPTH`: how many Bytes a transport may hold queued, `none` for no bound (R5, R18, U11; log 18). -/
  txqDepth : Option Nat
  deriving DecidableEq, Repr

/-- What an unlisted instance reads as: the reset state of an encoder (R22). -/
def Encoder.reset {H O : Type} : Encoder H O := .idle

/-- What an unlisted Handle reads as: no connection was ever opened under it (log 13). -/
def Transport.absent {O : Type} [Inhabited O] : Transport O := ⟨false, Config.zeroCfg, [], []⟩

/-- The machine after reset (R22 to R24): every encoder IDLE with latches without value, no response pending,
no command issued; no connection opened yet (log 13), no event announced (log 7), input signals 0, and h0 for
a Handle signal (log 14). The argument `depth` is `TXQ_DEPTH` (R5). -/
def State.resetAt {H O : Type} [Inhabited O] (h0 : H) (depth : Option Nat) : State H O where
  encs := []
  trans := []
  caller := ⟨0, h0⟩
  tport := ⟨none, h0, Config.zeroOpaque, 0#3⟩
  rsp := none
  trace := []
  sched := []
  draws := 0
  txqDepth := depth

/-- The state after reset of the machine at `Handle` and `Opaque`, Handle signals 0, `TXQ_DEPTH` unbounded, its
default (R5). -/
def State.reset : State := State.resetAt 0 none

end Sys2Proof.Machine
end

