-- ==== Sys2Proof/Machine/Table.lean ====
section
/-! DEFINITION. A table of records by key, in one canonical form: keys strictly rising, no entry equal to what an
unlisted key reads as. Used for the encoders (R131) and the transports (R21): one read and one write. The key is
any type with a linear order; the order serves the canonical form alone. -/

namespace Sys2Proof.Machine

variable {κ α : Type}

/-- The record of key k; an unlisted key reads as `dflt`. -/
def tableGet [DecidableEq κ] (dflt : α) : List (κ × α) → κ → α
  | [], _ => dflt
  | (j, v) :: rest, k => if k = j then v else tableGet dflt rest k

/-- The table without key k. -/
def tableDrop [DecidableEq κ] (m : List (κ × α)) (k : κ) : List (κ × α) :=
  m.filter fun e => e.1 != k

/-- The table with key k holding v; writing what an unlisted key reads as removes the entry. -/
def tablePut [LinearOrder κ] [DecidableEq α] (dflt : α) : List (κ × α) → κ → α → List (κ × α)
  | [], k, v => if v = dflt then [] else [(k, v)]
  | (j, w) :: rest, k, v =>
    if k < j then
      (if v = dflt then (j, w) :: tableDrop rest k else (k, v) :: (j, w) :: rest)
    else if k = j then
      (if v = dflt then tableDrop rest k else (k, v) :: rest)
    else (j, w) :: tablePut dflt rest k v

/-- The canonical form: keys strictly rising, no entry equal to `dflt`. -/
def tableWf [LinearOrder κ] [DecidableEq α] (dflt : α) : List (κ × α) → Bool
  | [] => true
  | (j, v) :: rest => v != dflt && rest.all (fun e => j < e.1) && tableWf dflt rest

end Sys2Proof.Machine
end

