-- ==== Sys2Proof/Machine/Operands.lean ====
section
/-! DEFINITION. Operand assembly and the result words: marker canonicalisation (30_encoding.md R56), status codes
(R58), the response word format P (R52), the answer word format U (R54), the 9-bit word of a frame (R62). -/

namespace Sys2Proof.Machine

/-- `canon(mk)`: 0 if `mk = 0`, 1 otherwise; the OR of all bits, not a truncation (R56). -/
def canon (mk : Byte) : Bool := mk != 0#8

/-- The status codes (R58). -/
def statusCode : Status → BitVec 2
  | .ok => 0#2
  | .configReadError => 1#2
  | .configApplyError => 2#2
  | .writeError => 3#2

/-- Format P: `status` at 2:1, `val` at 0 (R52). -/
def responseWord (r : Response) : BitVec 3 := statusCode r.status ++ BitVec.ofBool r.val

/-- The `err` bit of an answer word: 0 = Ok, 1 = Err (R54). -/
def ansErr (w : BitVec 3) : Bool := w.getLsbD 2

/-- The `par` bit of an answer word: the parity of the Config of a successful GETCFG (R54). -/
def ansPar (w : BitVec 3) : Bool := w.getLsbD 1

/-- The `count` bit of an answer word: BytesWritten of a successful WRITE (R54). -/
def ansCount (w : BitVec 3) : Bool := w.getLsbD 0

/-- Format U from its fields (R54). -/
def answerWord (err par count : Bool) : BitVec 3 :=
  BitVec.ofBool err ++ BitVec.ofBool par ++ BitVec.ofBool count

/-- The answer of a successful GETCFG carries the parity of the Config in force, whatever else the environment
chose (R54, R101, R106). -/
def withPar (w : BitVec 3) (p : Polarity) : BitVec 3 := answerWord (ansErr w) p.bit (ansCount w)

/-- What the block makes of the answer to a GETCFG: the Config of `par` and `t_opaque_in` (R54, R55). -/
def ansCfg {O : Type} (w : BitVec 3) (o : O) : Cfg O := ⟨o, Polarity.ofBit (ansPar w)⟩

/-- `W9 = {pbit, data}` (R62). -/
def w9 (f : Frame) : BitVec 9 := BitVec.ofBool f.pbit ++ f.data

end Sys2Proof.Machine
end

