-- ==== Sys2Proof/Machine/Flags.lean ====
section
/-! DEFINITION. The bits the block and the generator compute; the block keeps no flags (10_state.md R13). The parity
classifier in its three forms (40_parity_classifier.md R70 to R72), the mode multiplexer (41_frame_sender.md R84),
the parity generator (42_transport_interface.md R105). -/

namespace Sys2Proof.Machine

/-- `PAR8(b)`, the natural parity of b: the exclusive-or of its eight bits (R70, the definition). -/
def par8 (b : Byte) : Bool :=
  ((((((b.getLsbD 7 ^^ b.getLsbD 6) ^^ b.getLsbD 5) ^^ b.getLsbD 4) ^^ b.getLsbD 3) ^^ b.getLsbD 2)
    ^^ b.getLsbD 1) ^^ b.getLsbD 0

/-- `popcount(v)`, the number of bits that are 1 (R9). -/
def popcount {n : Nat} (v : BitVec n) : Nat :=
  ((List.range n).map fun i => (v.getLsbD i).toNat).sum

/-- The fold's first stage, `s1 = b xor (b >> 4)` (R71). -/
def foldS1 (b : Byte) : Byte := b ^^^ (b >>> 4)

/-- The fold's second stage, `s2 = s1 xor (s1 >> 2)` (R71). -/
def foldS2 (b : Byte) : Byte := foldS1 b ^^^ (foldS1 b >>> 2)

/-- The fold's third stage, `s3 = s2 xor (s2 >> 1)` (R71). -/
def foldS3 (b : Byte) : Byte := foldS2 b ^^^ (foldS2 b >>> 1)

/-- The source's algorithm: three halving folds, then bit 0 (R71). -/
def par8Fold (b : Byte) : Bool := (foldS3 b).getLsbD 0

/-- The tree's first level, `t4 = b[7:4] xor b[3:0]` (R72). -/
def treeT4 (b : Byte) : BitVec 4 := b.extractLsb' 4 4 ^^^ b.extractLsb' 0 4

/-- The tree's second level, `t2 = t4[3:2] xor t4[1:0]` (R72). -/
def treeT2 (b : Byte) : BitVec 2 := (treeT4 b).extractLsb' 2 2 ^^^ (treeT4 b).extractLsb' 0 2

/-- The gate tree: `t2[1] xor t2[0]` (R72). -/
def par8Tree (b : Byte) : Bool := (treeT2 b).getLsbD 1 ^^ (treeT2 b).getLsbD 0

/-- The mode multiplexer: "If `naturalParity != MarkerBit`, select ODD ...; otherwise select EVEN", on the
natural parity and the marker alone (R84). -/
def muxMode (np m : Bool) : Polarity := if np != m then .odd else .even

/-- Steps 2 and 3 of SEND9 on the latches: classify `lat.b`, select against `lat.m` (R83, R84). -/
def sendMode {H : Type} (l : Latches H) : Polarity := muxMode (par8 l.b) l.m

/-- The parity generator: EVEN gives the natural parity, ODD its complement (R105). -/
def pgen : Polarity → Byte → Bool
  | .even, x => par8 x
  | .odd, x => !par8 x

/-- `frames(q, p)`: what the Bytes of q become when emitted under polarity p (R93). -/
def framesUnder (p : Polarity) (q : List Byte) : List Frame := q.map fun x => ⟨x, pgen p x⟩

end Sys2Proof.Machine
end

