-- ==== Sys2Proof/Machine/Ops.lean ====
section
/-! DEFINITION. The named operations over the state: reading and writing an encoder and a transport, the block's
output signals (30_encoding.md R50, R53), delivering a response, raising an error (the block's one kind of
exception, 41_frame_sender.md R88, 60_exceptions.md R126; there is no return from one, R127), and what each
transport command does to `T[h]` (42_transport_interface.md R101 to R103, R110). All over any types `H` and `O`
(R5): a Handle is compared, an opaque part copied. -/

namespace Sys2Proof.Machine

variable {H O : Type}

/-! ### One home for every encoder and transport -/

/-- The encoder of instance k. -/
def State.encoder (s : State H O) (k : EncId) : Encoder H O := tableGet Encoder.reset s.encs k

/-- The transport record `T[h]`; distinct Handles are distinct transports (R21; log 23). -/
def State.transport [DecidableEq H] [Inhabited O] (s : State H O) (h : H) : Transport O :=
  tableGet Transport.absent s.trans h

/-- Instance k becomes e. -/
def State.setEncoder [DecidableEq H] [DecidableEq O] (s : State H O) (k : EncId) (e : Encoder H O) : State H O :=
  { s with encs := tablePut Encoder.reset s.encs k e }

/-- `T[h] <- t`. -/
def State.setTransport [LinearOrder H] [DecidableEq O] [Inhabited O] (s : State H O) (h : H)
    (t : Transport O) : State H O :=
  { s with trans := tablePut Transport.absent s.trans h t }

/-! ### The encoder's state by the spec's names -/

/-- `phase` (R12). -/
def Encoder.phase : Encoder H O → Phase
  | .idle => .IDLE
  | .rd _ => .RD
  | .ap _ _ => .AP
  | .wr _ _ => .WR

/-- `lat.h`, `lat.b`, `lat.m` while they hold a value (R11). -/
def Encoder.latches : Encoder H O → Option (Latches H)
  | .idle => none
  | .rd l => some l
  | .ap l _ => some l
  | .wr l _ => some l

/-- `lat.c` while it holds a value (R11). -/
def Encoder.latC : Encoder H O → Option (Cfg O)
  | .idle => none
  | .rd _ => none
  | .ap _ c => some c
  | .wr _ c => some c

/-! ### The capacity of the queue, `TXQ_DEPTH` (R18) -/

/-- The queue holds as many Bytes as it may: no more can be accepted. Never without a bound. -/
def Transport.full (t : Transport O) (depth : Option Nat) : Bool := depth.any fun n => n ≤ t.txq.length

/-- The queue holds no more Bytes than it may. -/
def Transport.fits (t : Transport O) (depth : Option Nat) : Bool := depth.all fun n => t.txq.length ≤ n

/-- The Bytes of q a queue can hold. -/
def capped (depth : Option Nat) (q : List Byte) : List Byte :=
  match depth with
  | none => q
  | some n => q.take n

/-! ### Output signals (R50) -/

/-- `req_ready`: 1 exactly when `phase = IDLE`. -/
def Encoder.reqReady (e : Encoder H O) : Bool := e.phase == .IDLE

/-- The command the encoder has outstanding: GETCFG in RD, SETCFG with the selected mode in AP, WRITE of the
Byte in WR, none in IDLE (R82, R85, R86). -/
def Encoder.command : Encoder H O → Option Instr
  | .idle => none
  | .rd _ => some .getcfg
  | .ap l _ => some (.setcfg (sendMode l))
  | .wr l _ => some (.write l.b)

/-- `t_cmd_word`, with `t_valid = 1` exactly when there is one (R53). -/
def Encoder.cmdWord (e : Encoder H O) : Option (BitVec 12) :=
  match e.command with
  | none => none
  | some i =>
    match encode i with
    | .q _ => none
    | .t w => some w

/-- `t_handle`, always `lat.h` (R50). -/
def Encoder.tHandle (e : Encoder H O) : Option H := e.latches.map Latches.h

/-- `t_opaque_out`: the opaque part of the Config a SETCFG carries (R50), as read in step 1 (R85, R16). -/
def Encoder.tOpaqueOut : Encoder H O → Option O
  | .idle => none
  | .rd _ => none
  | .ap _ c => some c.opq
  | .wr _ _ => none

/-- What the observer records when instance k presents the command of e (R8 (b); log 17). -/
def Encoder.issued (k : EncId) (e : Encoder H O) : List (Obs H O) :=
  match e.cmdWord, e.tHandle with
  | some w, some h => [.command k w h e.tOpaqueOut]
  | _, _ => []

/-! ### Moving the encoder -/

/-- Instance k delivers a response (R50, R52): one event, the end of the operation (R87). -/
def State.respond (s : State H O) (k : EncId) (r : Response) : State H O :=
  { s with rsp := some (k, responseWord r), trace := s.trace ++ [.response k (responseWord r)] }

section
variable [DecidableEq H] [DecidableEq O]

/-- Instance k enters e and presents e's command (R82, R85, R86). -/
def State.enter (s : State H O) (k : EncId) (e : Encoder H O) : State H O :=
  { s.setEncoder k e with trace := s.trace ++ e.issued k }

/-- The end of a SEND9: `respond(status, val)`, `phase <- IDLE`, the latches lose their meaning (R87, R126). -/
def State.finish (s : State H O) (k : EncId) (r : Response) : State H O :=
  (s.setEncoder k .idle).respond k r

/-- `raise E` (R88, R126): no further command, `respond(status <- code of E, val <- 0)`, `phase <- IDLE`. -/
def State.raiseError (s : State H O) (k : EncId) (e : Status) : State H O := s.finish k ⟨e, false⟩

end

/-! ### What a transport command does to `T[h]` -/

/-- One free value has been drawn (log 6). -/
def State.drawn (s : State H O) : State H O := { s with draws := s.draws + 1 }

variable [LinearOrder H] [DecidableEq O] [Inhabited O]

/-- A command on a Handle that is not open: T[h] takes any value (U3) with a queue within its capacity, but no frame
leaves the wire (R19; log 4). -/
def State.closedEffect (s : State H O) (h : H) : State H O :=
  (s.setTransport h
    { isOpen := Config.drawOpen s.draws
      cfg := Config.drawCfg s.draws
      txq := capped s.txqDepth (Config.drawQueue s.draws)
      wire := (s.transport h).wire ++ Config.drawFrames s.draws }).drawn

/-- GETCFG changes nothing, Ok or Err (R101, R110). -/
def State.getEffect (s : State H O) (h : H) : State H O :=
  if (s.transport h).isOpen then s else s.closedEffect h

/-- The answer word of a GETCFG on h: Ok carries the parity of `T[h].cfg` (R101, R106; log 26). -/
def State.getAnswer (s : State H O) (h : H) : BitVec 3 :=
  if (s.transport h).isOpen && !ansErr s.tport.ans then withPar s.tport.ans (s.transport h).cfg.parity
  else s.tport.ans

/-- `t_opaque_in` of a GETCFG on h: Ok carries the opaque part of `T[h].cfg` (R101, R106). -/
def State.getOpaque (s : State H O) (h : H) : O :=
  if (s.transport h).isOpen && !ansErr s.tport.ans then (s.transport h).cfg.opq else s.tport.opq

/-- A SETCFG on h that would answer Ok is held: Ok "is enabled only at an instant with `T[h].txq = []`" (R102). -/
def State.setHeld (s : State H O) (h : H) (w : BitVec 3) : Bool :=
  (s.transport h).isOpen && !ansErr w && !(s.transport h).txq.isEmpty

/-- SETCFG: Ok replaces the whole Config; Err leaves Config a draw; queue and wire untouched (R102, R110). -/
def State.setEffect (s : State H O) (h : H) (c : Cfg O) : State H O :=
  if (s.transport h).isOpen then
    if ansErr s.tport.ans then
      (s.setTransport h { s.transport h with cfg := Config.drawCfg s.draws }).drawn
    else s.setTransport h { s.transport h with cfg := c }
  else s.closedEffect h

/-- A WRITE on h that would answer Ok(1) is held while the queue is full: a full queue "shows as `Ok(0)` or as a late
answer", a late Ok(1) (D17, N6; log 18). -/
def State.writeHeld (s : State H O) (h : H) (w : BitVec 3) : Bool :=
  (s.transport h).isOpen && !ansErr w && ansCount w && (s.transport h).full s.txqDepth

/-- WRITE: Ok(1) appends the Byte; Ok(0) and Err queue nothing (R103, R110; log 19). -/
def State.writeEffect (s : State H O) (h : H) (b : Byte) : State H O :=
  if (s.transport h).isOpen then
    if !ansErr s.tport.ans && ansCount s.tport.ans then
      s.setTransport h { s.transport h with txq := (s.transport h).txq ++ [b] }
    else s
  else s.closedEffect h

end Sys2Proof.Machine
end

