-- ==== Sys2Proof/Machine/Agents.lean ====
section
/-! DEFINITION. The steps that are no instruction: the drain agent (42_transport_interface.md R104, R109), the other
users' reconfigurations (R107 (b)), opening and closing (R108), reset of an instance (70_reset_and_hazards.md
R140, R141). -/

namespace Sys2Proof.Machine

variable {H O : Type}

/-- Premise P2 on a transport (R142): 8 data bits and a generated parity bit in every frame, which `p2` reads off
the opaque part. -/
def Transport.framed (p2 : O → Bool) (t : Transport O) : Bool := p2 t.cfg.opq

variable [LinearOrder H] [DecidableEq O] [Inhabited O]

/-- Frame emission on h (R104): the oldest queued Byte leaves the queue and becomes a frame whose parity bit is
generated from the Config in force. Without premise P2 the frame is any frame (U4; log 5). Not enabled on an
empty queue. -/
def State.drain (p2 : O → Bool) (s : State H O) (h : H) : State H O :=
  match (s.transport h).txq with
  | [] => s
  | x :: r =>
    if (s.transport h).framed p2 then
      s.setTransport h { s.transport h with
        txq := r
        wire := (s.transport h).wire ++ [⟨x, pgen (s.transport h).cfg.parity x⟩] }
    else
      (s.setTransport h { s.transport h with
        txq := r
        wire := (s.transport h).wire ++ [Config.drawFrame s.draws] }).drawn

/-- The drain agent acting by itself, with no event left: the lowest Handle with a Byte queued (R104, R109;
log 8). -/
def State.autoDrain (p2 : O → Bool) (s : State H O) : State H O :=
  match s.trans.find? fun e => !e.2.txq.isEmpty with
  | none => s
  | some e => s.drain p2 e.1

/-- External reconfiguration with the discard of the queued bytes (R107 (b); log 29). -/
def State.flushNow (s : State H O) (h : H) (c : Cfg O) : State H O :=
  if (s.transport h).isOpen then s.setTransport h { s.transport h with cfg := c, txq := [] }
  else s.closedEffect h

/-- The plumbing opens h with Config c; queue and wire stay as they were left (R20, R23; log 21). -/
def State.connect (s : State H O) (h : H) (c : Cfg O) : State H O :=
  s.setTransport h { s.transport h with isOpen := true, cfg := c }

/-- The plumbing closes h (R108; log 21). -/
def State.disconnect (s : State H O) (h : H) : State H O :=
  s.setTransport h { s.transport h with isOpen := false }

/-- The effect on the transport of the command instance k has outstanding, with the answer in `tport`; none
where it has no command outstanding. -/
def State.outstandingEffect (s : State H O) (k : EncId) : State H O :=
  match s.encoder k with
  | .idle => s
  | .rd l => s.getEffect l.h
  | .ap l c => s.setEffect l.h ⟨c.opq, sendMode l⟩
  | .wr l _ => s.writeEffect l.h l.b

/-- Reset of the encoder itself: `phase <- IDLE`, latches without value, no response; no command is issued and
no T[h] is touched (R22, R140). -/
def State.resetEncoder (s : State H O) (k : EncId) : State H O :=
  { s.setEncoder k Encoder.reset with trace := s.trace ++ [.reset k] }

/-- Reset as an event (R140, R141): the command in flight takes no effect (`none`) or the effect the answer w
gives it; the operation is abandoned and no response is delivered (log 12). -/
def State.resetEvent (s : State H O) (k : EncId) (fate : Option (BitVec 3)) : State H O :=
  match fate with
  | none => s.resetEncoder k
  | some w => ({ s with tport := { s.tport with ans := w } }.outstandingEffect k).resetEncoder k

end Sys2Proof.Machine
end

