-- ==== Sys2Proof/Machine/Classifier.lean ====
section
/-! DEFINITION. The meaning of PAR8 (40_parity_classifier.md R74). -/

namespace Sys2Proof.Machine

variable {H O : Type}

/-- `PAR8 b` (R74, ACCEPT-PAR8 of R91): in IDLE, `respond(OK, PAR8(b))`, the phase stays IDLE; `mk` and
`req_handle` are ignored. While the instance is not IDLE it accepts no request and the caller waits (R81;
log 10). -/
def execPar8 (_mk b : Byte) (s : State H O) : Host.Outcome (State H O) Fault Refusal :=
  if (s.encoder s.caller.enc).reqReady then .next (s.respond s.caller.enc ⟨.ok, par8 b⟩)
  else .next s

end Sys2Proof.Machine
end

