-- ==== Sys2Proof/Machine/Sender.lean ====
section
/-! DEFINITION. The meaning of SEND9 (41_frame_sender.md R80, R81). Its acceptance is the instruction's own step; its
steps 1, 4 and 5 are the commands GETCFG, SETCFG and WRITE that the encoder then presents
(Machine/TransportCommands.lean), and steps 2, 3 and 6 are part of those (R12, R91). -/

namespace Sys2Proof.Machine

variable {H O : Type} [DecidableEq H] [DecidableEq O]

/-- `SEND9 h, b, mk` (R81, ACCEPT-SEND9 of R91): in IDLE, `lat.h <- h`, `lat.b <- b`, `lat.m <- canon(mk)`,
`phase <- RD`, and GETCFG is presented. While the instance is not IDLE it accepts no request and the caller
waits (log 10). -/
def execSend9 (mk b : Byte) (s : State H O) : Host.Outcome (State H O) Fault Refusal :=
  if (s.encoder s.caller.enc).reqReady then
    .next (s.enter s.caller.enc (.rd ⟨s.caller.handle, b, canon mk⟩))
  else .next s

end Sys2Proof.Machine
end

