-- ==== Sys2Proof/Machine/TransportCommands.lean ====
section
/-! DEFINITION. The meanings of GETCFG, SETCFG and WRITE (42_transport_interface.md R101 to R103): the effect on the
transport, and, when an instance of the block issued the command, the encoder's transition on the answer
(41_frame_sender.md R91, table 4.1). A command of another user of the Handle (R107) has the effect on the
transport alone. An instance that has not presented the command takes no transition (log 28). -/

namespace Sys2Proof.Machine

variable {H O : Type} [LinearOrder H] [DecidableEq O] [Inhabited O]

/-- `GETCFG h` (R101), with RD-OK and RD-ERR of R91 (R82, R121). -/
def execGetcfg (s : State H O) : Host.Outcome (State H O) Fault Refusal :=
  match s.tport.issuer with
  | none => .next (s.getEffect s.tport.handle)
  | some k =>
    match s.encoder k with
    | .idle => .next s
    | .rd l =>
      if ansErr (s.getAnswer l.h) then .next ((s.getEffect l.h).raiseError k .configReadError)
      else .next ((s.getEffect l.h).enter k (.ap l (ansCfg (s.getAnswer l.h) (s.getOpaque l.h))))
    | .ap _ _ => .next s
    | .wr _ _ => .next s

/-- `SETCFG h, c, AFTER_DRAIN` (R102), with AP-OK and AP-ERR of R91 (R85, R122). While the answer would be Ok
and the queue is not empty the command is held: nothing changes and it stays outstanding (R91, R134). -/
def execSetcfg (p : Polarity) (s : State H O) : Host.Outcome (State H O) Fault Refusal :=
  match s.tport.issuer with
  | none =>
    if s.setHeld s.tport.handle s.tport.ans then .next s
    else .next (s.setEffect s.tport.handle ⟨s.tport.opq, p⟩)
  | some k =>
    match s.encoder k with
    | .idle => .next s
    | .rd _ => .next s
    | .ap l c =>
      if p != sendMode l then .next s
      else if s.setHeld l.h s.tport.ans then .next s
      else if ansErr s.tport.ans then
        .next ((s.setEffect l.h ⟨c.opq, p⟩).raiseError k .configApplyError)
      else .next ((s.setEffect l.h ⟨c.opq, p⟩).enter k (.wr l c))
    | .wr _ _ => .next s

/-- `WRITE h, d` (R103), with WR-1, WR-0 and WR-ERR of R91 (R86, R87, R123). While the answer would be Ok(1) and the
queue is full the command is held: nothing changes and it stays outstanding (R18, D17; log 18). -/
def execWrite (d : Byte) (s : State H O) : Host.Outcome (State H O) Fault Refusal :=
  match s.tport.issuer with
  | none =>
    if s.writeHeld s.tport.handle s.tport.ans then .next s
    else .next (s.writeEffect s.tport.handle d)
  | some k =>
    match s.encoder k with
    | .idle => .next s
    | .rd _ => .next s
    | .ap _ _ => .next s
    | .wr l _ =>
      if d != l.b then .next s
      else if s.writeHeld l.h s.tport.ans then .next s
      else if ansErr s.tport.ans then .next ((s.writeEffect l.h d).raiseError k .writeError)
      else .next ((s.writeEffect l.h d).finish k ⟨.ok, ansCount s.tport.ans⟩)

end Sys2Proof.Machine
end

