-- ==== Sys2Proof/Machine/Dispatch.lean ====
section
/-! DEFINITION. The dispatch: one arm per constructor of Instr, each one direct call of its meaning. -/

namespace Sys2Proof.Machine

def exec (i : Instr) (s : State) : Host.Outcome State Fault Refusal :=
  match i with
  | .par8 mk b => Sys2Proof.Machine.execPar8 mk b s
  | .send9 mk b => Sys2Proof.Machine.execSend9 mk b s
  | .getcfg => Sys2Proof.Machine.execGetcfg s
  | .setcfg p => Sys2Proof.Machine.execSetcfg p s
  | .write d => Sys2Proof.Machine.execWrite d s

end Sys2Proof.Machine
end

