-- ==== Sys2Proof/Machine/Fetch.lean ====
section
/-! DEFINITION. One step of the whole machine: which event is next, whether the queue must drain first, which word
it carries, and the run of the decoded instruction (00_scope.md R7; 41_frame_sender.md R91;
42_transport_interface.md R102, R104, R107, R109). The block fetches no instructions (20_memory.md R45): a
request word comes from the caller, a command word from the encoder's own phase or from another user. -/

namespace Sys2Proof.Machine

variable {H O : Type}

/-- The word event e puts on an interface: a request word, the command word instance k drives (an answer with
no command outstanding has none; log 11), another user's command word. -/
def State.fetchWord (s : State H O) : Event H O → Option IfWord
  | .request _ w _ => some (.q w)
  | .answer k _ _ => (s.encoder k).cmdWord.map IfWord.t
  | .drain _ => none
  | .command w _ _ _ => some (.t w)
  | .flush _ _ => none
  | .connect _ _ => none
  | .disconnect _ => none
  | .reset _ _ => none

/-- The input signals of event e (R50). -/
def State.load (s : State H O) : Event H O → State H O
  | .request k _ h => { s with caller := ⟨k, h⟩ }
  | .answer k w o => { s with tport := ⟨some k, s.tport.handle, o, w⟩ }
  | .drain _ => s
  | .command _ h o a => { s with tport := ⟨none, h, o, a⟩ }
  | .flush _ _ => s
  | .connect _ _ => s
  | .disconnect _ => s
  | .reset _ _ => s

/-- The state in which the next event runs: the last response withdrawn, the event taken off. -/
def State.take (s : State H O) (rest : List (Event H O)) : State H O := { s with rsp := none, sched := rest }

/-- The state in which a drain agent acts by itself: the last response withdrawn, the events kept. -/
def State.quiet (s : State H O) : State H O := { s with rsp := none }

section
variable [LinearOrder H] [DecidableEq O] [Inhabited O]

/-- The Handle for which the command instance k has outstanding is held when its answer would be w. -/
def State.heldFor (s : State H O) (k : EncId) (w : BitVec 3) : Option H :=
  match s.encoder k with
  | .idle => none
  | .rd _ => none
  | .ap l _ => if s.setHeld l.h w then some l.h else none
  | .wr l _ => if s.writeHeld l.h w then some l.h else none

/-- The Handle whose queue must drain before event e can happen: that of a SETCFG whose answer is Ok while a Byte is
queued (R91, R102; log 9), or of a WRITE whose answer is Ok(1) while the queue is full (D17; log 18). -/
def State.blockedOn (s : State H O) : Event H O → Option H
  | .request _ _ _ => none
  | .answer k w _ => s.heldFor k w
  | .drain _ => none
  | .command w h _ a =>
    match decodeT w with
    | .ok (.setcfg _) => if s.setHeld h a then some h else none
    | .ok (.write _) => if s.writeHeld h a then some h else none
    | _ => none
  | .flush _ _ => none
  | .connect _ _ => none
  | .disconnect _ => none
  | .reset _ none => none
  | .reset k (some w) => s.heldFor k w

/-- An event that carries no word. -/
def State.agent (p2 : O → Bool) (s : State H O) : Event H O → State H O
  | .request _ _ _ => s
  | .answer _ _ _ => s
  | .drain h => s.drain p2 h
  | .command _ _ _ _ => s
  | .flush h c => s.flushNow h c
  | .connect h c => s.connect h c
  | .disconnect h => s.disconnect h
  | .reset k fate => s.resetEvent k fate

/-- A format-T word that is no command of the block (U9): from another user, a SETCFG with `timing = 0` is an
immediate change of Config (R107 (b)); any other is refused (log 20). -/
def State.rejected (s : State H O) (w : BitVec 12) : Reject → Host.Outcome (State H O) Fault Refusal
  | .cmdZero => .refused (.illegalCommandWord w)
  | .unusedBits => .refused (.illegalCommandWord w)
  | .timingZero =>
    .next (s.setEffect s.tport.handle ⟨s.tport.opq, Polarity.ofBit (TFields.ofWord w).par⟩)

/-! ### The run, over its dispatcher and premise P2

`x` gives each instruction its meaning; `step` puts `exec` there (Machine/Dispatch.lean), which has the types
`Handle` and `Opaque`. `p2` reads premise P2 off an opaque part. -/

variable (x : Instr → State H O → Host.Outcome (State H O) Fault Refusal) (p2 : O → Bool)

/-- Run the word on an interface: decode it, run the instruction. -/
def runWord (s : State H O) : IfWord → Host.Outcome (State H O) Fault Refusal
  | .q w => x (decodeQ w) s
  | .t w =>
    match decodeT w with
    | .ok i => x i s
    | .error r => s.rejected w r

/-- Run event e, one atomic step (R35; log 27). -/
def runEvent (e : Event H O) (s : State H O) : Host.Outcome (State H O) Fault Refusal :=
  match s.fetchWord e with
  | some w => runWord x (s.load e) w
  | none => .next (s.agent p2 e)

/-- One step: the next event; before it, while it is held, a frame emission of the Handle it waits for; with no
event, a frame emission if any Byte is queued, else nothing (log 8, log 9). -/
def runStep (s : State H O) : Host.Outcome (State H O) Fault Refusal :=
  match s.sched with
  | [] => .next (s.quiet.autoDrain p2)
  | e :: rest =>
    match s.blockedOn e with
    | some h => .next (s.quiet.drain p2 h)
    | none => runEvent x p2 e (s.take rest)

end

/-! ### Placing a word where the next step fetches it (log 22), at `Handle` and `Opaque` -/

/-- A request word at instance 0, which must be IDLE to accept it, with Handle 0. -/
def State.placeRequest (s : State) (w : BitVec 17) : State :=
  { s.setEncoder 0 .idle with sched := .request 0 w 0 :: s.sched }

/-- A command presented by instance 0 in encoder state e on Handle 0, answered Ok, with count 1 where the queue has
room. The Handle must be open, and for a SETCFG its queue empty, for the command to run in the very next step. -/
def State.placeCommand (s : State) (e : Encoder) (t : Transport) : State :=
  { (s.setTransport 0 t).setEncoder 0 e with
    sched := .answer 0 (answerWord false false (!t.full s.txqDepth)) Config.zeroOpaque :: s.sched }

/-- Handle 0 as a command needs it: open; if it was not, with a Config that meets premise P2. -/
def State.openZero (s : State) : Transport :=
  if (s.transport 0).isOpen then s.transport 0
  else { s.transport 0 with isOpen := true, cfg := Config.framedCfg }

/-- Place the word so that the next step runs it. The encoder's phase and latches select the command it
presents: RD gives GETCFG, AP with Byte 0 and marker p gives SETCFG p, WR with Byte d gives WRITE d. -/
def State.placeWord (s : State) (iw : IfWord) : State :=
  match iw with
  | .q w => s.placeRequest w
  | .t w =>
    match decodeT w with
    | .ok .getcfg => s.placeCommand (.rd ⟨0, 0#8, false⟩) s.openZero
    | .ok (.setcfg p) =>
      s.placeCommand (.ap ⟨0, 0#8, p.bit⟩ s.openZero.cfg) { s.openZero with txq := [] }
    | .ok (.write d) => s.placeCommand (.wr ⟨0, d, false⟩ s.openZero.cfg) s.openZero
    | _ => { s with sched := .command w 0 Config.zeroOpaque 0#3 :: s.sched }

end Sys2Proof.Machine
end

