-- ==== Sys2Proof/Machine/Step.lean ====
section
/-! DEFINITION. The step, and the placing of a word for the next step. Both only call Machine/Fetch.lean. -/

namespace Sys2Proof.Machine

/-- One step of the machine. -/
def step (s : State) : Host.Outcome State Fault Refusal := Sys2Proof.Machine.runStep Sys2Proof.Machine.exec Config.p2 s

/-- s with the instruction whose opcode-table bits are w placed where the next step fetches it; s itself where
w is no word of that width. -/
def State.withFetchWord (s : State) (nbits w : Nat) : State :=
  match wordOfTable nbits w with
  | none => s
  | some iw => s.placeWord iw

end Sys2Proof.Machine
end

