-- ==== Sys2Proof/Safety.lean ====
section
/-! DEFINITION. What claims are stated in: runs, the renaming of the type arguments (00_scope.md R5), the caller's
premises (70_reset_and_hazards.md R142, R143), the frames a Handle's peer will have received (20_memory.md R40,
41_frame_sender.md R93), what an observer's record may look like (R96), and the machine's invariant. Nothing here
is a check the machine makes (R97). -/

namespace Sys2Proof.Machine

/-- n steps, stopping at the first stop. -/
def runSteps : Nat → State → Host.Outcome State Fault Refusal
  | 0, s => .next s
  | n + 1, s =>
    match step s with
    | .next t => runSteps n t
    | .fault r => .fault r
    | .refused r => .refused r

/-! ### The type arguments (00_scope.md R5; log 1, log 2): what claims about them are stated in -/

section Arguments
variable {H H' O O' : Type} (f : H → H') (g : O → O')

/-- `exec` at any types: it is this at `Handle` and `Opaque`. -/
def execAt [LinearOrder H] [DecidableEq O] [Inhabited O] (i : Instr) (s : State H O) :
    Host.Outcome (State H O) Fault Refusal :=
  match i with
  | .par8 mk b => execPar8 mk b s
  | .send9 mk b => execSend9 mk b s
  | .getcfg => execGetcfg s
  | .setcfg p => execSetcfg p s
  | .write d => execWrite d s

/-- c with its opaque part renamed by g. -/
def renameCfg (c : Cfg O) : Cfg O' := ⟨g c.opq, c.parity⟩

/-- l with its Handle renamed by f. -/
def Latches.rename (l : Latches H) : Latches H' := ⟨f l.h, l.b, l.m⟩

/-- e with every Handle renamed by f and every opaque part by g. -/
def Encoder.rename : Encoder H O → Encoder H' O'
  | .idle => .idle
  | .rd l => .rd (l.rename f)
  | .ap l c => .ap (l.rename f) (renameCfg g c)
  | .wr l c => .wr (l.rename f) (renameCfg g c)

/-- t with its opaque part renamed. -/
def Transport.rename (t : Transport O) : Transport O' := ⟨t.isOpen, renameCfg g t.cfg, t.txq, t.wire⟩

/-- An entry of the record, renamed. -/
def Obs.rename : Obs H O → Obs H' O'
  | .command k w h o => .command k w (f h) (o.map g)
  | .response k w => .response k w
  | .reset k => .reset k

/-- An event, renamed. -/
def Event.rename : Event H O → Event H' O'
  | .request k w h => .request k w (f h)
  | .answer k w o => .answer k w (g o)
  | .drain h => .drain (f h)
  | .command w h o a => .command w (f h) (g o) a
  | .flush h c => .flush (f h) (renameCfg g c)
  | .connect h c => .connect (f h) (renameCfg g c)
  | .disconnect h => .disconnect (f h)
  | .reset k fate => .reset k fate

/-- The state, renamed: tables, signals, record and events; what names no Handle and no opaque part stays. -/
def State.rename (s : State H O) : State H' O' where
  encs := s.encs.map fun e => (e.1, e.2.rename f g)
  trans := s.trans.map fun e => (f e.1, e.2.rename g)
  caller := ⟨s.caller.enc, f s.caller.handle⟩
  tport := ⟨s.tport.issuer, f s.tport.handle, g s.tport.opq, s.tport.ans⟩
  rsp := s.rsp
  trace := s.trace.map fun o => o.rename f g
  sched := s.sched.map fun e => e.rename f g
  draws := s.draws
  txqDepth := s.txqDepth

end Arguments

/-! ### Frames of claims: what stays as it was -/

/-- The input signals, the events to come and the parameter `TXQ_DEPTH` are as before. -/
def SameInputs (s t : State) : Prop :=
  t.caller = s.caller ∧ t.tport = s.tport ∧ t.sched = s.sched ∧ t.txqDepth = s.txqDepth

/-- Every instance but k is as before. -/
def SameEncodersBut (k : EncId) (s t : State) : Prop := ∀ k', k' ≠ k → t.encoder k' = s.encoder k'

/-- Every transport but that of h is as before. -/
def SameTransportsBut (h : Handle) (s t : State) : Prop := ∀ h', h' ≠ h → t.transport h' = s.transport h'

/-- The instance whose encoder exec of i may move: the one the request is at, or the issuer of the command. -/
def State.actor (s : State) : Instr → Option EncId
  | .par8 _ _ => some s.caller.enc
  | .send9 _ _ => some s.caller.enc
  | .getcfg => s.tport.issuer
  | .setcfg _ => s.tport.issuer
  | .write _ => s.tport.issuer

/-- The Handle whose transport exec of i may touch: none for a request; for a command `lat.h` of the issuer, or
another user's Handle (R20, R21). -/
def State.addressed (s : State) (i : Instr) : Option Handle :=
  match i with
  | .par8 _ _ => none
  | .send9 _ _ => none
  | _ =>
    match s.tport.issuer with
    | none => some s.tport.handle
    | some k => (s.encoder k).tHandle

/-! ### Premises (R142, R143) -/

/-- Premises P1 and P2 on Handle h (R142): open, and 8 data bits with a generated parity bit. -/
def State.premises (s : State) (h : Handle) : Bool := (s.transport h).isOpen && (s.transport h).framed Config.p2

/-- Event e, in state s, is a step on `T[h]` by an agent other than instance k and the drain agent of h, or
abandons an operation of instance k on h (R107, R141, R143). -/
def State.otherUse (s : State) (k : EncId) (h : Handle) : Event → Bool
  | .request _ _ _ => false
  | .answer j _ _ => j != k && (s.encoder j).tHandle == some h
  | .drain _ => false
  | .command _ h' _ _ => h' == h
  | .flush h' _ => h' == h
  | .connect h' _ => h' == h
  | .disconnect h' => h' == h
  | .reset j fate => (s.encoder j).tHandle == some h && (j == k || fate.isSome)

/-- Event e, in state s, is the Err answer to a SETCFG on h: it leaves the Config a free value while Bytes may
still be queued (R110; program P2 run b of 95_test_vectors.md; log 24). -/
def State.failedApply (s : State) (h : Handle) : Event → Bool
  | .answer j w _ =>
    match s.encoder j with
    | .ap l _ => l.h == h && ansErr w
    | _ => false
  | _ => false

/-- The next step keeps the exclusivity premise of instance k on h (R143) and is no failed apply on h. While the
next event is held the step is the drain agent's alone, and the event is not yet a step on `T[h]`: another user's
after-drain change counts when it takes effect, not while it waits. R143 leaves open which of the two counts.
DESIGN CHOICE (log 30), safe: the premise is the weaker of the two. -/
def State.exclusiveNext (s : State) (k : EncId) (h : Handle) : Bool :=
  match s.sched with
  | [] => true
  | e :: _ => (s.blockedOn e).isSome || (!s.otherUse k h e && !s.failedApply h e)

/-- Each of the next n steps keeps the premise. -/
def exclusiveRun (k : EncId) (h : Handle) : Nat → State → Bool
  | 0, _ => true
  | n + 1, s =>
    s.exclusiveNext k h &&
      match step s with
      | .next t => exclusiveRun k h n t
      | .fault _ => true
      | .refused _ => true

/-! ### What the peer receives -/

/-- The frames on the wire of h, followed by those its queued Bytes become under the Config in force (R40,
R93). With an empty queue it is the wire. -/
def State.pending (s : State) (h : Handle) : List Frame :=
  (s.transport h).wire ++ framesUnder (s.transport h).cfg.parity (s.transport h).txq

/-- What instance k's own steps guarantee about h under exclusivity: the premises hold; in AP on h the opaque
part latched is the one in force (R16, R85); in WR on h the queue is empty and the polarity is the selected one
(R85, R86). -/
def State.sendReady (s : State) (k : EncId) (h : Handle) : Bool :=
  s.premises h &&
    match s.encoder k with
    | .idle => true
    | .rd _ => true
    | .ap l c => l.h != h || c.opq == (s.transport h).cfg.opq
    | .wr l _ =>
      l.h != h || ((s.transport h).txq.isEmpty && (s.transport h).cfg.parity == sendMode l)

/-- The frame owed to the peer when the step from s to t delivers instance k's response (OK, 1) on h: the Byte
with its marker (R92). -/
def acceptedFrames (k : EncId) (h : Handle) (s t : State) : List Frame :=
  match s.encoder k with
  | .wr l _ => if l.h = h ∧ t.rsp = some (k, 1#3) then [⟨l.b, l.m⟩] else []
  | _ => []

/-- The first response of instance k in a record. -/
def firstResponse (k : EncId) : List Obs → Option (BitVec 3)
  | [] => none
  | .response j w :: rest => if j = k then some w else firstResponse k rest
  | .command _ _ _ _ :: rest => firstResponse k rest
  | .reset _ :: rest => firstResponse k rest

/-- How many Bytes are queued in all. -/
def State.queuedTotal (s : State) : Nat := (s.trans.map fun e => e.2.txq.length).sum

/-! ### The invariant -/

/-- A response word has `val = 0` with every non-zero status (R52). -/
def responseLegal (w : BitVec 3) : Bool := w.extractLsb' 1 2 == 0#2 || !w.getLsbD 0

/-- A command word is one of table 5.1's (R61). -/
def commandLegal (w : BitVec 12) : Bool :=
  w == 0x400#12 || w &&& 0xEFF#12 == 0xA00#12 || w &&& 0xF00#12 == 0xC00#12

/-- An entry of the observer's record has a legal word. -/
def Obs.legal : Obs → Bool
  | .command _ w _ _ => commandLegal w
  | .response _ w => responseLegal w
  | .reset _ => true

/-- The tables are in canonical form, no queue holds more than `TXQ_DEPTH` Bytes (R18), and every word the block has
put on an interface is legal (R52, R61). -/
def State.inv (s : State) : Bool :=
  tableWf Encoder.reset s.encs && tableWf Transport.absent s.trans &&
    (s.trans.all fun e => e.2.fits s.txqDepth) && s.trace.all Obs.legal

/-! ### The order of an instance's record (R37, R38, R96, R125) -/

/-- Where a record stands: the phase it has reached, and the Handle of the operation in flight. -/
structure Seen where
  phase : Phase
  h : Handle
  deriving DecidableEq, Repr

/-- One more entry about the instance: GETCFG, SETCFG, WRITE in this order on one Handle; a response that
belongs to the phase; a reset. Anything else is out of order. -/
def Seen.next (v : Seen) : Obs → Option Seen
  | .command _ w h _ =>
    match v.phase with
    | .IDLE => if w = 0x400#12 then some ⟨.RD, h⟩ else none
    | .RD => if w &&& 0xEFF#12 = 0xA00#12 ∧ h = v.h then some ⟨.AP, h⟩ else none
    | .AP => if w &&& 0xF00#12 = 0xC00#12 ∧ h = v.h then some ⟨.WR, h⟩ else none
    | .WR => none
  | .response _ w =>
    match v.phase with
    | .IDLE => if w = 0#3 ∨ w = 1#3 then some v else none
    | .RD => if w = 2#3 then some ⟨.IDLE, v.h⟩ else none
    | .AP => if w = 4#3 then some ⟨.IDLE, v.h⟩ else none
    | .WR => if w = 0#3 ∨ w = 1#3 ∨ w = 6#3 then some ⟨.IDLE, v.h⟩ else none
  | .reset _ => some ⟨.IDLE, v.h⟩

/-- Which instance an entry is about. -/
def Obs.enc : Obs → EncId
  | .command k _ _ _ => k
  | .response k _ => k
  | .reset k => k

/-- Follow instance k through a record; `none` where its entries are out of order. -/
def watch (k : EncId) : Seen → List Obs → Option Seen
  | v, [] => some v
  | v, o :: rest =>
    if o.enc = k then
      match v.next o with
      | none => none
      | some v' => watch k v' rest
    else watch k v rest

/-- Instance k's record is in order and has reached the phase, and names the Handle, that the encoder is in. -/
def State.traceFollows (s : State) (k : EncId) : Bool :=
  match watch k ⟨.IDLE, 0⟩ s.trace with
  | none => false
  | some v => v.phase == (s.encoder k).phase && ((s.encoder k).tHandle.all fun h => h == v.h)

end Sys2Proof.Machine
end

