-- ==== Sys2Proof/Certificates/Slice0/Obligations.lean ====
section
/-! DEFINITION. The statements for the provers, from the numbered rules of spec/. OBLIGATIONS.json lists them. -/

open Sys2Proof Sys2Proof.Machine

/-! ### Encodings (30_encoding.md) -/

/-- Decoding the word of an instruction gives the instruction, for every operand (formats Q and T, table 5.1). -/
def Obligations.DecodeEncodeAgree : Prop :=
  ∀ i : Instr, decode (encode i) = .ok i

/-- Every one of the request words decodes to a request, and the request's word is that word: format Q has no
illegal and no reserved encoding, and no bit is dropped (R60). -/
def Obligations.RequestWordsRoundTrip : Prop :=
  ∀ w : BitVec 17,
    encode (decodeQ w) = .q w ∧ ((∃ mk b, decodeQ w = .par8 mk b) ∨ (∃ mk b, decodeQ w = .send9 mk b))

/-- A command word decodes exactly when it is one of table 5.1's three patterns, and to that pattern's command
(R59, R61). -/
def Obligations.CommandWordsExact : Prop :=
  ∀ (w : BitVec 12) (i : Instr), decodeT w = .ok i ↔
    (w = 0x400#12 ∧ i = .getcfg) ∨ (w = 0xA00#12 ∧ i = .setcfg .even) ∨ (w = 0xB00#12 ∧ i = .setcfg .odd) ∨
      (∃ d : Byte, w = 0xC00#12 ||| d.setWidth 12 ∧ i = .write d)

/-- Some words of the opcode table, and what they decode to (95_test_vectors.md; R61 for the last three). -/
def Obligations.TableWordsDecode : Prop :=
  decodeTableWord 24 0x00037 = some (.par8 0x00 0x37) ∧ decodeTableWord 24 0x0FF37 = some (.par8 0xFF 0x37) ∧
  decodeTableWord 24 0x18037 = some (.send9 0x80 0x37) ∧ decodeTableWord 24 0x100A0 = some (.send9 0x00 0xA0) ∧
  decodeTableWord 16 0x400 = some .getcfg ∧ decodeTableWord 16 0xA00 = some (.setcfg .even) ∧
  decodeTableWord 16 0xB00 = some (.setcfg .odd) ∧ decodeTableWord 16 0xC05 = some (.write 0x05) ∧
  decodeTableWord 16 0x000 = none ∧ decodeTableWord 16 0x800 = none ∧ decodeTableWord 16 0x401 = none

/-- `canon(mk)` is 0 exactly for `mk = 0`; 0x02 and 0x80 give 1; and a SEND9 is the same for every raw marker
with the same canonical form, since acceptance keeps only the canonical one (R56). -/
def Obligations.MarkerCanonical : Prop :=
  (∀ mk : Byte, canon mk = false ↔ mk = 0) ∧ canon 0x02 = true ∧ canon 0x80 = true ∧
  (∀ (mk mk' b : Byte) (s : State), mk ≠ 0 → mk' ≠ 0 → exec (.send9 mk b) s = exec (.send9 mk' b) s)

/-- The four status codes (R58). -/
def Obligations.StatusCodes : Prop :=
  statusCode .ok = 0 ∧ statusCode .configReadError = 1 ∧ statusCode .configApplyError = 2 ∧
  statusCode .writeError = 3

/-- Formats P and U bit by bit, and Polarity in a bit: `status` at 2:1, `val` at 0; `err`, `par`, `count` at 2, 1,
0; EVEN = 0, ODD = 1, so that the generator and the multiplexer are each one exclusive-or. -/
def Obligations.ResultWordLayout : Prop :=
  (∀ r : Response, (responseWord r).extractLsb' 1 2 = statusCode r.status ∧ (responseWord r).getLsbD 0 = r.val) ∧
  (∀ e p c : Bool, ansErr (answerWord e p c) = e ∧ ansPar (answerWord e p c) = p ∧
    ansCount (answerWord e p c) = c) ∧
  Polarity.even.bit = false ∧ Polarity.odd.bit = true ∧
  (∀ (p : Polarity) (x : Byte), pgen p x = (par8 x ^^ p.bit)) ∧
  (∀ np m : Bool, (muxMode np m).bit = (np ^^ m))

/-- `W9[8]` is the parity bit and `W9[7:0]` the Byte (R62). -/
def Obligations.NinthBitWord : Prop :=
  ∀ f : Frame, (w9 f).getLsbD 8 = f.pbit ∧ (w9 f).extractLsb' 0 8 = f.data

/-- The word each phase drives on `t_cmd_word`: none in IDLE, 0x400 in RD, 0xA00 or 0xB00 in AP by the selected
mode, `{1100, lat.b}` in WR; `t_handle` is always `lat.h`, and `t_opaque_out` in AP the opaque part read. -/
def Obligations.DrivenWords : Prop :=
  (Encoder.idle : Encoder).cmdWord = none ∧
  ∀ (l : Latches) (c : Cfg),
    (Encoder.rd l : Encoder).cmdWord = some 0x400#12 ∧
    (Encoder.ap l c).cmdWord = some (if par8 l.b != l.m then 0xB00#12 else 0xA00#12) ∧
    (Encoder.wr l c).cmdWord = some (0xC00#12 ||| l.b.setWidth 12) ∧
    (Encoder.rd l : Encoder).tHandle = some l.h ∧ (Encoder.ap l c).tHandle = some l.h ∧
    (Encoder.wr l c).tHandle = some l.h ∧ (Encoder.ap l c).tOpaqueOut = some c.opq

/-! ### The classifier (40_parity_classifier.md) -/

/-- `PAR8(b)` is the exclusive-or of the eight bits and the popcount modulo 2 (R70); the fold computes it, with
the intermediate values R71 gives, 0x80 among them; the gate tree of R72 computes it, with `t4 = s1[3:0]` and
`t2 = s2[1:0]`. -/
def Obligations.ClassifierThreeWays : Prop :=
  (∀ b : Byte,
    par8 b = (b.getLsbD 7 ^^ b.getLsbD 6 ^^ b.getLsbD 5 ^^ b.getLsbD 4 ^^ b.getLsbD 3 ^^ b.getLsbD 2 ^^
      b.getLsbD 1 ^^ b.getLsbD 0) ∧
    (par8 b).toNat = popcount b % 2 ∧
    par8Fold b = par8 b ∧
    (foldS1 b).extractLsb' 0 4 = b.extractLsb' 4 4 ^^^ b.extractLsb' 0 4 ∧
    (foldS2 b).extractLsb' 0 2 = (foldS1 b).extractLsb' 2 2 ^^^ (foldS1 b).extractLsb' 0 2 ∧
    (foldS3 b).getLsbD 0 = ((foldS2 b).getLsbD 1 ^^ (foldS2 b).getLsbD 0) ∧
    par8Tree b = par8 b ∧
    treeT4 b = (foldS1 b).extractLsb' 0 4 ∧ treeT2 b = (foldS2 b).extractLsb' 0 2) ∧
  foldS3 0x80 = 0xFF ∧ par8 0x80 = true

/-- The laws of the classifier: linearity, complement, a single bit, a flipped bit, balance, and independence of the
order of the bits. -/
def Obligations.ClassifierLaws : Prop :=
  (∀ a b : Byte, par8 (a ^^^ b) = (par8 a ^^ par8 b)) ∧
  (∀ b : Byte, par8 (~~~b) = par8 b) ∧
  (∀ i : Fin 8, par8 (1#8 <<< i.val) = true) ∧
  (∀ (b : Byte) (i : Fin 8), par8 (b ^^^ (1#8 <<< i.val)) = !par8 b) ∧
  ((List.range 256).filter fun n => par8 (BitVec.ofNat 8 n)).length = 128 ∧
  (∀ (σ : Equiv.Perm (Fin 8)) (a b : Byte), (∀ i : Fin 8, b.getLsbD i.val = a.getLsbD (σ i).val) →
    par8 b = par8 a)

/-- The full table of PAR8, row = high nibble, column = low nibble, and its symmetry (R76). -/
def Obligations.ClassifierTable : Prop :=
  let a := [false, true, true, false, true, false, false, true, true, false, false, true, false, true, true, false]
  let c := [true, false, false, true, false, true, true, false, false, true, true, false, true, false, false, true]
  ((List.range 256).map fun n => par8 (BitVec.ofNat 8 n)) =
    [a, c, c, a, c, a, a, c, c, a, a, c, a, c, c, a].flatten ∧
  (∀ hi lo : BitVec 4, par8 (hi ++ lo) = (par8 (0#4 ++ hi) ^^ par8 (0#4 ++ lo)))

/-- Operation PAR8 (R74): in IDLE it responds `(OK, PAR8(b))` in the accepting step; `mk` and `req_handle` are
ignored; no phase, latch, transport or draw changes and no command is issued; its word is any word with bit 16
clear; the corner cases and the worked example of the rule. While the phase is not IDLE nothing is accepted. -/
def Obligations.Par8Responds : Prop :=
  (∀ (mk b : Byte) (s : State), (s.encoder s.caller.enc).phase = .IDLE →
    ∃ t, exec (.par8 mk b) s = .next t ∧
      t.rsp = some (s.caller.enc, responseWord ⟨.ok, par8 b⟩) ∧
      t.trace = s.trace ++ [.response s.caller.enc (responseWord ⟨.ok, par8 b⟩)] ∧
      t.encs = s.encs ∧ t.trans = s.trans ∧ SameInputs s t ∧ t.draws = s.draws) ∧
  (∀ (mk b : Byte) (s : State), (s.encoder s.caller.enc).phase ≠ .IDLE → exec (.par8 mk b) s = .next s) ∧
  (∀ (mk mk' b : Byte) (s : State), exec (.par8 mk b) s = exec (.par8 mk' b) s) ∧
  (∀ (b : Byte) (s : State) (h : Handle) (t : State), exec (.par8 0 b) s = .next t →
    exec (.par8 0 b) { s with caller := ⟨s.caller.enc, h⟩ } =
      .next { t with caller := ⟨s.caller.enc, h⟩ }) ∧
  (∀ w : BitVec 17, w.getLsbD 16 = false →
    decodeQ w = .par8 (w.extractLsb' 8 8) (w.extractLsb' 0 8)) ∧
  par8 0x00 = false ∧ par8 0xFF = false ∧ (∀ i : Fin 8, par8 (1#8 <<< i.val) = true) ∧
  foldS1 0xA2 = 0xA8 ∧ foldS2 0xA2 = 0x82 ∧ foldS3 0xA2 = 0xC3 ∧ par8 0xA2 = true

/-! ### The frame sender (41_frame_sender.md) -/

/-- Acceptance of SEND9 (R81): in IDLE, `lat.h`, `lat.b` and the canonical marker are latched and the phase is RD,
nothing else of the machine changing but the record of the GETCFG presented; the raw marker is not kept; while
the phase is not IDLE no request is accepted. -/
def Obligations.SendAccepted : Prop :=
  (∀ (mk b : Byte) (s : State), (s.encoder s.caller.enc).phase = .IDLE →
    ∃ t, exec (.send9 mk b) s = .next t ∧
      t.encoder s.caller.enc = .rd ⟨s.caller.handle, b, canon mk⟩ ∧
      (t.encoder s.caller.enc).phase = .RD ∧
      t.trace = s.trace ++ [.command s.caller.enc 0x400#12 s.caller.handle none] ∧
      SameEncodersBut s.caller.enc s t ∧ t.trans = s.trans ∧ SameInputs s t ∧ t.rsp = s.rsp ∧
      t.draws = s.draws) ∧
  (∀ (mk b : Byte) (s : State), (s.encoder s.caller.enc).phase ≠ .IDLE →
    (s.encoder s.caller.enc).reqReady = false ∧
    exec (.send9 mk b) s = .next s ∧ exec (.par8 mk b) s = .next s)

/-- The mode multiplexer (R84): ODD exactly when `naturalParity != MarkerBit`, else EVEN, so `mode = np xor m`; it
reads the Byte's parity and the marker alone (two encoders in AP with the same Byte and marker drive the same
word, whatever Config and Handle they hold); table 2.1, and the bit a generator then produces is the marker. -/
def Obligations.ModeMultiplexer : Prop :=
  (∀ np m : Bool, (muxMode np m = .odd ↔ np ≠ m) ∧ (muxMode np m = .even ↔ np = m) ∧
    (muxMode np m).bit = (np ^^ m)) ∧
  (∀ (b : Byte) (m : Bool), pgen (muxMode (par8 b) m) b = m) ∧
  (∀ (l l' : Latches) (c c' : Cfg), l.b = l'.b → l.m = l'.m →
    (Encoder.ap l c).cmdWord = (Encoder.ap l' c').cmdWord)

/-- Step 1 succeeds (RD-OK): on a Handle that is open, GETCFG answered Ok latches the Config in force, whole, and
the encoder presents the SETCFG of the selected mode with the opaque part just read. The transport is
untouched. -/
def Obligations.ReadCompletes : Prop :=
  ∀ (s : State) (k : EncId) (l : Latches), s.tport.issuer = some k → s.encoder k = .rd l →
    (s.transport l.h).isOpen = true → ansErr s.tport.ans = false →
    ∃ t, exec .getcfg s = .next t ∧
      t.encoder k = .ap l (s.transport l.h).cfg ∧
      t.trace = s.trace ++ [.command k (if par8 l.b != l.m then 0xB00#12 else 0xA00#12) l.h
        (some (s.transport l.h).cfg.opq)] ∧
      SameEncodersBut k s t ∧ t.trans = s.trans ∧ SameInputs s t ∧ t.rsp = s.rsp ∧ t.draws = s.draws

/-- Step 1 fails (R121): GETCFG answered Err in RD. No SETCFG and no WRITE is issued, the response is
`(ConfigReadError, 0)`, the phase is IDLE; on a Handle that is open the transport is untouched. -/
def Obligations.ReadFails : Prop :=
  ∀ (s : State) (k : EncId) (l : Latches), s.tport.issuer = some k → s.encoder k = .rd l →
    ansErr s.tport.ans = true →
    ∃ t, exec .getcfg s = .next t ∧
      t.encoder k = .idle ∧ t.rsp = some (k, 0b010#3) ∧ t.trace = s.trace ++ [.response k 0b010#3] ∧
      SameEncodersBut k s t ∧ SameTransportsBut l.h s t ∧ SameInputs s t ∧
      ((s.transport l.h).isOpen = true → t.trans = s.trans ∧ t.draws = s.draws)

/-- Step 4 succeeds (AP-OK): with the queue empty, SETCFG answered Ok puts in force the Config latched in step 1
with the selected polarity, opaque part unchanged, and the encoder presents its WRITE. -/
def Obligations.ApplyCompletes : Prop :=
  ∀ (s : State) (k : EncId) (l : Latches) (c : Cfg), s.tport.issuer = some k → s.encoder k = .ap l c →
    (s.transport l.h).isOpen = true → ansErr s.tport.ans = false → (s.transport l.h).txq = [] →
    ∃ t, exec (.setcfg (muxMode (par8 l.b) l.m)) s = .next t ∧
      t.encoder k = .wr l c ∧
      t.transport l.h = { s.transport l.h with cfg := ⟨c.opq, muxMode (par8 l.b) l.m⟩ } ∧
      t.trace = s.trace ++ [.command k (0xC00#12 ||| l.b.setWidth 12) l.h none] ∧
      SameEncodersBut k s t ∧ SameTransportsBut l.h s t ∧ SameInputs s t ∧ t.rsp = s.rsp ∧ t.draws = s.draws

/-- Step 4 fails (R122): SETCFG answered Err in AP, whatever is queued. No WRITE is issued, the response is
`(ConfigApplyError, 0)`, the phase is IDLE; on a Handle that is open only the Config of `T[h]` may differ, and
nothing is claimed of it. -/
def Obligations.ApplyFails : Prop :=
  ∀ (s : State) (k : EncId) (l : Latches) (c : Cfg), s.tport.issuer = some k → s.encoder k = .ap l c →
    ansErr s.tport.ans = true →
    ∃ t, exec (.setcfg (muxMode (par8 l.b) l.m)) s = .next t ∧
      t.encoder k = .idle ∧ t.rsp = some (k, 0b100#3) ∧ t.trace = s.trace ++ [.response k 0b100#3] ∧
      SameEncodersBut k s t ∧ SameTransportsBut l.h s t ∧ SameInputs s t ∧
      ((s.transport l.h).isOpen = true → ∃ c', t.transport l.h = { s.transport l.h with cfg := c' })

/-- Step 4 is held: while a Byte is queued a SETCFG that would be answered Ok, the block's own or another user's,
changes nothing and stays outstanding. -/
def Obligations.ApplyHeld : Prop :=
  (∀ (s : State) (k : EncId) (l : Latches) (c : Cfg) (p : Polarity), s.tport.issuer = some k →
    s.encoder k = .ap l c → (s.transport l.h).isOpen = true → ansErr s.tport.ans = false →
    (s.transport l.h).txq ≠ [] → exec (.setcfg p) s = .next s) ∧
  (∀ (s : State) (p : Polarity), s.tport.issuer = none → (s.transport s.tport.handle).isOpen = true →
    ansErr s.tport.ans = false → (s.transport s.tport.handle).txq ≠ [] → exec (.setcfg p) s = .next s)

/-- Steps 5 and 6 (WR-1, WR-0): WRITE answered Ok(1) with room in the queue queues the Byte last, Ok(0) queues
nothing; the response is `(OK, n)` and the phase IDLE. Config and wire are untouched. -/
def Obligations.WriteCompletes : Prop :=
  ∀ (s : State) (k : EncId) (l : Latches) (c : Cfg), s.tport.issuer = some k → s.encoder k = .wr l c →
    (s.transport l.h).isOpen = true → ansErr s.tport.ans = false →
    (ansCount s.tport.ans = true → (s.transport l.h).full s.txqDepth = false) →
    ∃ t, exec (.write l.b) s = .next t ∧
      t.encoder k = .idle ∧
      t.transport l.h = { s.transport l.h with
        txq := (s.transport l.h).txq ++ (if ansCount s.tport.ans then [l.b] else []) } ∧
      t.rsp = some (k, if ansCount s.tport.ans then 0b001#3 else 0b000#3) ∧
      t.trace = s.trace ++ [.response k (if ansCount s.tport.ans then 0b001#3 else 0b000#3)] ∧
      SameEncodersBut k s t ∧ SameTransportsBut l.h s t ∧ SameInputs s t ∧ t.draws = s.draws

/-- Step 5 is held: while the queue is full a WRITE that would be answered Ok(1), the block's own or another user's,
changes nothing and stays outstanding: a full queue "shows as `Ok(0)` or as a late answer" (D17), a late Ok(1) (N6).
Full is at `TXQ_DEPTH` Bytes, never without a bound (how a late answer is told is log 18). -/
def Obligations.WriteHeld : Prop :=
  (∀ (s : State) (k : EncId) (l : Latches) (c : Cfg) (d : Byte), s.tport.issuer = some k →
    s.encoder k = .wr l c → (s.transport l.h).isOpen = true → ansErr s.tport.ans = false →
    ansCount s.tport.ans = true → (s.transport l.h).full s.txqDepth = true → exec (.write d) s = .next s) ∧
  (∀ (s : State) (d : Byte), s.tport.issuer = none → (s.transport s.tport.handle).isOpen = true →
    ansErr s.tport.ans = false → ansCount s.tport.ans = true →
    (s.transport s.tport.handle).full s.txqDepth = true → exec (.write d) s = .next s) ∧
  (∀ (t : Transport) (depth : Option Nat),
    t.full depth = true ↔ ∃ n, depth = some n ∧ n ≤ t.txq.length)

/-- Step 5 fails (WR-ERR): WRITE answered Err in WR. The response is `(WriteError, 0)`, the phase IDLE; on a Handle
that is open nothing is queued and the transport is untouched. -/
def Obligations.WriteFails : Prop :=
  ∀ (s : State) (k : EncId) (l : Latches) (c : Cfg), s.tport.issuer = some k → s.encoder k = .wr l c →
    ansErr s.tport.ans = true →
    ∃ t, exec (.write l.b) s = .next t ∧
      t.encoder k = .idle ∧ t.rsp = some (k, 0b110#3) ∧ t.trace = s.trace ++ [.response k 0b110#3] ∧
      SameEncodersBut k s t ∧ SameTransportsBut l.h s t ∧ SameInputs s t ∧
      ((s.transport l.h).isOpen = true → t.trans = s.trans ∧ t.draws = s.draws)

/-- A command that its issuer has not presented takes no transition and has no effect (log 28): GETCFG outside RD,
SETCFG outside AP or of the mode not selected, WRITE outside WR or of another Byte. -/
def Obligations.CommandNotPresented : Prop :=
  ∀ (s : State) (k : EncId), s.tport.issuer = some k →
    ((s.encoder k).command ≠ some .getcfg → exec .getcfg s = .next s) ∧
    (∀ p : Polarity, (s.encoder k).command ≠ some (.setcfg p) → exec (.setcfg p) s = .next s) ∧
    (∀ d : Byte, (s.encoder k).command ≠ some (.write d) → exec (.write d) s = .next s)

/-- Only the events of table 4.1, and a reset, move an encoder; with what each writes. On a Handle that is open the
Config latched is the one in force, a SETCFG succeeds only with the queue empty, a WRITE counts 1 only with room in
the queue (log 18), and the effect on `T[h]` is the table's. -/
def Obligations.EncoderMovesOnlyByTable : Prop :=
  ∀ (s t : State) (k : EncId), step s = .next t → t.encoder k ≠ s.encoder k →
    -- reset (R140)
    (∃ fate rest, s.sched = .reset k fate :: rest ∧ t.encoder k = .idle ∧ t.rsp = none) ∨
    -- ACCEPT-SEND9
    (∃ w h rest mk b, s.encoder k = .idle ∧ s.sched = .request k w h :: rest ∧ decodeQ w = .send9 mk b ∧
      t.encoder k = .rd ⟨h, b, canon mk⟩ ∧ t.rsp = none ∧ t.trans = s.trans) ∨
    (∃ w o rest, s.sched = .answer k w o :: rest ∧
      ((∃ l, s.encoder k = .rd l ∧
          -- RD-OK
          ((∃ c, ansErr w = false ∧ t.encoder k = .ap l c ∧ t.rsp = none ∧
              ((s.transport l.h).isOpen = true → c = (s.transport l.h).cfg ∧ t.trans = s.trans)) ∨
          -- RD-ERR
           (ansErr w = true ∧ t.encoder k = .idle ∧ t.rsp = some (k, 0b010#3) ∧
              ((s.transport l.h).isOpen = true → t.trans = s.trans)))) ∨
       (∃ l c, s.encoder k = .ap l c ∧
          -- AP-OK
          ((ansErr w = false ∧ t.encoder k = .wr l c ∧ t.rsp = none ∧
              ((s.transport l.h).isOpen = true → (s.transport l.h).txq = [] ∧
                t.transport l.h = { s.transport l.h with cfg := ⟨c.opq, muxMode (par8 l.b) l.m⟩ })) ∨
          -- AP-ERR
           (ansErr w = true ∧ t.encoder k = .idle ∧ t.rsp = some (k, 0b100#3) ∧
              ((s.transport l.h).isOpen = true →
                ∃ c', t.transport l.h = { s.transport l.h with cfg := c' })))) ∨
       (∃ l c, s.encoder k = .wr l c ∧ t.encoder k = .idle ∧
          -- WR-1
          ((ansErr w = false ∧ ansCount w = true ∧ t.rsp = some (k, 0b001#3) ∧
              ((s.transport l.h).isOpen = true → (s.transport l.h).full s.txqDepth = false ∧
                t.transport l.h = { s.transport l.h with txq := (s.transport l.h).txq ++ [l.b] })) ∨
          -- WR-0
           (ansErr w = false ∧ ansCount w = false ∧ t.rsp = some (k, 0b000#3) ∧
              ((s.transport l.h).isOpen = true → t.trans = s.trans)) ∨
          -- WR-ERR
           (ansErr w = true ∧ t.rsp = some (k, 0b110#3) ∧
              ((s.transport l.h).isOpen = true → t.trans = s.trans))))))

/-- The delivery of a response is the end of the operation: after a step that responds, whatever the status, the
instance is IDLE, and the response is the last entry of the record. -/
def Obligations.ResponseEndsOperation : Prop :=
  ∀ (s t : State) (k : EncId) (w : BitVec 3), step s = .next t → t.rsp = some (k, w) →
    t.encoder k = .idle ∧ t.trace = s.trace ++ [.response k w]

/-- The block's guarantee (R92), for every schedule that keeps the exclusivity premise: a SEND9 accepted with the
premises P1 and P2 leaves every frame that was on the wire or owed as it was, and once its response `(OK, 1)` is
delivered the next frame the peer is owed is `(b, canon(mk))`; when the queue has drained it is on the wire. The
premise excludes a failed apply on h in the run, after which no Config is known (R110; log 24); another user's
command that is still held does not yet break it (log 30). -/
def Obligations.FrameCarriesMarker : Prop :=
  ∀ (n : Nat) (s t : State) (k : EncId) (h : Handle) (w : BitVec 17) (mk b : Byte) (rest : List Event),
    decodeQ w = .send9 mk b → s.sched = .request k w h :: rest → s.encoder k = .idle →
    s.premises h = true → exclusiveRun k h n s = true → runSteps n s = .next t →
    s.pending h <+: t.pending h ∧
    (firstResponse k (t.trace.drop s.trace.length) = some 0b001#3 →
      s.pending h ++ [⟨b, canon mk⟩] <+: t.pending h ∧
      ((t.transport h).txq = [] → s.pending h ++ [⟨b, canon mk⟩] <+: (t.transport h).wire))

/-- The big step (R93) with every outcome of the write (table 4.1 of 60_exceptions.md): with q queued, one SEND9
whose read and apply are answered Ok takes `|q| + 4` steps; q goes out under the old polarity, then the selected
one is in force with the opaque part unchanged, the Byte is queued exactly when the answer is Ok(1), the response
is the answer's; a drain step then emits `(b, canon(mk))`. The steps counted are those of log 9. With `TXQ_DEPTH` 0
an answer Ok(1) stays held (WriteHeld). -/
def Obligations.WholeSend : Prop :=
  ∀ (s : State) (k : EncId) (h : Handle) (w : BitVec 17) (mk b : Byte) (a1 a2 a3 : BitVec 3)
    (o1 o2 o3 : Opaque) (rest : List Event),
    decodeQ w = .send9 mk b →
    s.sched = .request k w h :: .answer k a1 o1 :: .answer k a2 o2 :: .answer k a3 o3 :: rest →
    s.encoder k = .idle → s.premises h = true → ansErr a1 = false → ansErr a2 = false →
    (ansErr a3 = false → ansCount a3 = true → s.txqDepth ≠ some 0) →
    ∃ t, runSteps ((s.transport h).txq.length + 4) s = .next t ∧
      t.encoder k = .idle ∧ t.sched = rest ∧
      t.transport h =
        { isOpen := true
          cfg := ⟨(s.transport h).cfg.opq, muxMode (par8 b) (canon mk)⟩
          txq := if !ansErr a3 && ansCount a3 then [b] else []
          wire := (s.transport h).wire ++ framesUnder (s.transport h).cfg.parity (s.transport h).txq } ∧
      t.rsp = some (k, if ansErr a3 then 0b110#3 else if ansCount a3 then 0b001#3 else 0b000#3) ∧
      SameEncodersBut k s t ∧ SameTransportsBut h s t ∧
      ((!ansErr a3 && ansCount a3) = true →
        (t.drain Config.p2 h).transport h = { t.transport h with
          txq := []
          wire := (s.transport h).wire ++ framesUnder (s.transport h).cfg.parity (s.transport h).txq ++
            [⟨b, canon mk⟩] })

/-- Inherited polarity (R94, R145): a SEND9 of b with mk whose read and apply are answered Ok, and whose write is
answered in any way, then another user's ordinary send of x (its WRITE, log 20), then the drain agent. The polarity
stays the one the block set, so x, which reaches the wire last, goes out with `PAR8(x) xor PAR8(b) xor canon(mk)`;
the Byte of the SEND9 is before it exactly when its write was answered Ok(1). The steps counted are those of log 9;
with room for one Byte only, x waits one step more for the Byte before it (log 18). -/
def Obligations.OrdinarySendInherits : Prop :=
  ∀ (s : State) (k : EncId) (h : Handle) (w : BitVec 17) (mk b x : Byte) (a1 a2 a3 a4 : BitVec 3)
    (o1 o2 o3 o4 : Opaque) (rest : List Event),
    decodeQ w = .send9 mk b →
    s.sched = .request k w h :: .answer k a1 o1 :: .answer k a2 o2 :: .answer k a3 o3 ::
      .command (0xC00#12 ||| x.setWidth 12) h o4 a4 :: .drain h :: .drain h :: rest →
    s.encoder k = .idle → s.premises h = true → ansErr a1 = false → ansErr a2 = false →
    ansErr a4 = false → ansCount a4 = true → s.txqDepth ≠ some 0 →
    ∃ t, runSteps ((s.transport h).txq.length +
        (if s.txqDepth = some 1 ∧ ansErr a3 = false ∧ ansCount a3 = true then 8 else 7)) s = .next t ∧
      t.sched = rest ∧
      t.transport h =
        { isOpen := true
          cfg := ⟨(s.transport h).cfg.opq, muxMode (par8 b) (canon mk)⟩
          txq := []
          wire := (s.transport h).wire ++ framesUnder (s.transport h).cfg.parity (s.transport h).txq ++
            (if !ansErr a3 && ansCount a3 then [⟨b, canon mk⟩] else []) ++
            [⟨x, (par8 x ^^ par8 b) ^^ canon mk⟩] }

/-! ### The transport (42_transport_interface.md, 20_memory.md) -/

/-- The parity generator (R105): EVEN gives `PAR8(x)`, ODD its complement, both `PAR8(x) xor p`; under EVEN the nine
bits have an even number of ones, under ODD an odd number. -/
def Obligations.ParityGenerator : Prop :=
  ∀ x : Byte,
    pgen .even x = par8 x ∧ pgen .odd x = (!par8 x) ∧
    (∀ p : Polarity, pgen p x = (par8 x ^^ p.bit)) ∧
    popcount (w9 ⟨x, pgen .even x⟩) % 2 = 0 ∧ popcount (w9 ⟨x, pgen .odd x⟩) % 2 = 1

/-- The commands of another user of the Handle, who is no instance of the block: GETCFG changes nothing, SETCFG
with the queue empty replaces the whole Config, WRITE answered Ok(1) with room in the queue appends; no encoder moves
and the block records nothing. -/
def Obligations.OtherUsersCommands : Prop :=
  ∀ s : State, s.tport.issuer = none → (s.transport s.tport.handle).isOpen = true →
    exec .getcfg s = .next s ∧
    (∀ p : Polarity, ansErr s.tport.ans = false → (s.transport s.tport.handle).txq = [] →
      ∃ t, exec (.setcfg p) s = .next t ∧
        t.transport s.tport.handle = { s.transport s.tport.handle with cfg := ⟨s.tport.opq, p⟩ } ∧
        SameTransportsBut s.tport.handle s t ∧ t.encs = s.encs ∧ t.trace = s.trace ∧ t.rsp = s.rsp ∧
        SameInputs s t ∧ t.draws = s.draws) ∧
    (∀ d : Byte, s.writeHeld s.tport.handle s.tport.ans = false → ∃ t, exec (.write d) s = .next t ∧
      t.transport s.tport.handle = { s.transport s.tport.handle with
        txq := (s.transport s.tport.handle).txq ++
          (if !ansErr s.tport.ans && ansCount s.tport.ans then [d] else []) } ∧
      SameTransportsBut s.tport.handle s t ∧ t.encs = s.encs ∧ t.trace = s.trace ∧ t.rsp = s.rsp ∧
      SameInputs s t ∧ t.draws = s.draws)

/-- On a Handle that is not open (U3; log 4) the model assumes neither Ok nor Err: each command of the block still
ends as its answer says, and of `T[h]` only this is claimed, that no frame leaves the wire. -/
def Obligations.ClosedHandleFollowsAnswer : Prop :=
  ∀ (s : State) (k : EncId) (l : Latches) (c : Cfg), s.tport.issuer = some k →
    (s.transport l.h).isOpen = false →
    (s.encoder k = .rd l → ∃ t, exec .getcfg s = .next t ∧
      (s.transport l.h).wire <+: (t.transport l.h).wire ∧ SameTransportsBut l.h s t ∧
      t.encoder k = if ansErr s.tport.ans then .idle
        else .ap l ⟨s.tport.opq, Polarity.ofBit (ansPar s.tport.ans)⟩) ∧
    (s.encoder k = .ap l c → ∃ t, exec (.setcfg (muxMode (par8 l.b) l.m)) s = .next t ∧
      (s.transport l.h).wire <+: (t.transport l.h).wire ∧ SameTransportsBut l.h s t ∧
      t.encoder k = if ansErr s.tport.ans then .idle else .wr l c) ∧
    (s.encoder k = .wr l c → ∃ t, exec (.write l.b) s = .next t ∧
      (s.transport l.h).wire <+: (t.transport l.h).wire ∧ SameTransportsBut l.h s t ∧ t.encoder k = .idle)

/-- What the block ignores of an answer word (R54): with `err = 1` everything else; of a SETCFG's answer `par` and
`count`; of a WRITE's `par`; of a GETCFG's `count`; and of the opaque part beside an answer all but a GETCFG's. These
on any Handle, open or not. That on an open Handle a GETCFG answered Ok ignores `par` and the opaque part the
answer event offers as well is not R54, which has the block read them: the model has the transport answer the
Config in force whatever the event offers (log 26, DEDUCED from R101 and R106). Two answers that differ only there
leave the same encoders, transports, responses, record and draws. -/
def Obligations.AnswerBitsIgnored : Prop :=
  ∀ (s : State) (k : EncId) (l : Latches) (c : Cfg) (a a' : BitVec 3) (o o' : Opaque) (i : Instr) (t t' : State),
    ansErr a = ansErr a' →
    ((s.encoder k = .rd l ∧ ((s.transport l.h).isOpen = true ∨ ansErr a = true ∨
        (o = o' ∧ ansPar a = ansPar a'))) ∨
      s.encoder k = .ap l c ∨
      (s.encoder k = .wr l c ∧ (ansErr a = true ∨ ansCount a = ansCount a'))) →
    (s.encoder k).command = some i →
    exec i { s with tport := ⟨some k, s.tport.handle, o, a⟩ } = .next t →
    exec i { s with tport := ⟨some k, s.tport.handle, o', a'⟩ } = .next t' →
    t.encs = t'.encs ∧ t.trans = t'.trans ∧ t.rsp = t'.rsp ∧ t.trace = t'.trace ∧ t.draws = t'.draws

/-- Frame emission (R104): with `T[h].txq = x :: r` and premise P2, the drain step moves x to the wire as
`(x, pgen(T[h].cfg.parity, x))` and changes nothing else; with an empty queue it is not enabled. -/
def Obligations.DrainEmits : Prop :=
  (∀ (s : State) (h : Handle) (x : Byte) (r : List Byte), (s.transport h).txq = x :: r →
    (s.transport h).framed Config.p2 = true →
    (s.drain Config.p2 h).transport h = { s.transport h with
      txq := r
      wire := (s.transport h).wire ++ [⟨x, pgen (s.transport h).cfg.parity x⟩] } ∧
    SameTransportsBut h s (s.drain Config.p2 h) ∧ (s.drain Config.p2 h).encs = s.encs ∧
    SameInputs s (s.drain Config.p2 h) ∧ (s.drain Config.p2 h).rsp = s.rsp ∧
    (s.drain Config.p2 h).trace = s.trace ∧ (s.drain Config.p2 h).draws = s.draws) ∧
  (∀ (s : State) (h : Handle), (s.transport h).txq = [] → s.drain Config.p2 h = s)

/-- The queue is first-in first-out, and only the drain step adds to the wire: in one step, on a Handle that is
open, queue and wire stay; or a Byte is appended to the queue, which has room; or the oldest Byte leaves it and one
frame is added, generated from the Config in force when premise P2 holds; or another user discards the queue, which
the model empties whole in that step (log 29, its reading of R107 (b)). -/
def Obligations.QueueFirstInFirstOut : Prop :=
  ∀ (s t : State) (h : Handle), step s = .next t → (s.transport h).isOpen = true →
    ((t.transport h).txq = (s.transport h).txq ∧ (t.transport h).wire = (s.transport h).wire) ∨
    (∃ b, (t.transport h).txq = (s.transport h).txq ++ [b] ∧ (t.transport h).wire = (s.transport h).wire ∧
      (s.transport h).full s.txqDepth = false) ∨
    (∃ x r f, (s.transport h).txq = x :: r ∧ (t.transport h).txq = r ∧
      (t.transport h).wire = (s.transport h).wire ++ [f] ∧
      ((s.transport h).framed Config.p2 = true → f = ⟨x, pgen (s.transport h).cfg.parity x⟩)) ∨
    (∃ c rest, s.sched = .flush h c :: rest ∧ (t.transport h).txq = [] ∧
      (t.transport h).wire = (s.transport h).wire)

/-- The wire is append-only (R19): no step, by anyone, removes or changes a frame of a Handle. On a Handle that is
not open this is the model's choice, not R19 alone: U3 lets `T[h]` take any value after a command, and the model
keeps the frames already on the wire (log 4); so is that a Handle opened again keeps its wire (log 21). -/
def Obligations.WireAppendOnly : Prop :=
  ∀ (s t : State) (h : Handle), step s = .next t → (s.transport h).wire <+: (t.transport h).wire

/-- The polarity persists: only an answer to a SETCFG of the block, a command, a discard or an opening by another
user changes the Config of an open Handle; and the block's own SETCFG that succeeds does so only with the queue
empty. -/
def Obligations.ConfigWrittenOnlyBy : Prop :=
  ∀ (s t : State) (h : Handle), step s = .next t → (s.transport h).isOpen = true →
    (t.transport h).cfg ≠ (s.transport h).cfg →
    (∃ k w o rest l c, s.sched = .answer k w o :: rest ∧ s.encoder k = .ap l c ∧ l.h = h ∧
      (ansErr w = false → (s.transport h).txq = [])) ∨
    (∃ w o a rest, s.sched = .command w h o a :: rest) ∨
    (∃ c rest, s.sched = .flush h c :: rest) ∨ (∃ c rest, s.sched = .connect h c :: rest) ∨
    (∃ k w rest, s.sched = .reset k (some w) :: rest ∧ (s.encoder k).tHandle = some h)

/-- One step under exclusivity (R40 (b) (c), R41, R43): what the peer of h has received or is owed does not change,
except that the response `(OK, 1)` of a SEND9 on h adds its Byte with its marker; and what instance k guarantees
about h is kept. The premise excludes a failed apply on h (log 24); a held event does not yet break it (log 30). -/
def Obligations.OneStepKeepsPendingFrames : Prop :=
  ∀ (s t : State) (k : EncId) (h : Handle), s.sendReady k h = true → s.exclusiveNext k h = true →
    step s = .next t →
    t.sendReady k h = true ∧ t.pending h = s.pending h ++ acceptedFrames k h s t

/-- Operations on different Handles and by different instances do not interact (R21): exec of an instruction
touches only the transport it addresses and the encoder of the instance that acts. -/
def Obligations.HandlesIsolated : Prop :=
  ∀ (i : Instr) (s t : State), exec i s = .next t →
    (∀ h, s.addressed i ≠ some h → t.transport h = s.transport h) ∧
    (∀ k, s.actor i ≠ some k → t.encoder k = s.encoder k)

/-- With no event left the drain agents empty every queue, in as many steps as Bytes are queued (R109; the
scheduling is log 8). -/
def Obligations.QueuesDrain : Prop :=
  ∀ (n : Nat) (s : State), tableWf Transport.absent s.trans = true → s.sched = [] → s.queuedTotal ≤ n →
    ∃ t, runSteps n s = .next t ∧ ∀ h, (t.transport h).txq = []

/-- Another user's reconfigurations (R107 (b)) on a Handle that is open, as the model reads them: the one with discard
empties the whole queue and replaces the Config in one step (log 29, DEDUCED); the one at once is a SETCFG word with
`timing = 0` (log 20, DESIGN CHOICE), which, answered Ok, replaces the Config with the queue untouched, and, answered
Err, leaves some Config (R110). All else is as before, but for the command's own input signals and the response of
the last step, which is withdrawn (log 17). -/
def Obligations.OtherUsersReconfigure : Prop :=
  (∀ (s : State) (h : Handle) (c : Cfg) (rest : List Event), s.sched = .flush h c :: rest →
    (s.transport h).isOpen = true →
    ∃ t, step s = .next t ∧ t.transport h = { s.transport h with cfg := c, txq := [] } ∧
      SameTransportsBut h s t ∧ t.encs = s.encs ∧ t.caller = s.caller ∧ t.tport = s.tport ∧ t.rsp = none ∧
      t.trace = s.trace ∧ t.sched = rest ∧ t.draws = s.draws ∧ t.txqDepth = s.txqDepth) ∧
  (∀ (s : State) (h : Handle) (o : Opaque) (p : Polarity) (a : BitVec 3) (rest : List Event),
    s.sched = .command (if p.bit then 0x900#12 else 0x800#12) h o a :: rest →
    (s.transport h).isOpen = true →
    ∃ t c, step s = .next t ∧ t.transport h = { s.transport h with cfg := c } ∧
      (ansErr a = false → c = ⟨o, p⟩ ∧ t.draws = s.draws) ∧ (ansErr a = true → t.draws = s.draws + 1) ∧
      SameTransportsBut h s t ∧ t.encs = s.encs ∧ t.caller = s.caller ∧ t.tport = ⟨none, h, o, a⟩ ∧
      t.rsp = none ∧ t.trace = s.trace ∧ t.sched = rest ∧ t.txqDepth = s.txqDepth)

/-- The ninth bit of a queued Byte under a polarity a SEND9 of b with mk selected (the bit of R145): while that
polarity is in force, the drain step emits x with `PAR8(x) xor PAR8(b) xor canon(mk)`. That the polarity persists
to an ordinary send is OrdinarySendInherits. -/
def Obligations.InheritedNinthBit : Prop :=
  ∀ (s : State) (h : Handle) (b mk x : Byte) (r : List Byte),
    (s.transport h).cfg.parity = muxMode (par8 b) (canon mk) → (s.transport h).txq = x :: r →
    (s.transport h).framed Config.p2 = true →
    ((s.drain Config.p2 h).transport h).wire =
      (s.transport h).wire ++ [⟨x, (par8 x ^^ par8 b) ^^ canon mk⟩]

/-- What the plumbing's opening and closing leave (R17, R20, R108; what becomes of queue and wire is the model's
choice, log 21): opening h with c makes `T[h].open` true and c the Config, closing makes `T[h].open` false; queue,
wire and, at a closing, the Config stay, and so do every other transport, every encoder and the record. -/
def Obligations.OpeningAndClosing : Prop :=
  (∀ (s : State) (h : Handle) (c : Cfg) (rest : List Event), s.sched = .connect h c :: rest →
    ∃ t, step s = .next t ∧ t.transport h = { s.transport h with isOpen := true, cfg := c } ∧
      SameTransportsBut h s t ∧ t.encs = s.encs ∧ t.caller = s.caller ∧ t.tport = s.tport ∧ t.rsp = none ∧
      t.trace = s.trace ∧ t.sched = rest ∧ t.draws = s.draws ∧ t.txqDepth = s.txqDepth) ∧
  (∀ (s : State) (h : Handle) (rest : List Event), s.sched = .disconnect h :: rest →
    ∃ t, step s = .next t ∧ t.transport h = { s.transport h with isOpen := false } ∧
      SameTransportsBut h s t ∧ t.encs = s.encs ∧ t.caller = s.caller ∧ t.tport = s.tport ∧ t.rsp = none ∧
      t.trace = s.trace ∧ t.sched = rest ∧ t.draws = s.draws ∧ t.txqDepth = s.txqDepth)

/-- Who opens and closes (R17, R96, R108): in any step an open Handle stops being open only by a closing of that
Handle, whatever the block, the drain agents and the other users do; and a Handle that is not open becomes open
only by an opening of it, or by a command on it while it is not open, after which `T[h]` may have any value
(U3; log 4). -/
def Obligations.OpenChangesOnlyBy : Prop :=
  ∀ (s t : State) (h : Handle), step s = .next t →
    ((s.transport h).isOpen = true → (t.transport h).isOpen = false →
      ∃ rest, s.sched = .disconnect h :: rest) ∧
    ((s.transport h).isOpen = false → (t.transport h).isOpen = true →
      (∃ c rest, s.sched = .connect h c :: rest) ∨
      (∃ k w o rest, s.sched = .answer k w o :: rest ∧ (s.encoder k).tHandle = some h) ∨
      (∃ w o a rest, s.sched = .command w h o a :: rest) ∨ (∃ c rest, s.sched = .flush h c :: rest) ∨
      (∃ k w rest, s.sched = .reset k (some w) :: rest ∧ (s.encoder k).tHandle = some h))

/-! ### The machine -/

/-- The types of a Handle and of an opaque part are arguments of the model, and the machine only copies their values
(R5, D8, U12): take any two choices of types, any way f to rename Handles that keeps their order (which the
machine uses to list transports, log 1, and to pick a queue when no event is left, log 8) and any one-to-one way g
to rename opaque parts that keeps the default and what P2 reads. A step that draws no free value commutes with the
renaming, and so does a refusal. At `Handle` and `Opaque` this machine is `step`. -/
def Obligations.ArgumentsOnlyCopied : Prop :=
  (∀ s : State, step s = runStep execAt Config.p2 s) ∧
  ∀ (H H' O O' : Type) [LinearOrder H] [LinearOrder H'] [DecidableEq O] [DecidableEq O'] [Inhabited O]
    [Inhabited O'] (p2 : O → Bool) (p2' : O' → Bool) (f : H → H') (g : O → O') (s : State H O),
    StrictMono f → Function.Injective g → g default = default → (∀ o, p2' (g o) = p2 o) →
    (∀ t, runStep execAt p2 s = .next t → t.draws = s.draws →
      runStep execAt p2' (s.rename f g) = .next (t.rename f g)) ∧
    (∀ r, runStep execAt p2 s = .refused r → runStep execAt p2' (s.rename f g) = .refused r)

/-- A step runs the decoded instruction: when the next event is not held and carries a word that decodes to i, the
step is exec of i in the state with the event taken, the last response withdrawn and the event's input signals
on the interface. -/
def Obligations.StepRunsDecoded : Prop :=
  ∀ (s : State) (e : Event) (rest : List Event) (iw : IfWord) (nbits n : Nat) (i : Instr),
    s.sched = e :: rest → s.blockedOn e = none → s.fetchWord e = some iw →
    wordOfTable nbits n = some iw → decodeTableWord nbits n = some i →
    step s = exec i ((s.take rest).load e)

/-- A held event waits, and what a step then does is one frame emission of the Handle it waits for, all events
kept (that the step drains is log 9). The events held are exactly, on a Handle that is open, the Ok answers to a
SETCFG with a Byte queued and the Ok(1) answers to a WRITE with the queue full (log 18): to the block's own, to
another user's after-drain change or WRITE, or to the one in flight at a reset. The last is the model's choice: R140
lets a reset occur at any time, and whether the command in flight takes effect is open (R141); a reset event that
says it does, waits until it can (log 12). -/
def Obligations.HeldEventWaits : Prop :=
  (∀ (s : State) (e : Event) (rest : List Event) (h : Handle), s.sched = e :: rest →
    s.blockedOn e = some h →
    step s = .next (s.quiet.drain Config.p2 h) ∧ (s.quiet.drain Config.p2 h).sched = e :: rest ∧
    ((s.transport h).txq ≠ [] ∨ s.txqDepth = some 0)) ∧
  (∀ (s : State) (e : Event) (h : Handle), s.blockedOn e = some h ↔
    (s.transport h).isOpen = true ∧
    (((s.transport h).txq ≠ [] ∧
      ((∃ k w o l c, e = .answer k w o ∧ s.encoder k = .ap l c ∧ l.h = h ∧ ansErr w = false) ∨
       (∃ w o a p, e = .command w h o a ∧ decodeT w = .ok (.setcfg p) ∧ ansErr a = false) ∨
       (∃ k w l c, e = .reset k (some w) ∧ s.encoder k = .ap l c ∧ l.h = h ∧ ansErr w = false))) ∨
     ((s.transport h).full s.txqDepth = true ∧
      ((∃ k w o l c, e = .answer k w o ∧ s.encoder k = .wr l c ∧ l.h = h ∧ ansErr w = false ∧
          ansCount w = true) ∨
       (∃ w o a d, e = .command w h o a ∧ decodeT w = .ok (.write d) ∧ ansErr a = false ∧
          ansCount a = true) ∨
       (∃ k w l c, e = .reset k (some w) ∧ s.encoder k = .wr l c ∧ l.h = h ∧ ansErr w = false ∧
          ansCount w = true)))))

/-- No instruction stops the machine, in any state and for any operands: every error is a response (R90, R120), a
hold is a wait, a free value is a value. On a Handle that is not open this is the model's choice, not these rules:
R134 says a model should refuse to conclude anything, U3 to refuse or to take a total form with any value, and the
model takes the total form (log 4). The input signals, the events to come and `TXQ_DEPTH` are left alone. -/
def Obligations.ExecNeverStops : Prop :=
  ∀ (i : Instr) (s : State), ∃ t, exec i s = .next t ∧ SameInputs s t

/-- A step stops only on another user's command word that has no meaning (`cmd = 0` or an unused bit set), which is
refused by name (R61, U9); never with a fault. That a command on a Handle that is not open does not stop it is the
total form of U3 (log 4), and that a reset with an operation in flight does not is log 12 (U13). -/
def Obligations.StepStopsOnlyOnIllegalWord : Prop :=
  ∀ s : State,
    (∃ t, step s = .next t) ∨
    (∃ w h o a rest, s.sched = .command w h o a :: rest ∧
      (decodeT w = .error .cmdZero ∨ decodeT w = .error .unusedBits) ∧
      step s = .refused (.illegalCommandWord w))

/-- The invariant: every step keeps the tables in canonical form, no queue longer than `TXQ_DEPTH` (R18; at a full
queue an answer Ok(1) is late, log 18, and a queue left open by U3 is any queue of that length, log 4), and
never puts an illegal word on an interface, so the response words 0b011, 0b101 and 0b111 never occur (R52) and no
command outside table 5.1 is issued (R61). And no step changes `TXQ_DEPTH`, a parameter (R5). -/
def Obligations.InvariantKept : Prop :=
  ∀ s t : State, s.inv = true → step s = .next t → t.inv = true ∧ t.txqDepth = s.txqDepth

/-- The state after reset meets the invariant, for every `TXQ_DEPTH`; `State.reset` is the one without a bound. -/
def Obligations.ResetMeetsInvariant : Prop :=
  (∀ (h0 : Handle) (depth : Option Nat), (State.resetAt h0 depth : State).inv = true ∧
    (State.resetAt h0 depth : State).txqDepth = depth) ∧
  State.reset = State.resetAt 0 none

/-- The order of commands and responses (R37, R38, R96, R125), kept by every step: of each instance the record shows
GETCFG, SETCFG, WRITE in this order on one Handle, each at most once per operation, and the one response that
belongs to where the operation ended. -/
def Obligations.RecordInOrder : Prop :=
  ∀ (s t : State) (k : EncId), s.traceFollows k = true → step s = .next t → t.traceFollows k = true

/-- The state after reset has every instance's record in order. -/
def Obligations.ResetRecordInOrder : Prop :=
  ∀ k : EncId, State.reset.traceFollows k = true

/-- After reset every instance is IDLE with latches without value, presents no command and is ready for a request,
and no response is pending (R22). -/
def Obligations.ResetState : Prop :=
  (∀ k : EncId, (State.reset.encoder k).phase = .IDLE ∧ (State.reset.encoder k).latches = none ∧
    (State.reset.encoder k).latC = none ∧ (State.reset.encoder k).cmdWord = none ∧
    (State.reset.encoder k).reqReady = true) ∧
  State.reset.rsp = none ∧ State.reset.trace = []

/-- Reset as an event (R140): from any state it puts the instance in IDLE, issues no command, delivers no response
and, when no command in flight takes effect, changes no transport; a command in flight that does take effect
touches only its own Handle (R141; log 12). -/
def Obligations.ResetEvent : Prop :=
  (∀ (s : State) (k : EncId) (rest : List Event), s.sched = .reset k none :: rest →
    ∃ t, step s = .next t ∧ t.encoder k = .idle ∧ SameEncodersBut k s t ∧ t.trans = s.trans ∧
      t.rsp = none ∧ t.trace = s.trace ++ [.reset k] ∧ t.sched = rest ∧ t.txqDepth = s.txqDepth) ∧
  (∀ (s : State) (k : EncId) (w : BitVec 3) (rest : List Event), s.sched = .reset k (some w) :: rest →
    s.blockedOn (.reset k (some w)) = none →
    ∃ t, step s = .next t ∧ t.encoder k = .idle ∧ SameEncodersBut k s t ∧
      (∀ h, (s.encoder k).tHandle ≠ some h → t.transport h = s.transport h) ∧
      t.rsp = none ∧ t.trace = s.trace ++ [.reset k] ∧ t.sched = rest ∧ t.txqDepth = s.txqDepth)
end

