-- ==== Sys2Proof/Laws/Decode.lean ====
section
/-! SUPPORT. The field records and the words agree: packing then unpacking gives the fields back, and every
instruction's fields pass the checks. -/

namespace Sys2Proof

theorem tWord_getLsbD (f : TFields) (i : Nat) :
    f.word.getLsbD i = if i < 8 then f.wdata.getLsbD i
      else if i = 8 then f.par else if i = 9 then f.timing else f.cmd.getLsbD (i - 10) := by
  change BitVec.getLsbD (w := 2 + 1 + 1 + 8)
    (f.cmd ++ BitVec.ofBool f.timing ++ BitVec.ofBool f.par ++ f.wdata) i = _
  simp only [BitVec.getLsbD_append, BitVec.getLsbD_ofBool]
  by_cases h8 : i < 8
  · simp [h8]
  · by_cases e8 : i = 8
    · simp [e8]
    · by_cases e9 : i = 9
      · simp [e9]
      · have h1 : ¬ i - 8 < 1 := by omega
        have h2 : ¬ i - 8 - 1 < 1 := by omega
        have h3 : i - 8 - 1 - 1 = i - 10 := by omega
        simp [h8, e8, e9, h1, h2, h3]

theorem tFields_ofWord_word (f : TFields) : TFields.ofWord f.word = f := by
  obtain ⟨c, t, p, d⟩ := f
  simp only [TFields.ofWord, TFields.mk.injEq]
  refine ⟨?_, ?_, ?_, ?_⟩
  · apply BitVec.eq_of_getLsbD_eq
    intro i hi
    have h1 : ¬ 10 + i < 8 := by omega
    have h2 : ¬ 10 + i = 8 := by omega
    have h3 : ¬ 10 + i = 9 := by omega
    simp [tWord_getLsbD, hi, h1, h2, h3]
  · rw [tWord_getLsbD]; simp
  · rw [tWord_getLsbD]; simp
  · apply BitVec.eq_of_getLsbD_eq
    intro i hi
    simp [tWord_getLsbD, hi]

theorem qWord_getLsbD (f : QFields) (i : Nat) :
    f.word.getLsbD i = if i < 8 then f.b.getLsbD i
      else if i < 16 then f.marker.getLsbD (i - 8) else (i == 16 && f.op) := by
  change BitVec.getLsbD (w := 1 + 8 + 8) (BitVec.ofBool f.op ++ f.marker ++ f.b) i = _
  simp only [BitVec.getLsbD_append, BitVec.getLsbD_ofBool]
  by_cases h8 : i < 8
  · simp [h8]
  · by_cases h16 : i < 16
    · have h1 : i - 8 < 8 := by omega
      simp [h8, h16, h1]
    · have h1 : ¬ i - 8 < 8 := by omega
      by_cases e : i = 16
      · simp [e]
      · have h2 : ¬ i - 8 - 8 = 0 := by omega
        simp [h8, h16, h1, e, h2]

theorem qFields_ofWord_word (f : QFields) : QFields.ofWord f.word = f := by
  obtain ⟨o, m, b⟩ := f
  simp only [QFields.ofWord, QFields.mk.injEq]
  refine ⟨?_, ?_, ?_⟩
  · rw [qWord_getLsbD]; simp
  · apply BitVec.eq_of_getLsbD_eq
    intro i hi
    have h1 : 8 + i < 16 := by omega
    simp [qWord_getLsbD, hi, h1]
  · apply BitVec.eq_of_getLsbD_eq
    intro i hi
    simp [qWord_getLsbD, hi]

/-- `rejects` names no check exactly when the word is well-formed. -/
theorem rejects_eq_none_iff (f : TFields) : f.rejects = none ↔ f.wf = true := by
  cases h1 : f.cmdOk <;> cases h2 : f.unusedOk <;> cases h3 : f.timingOk <;>
    simp [TFields.rejects, TFields.wf, h1, h2, h3]

end Sys2Proof
end

