-- ==== Sys2Proof/Laws/Table.lean ====
section
/-! SUPPORT. The laws of a table: a read after a write, and the canonical form kept by every write. -/

namespace Sys2Proof.Machine

variable {κ α : Type}

theorem tableGet_drop_other [DecidableEq κ] (d : α) (m : List (κ × α)) {j k : κ} (h : j ≠ k) :
    tableGet d (tableDrop m k) j = tableGet d m j := by
  induction m with
  | nil => rfl
  | cons e rest ih =>
    obtain ⟨i, v⟩ := e
    by_cases hik : i = k
    · subst hik
      simpa [tableDrop, tableGet, h] using ih
    · have : tableDrop ((i, v) :: rest) k = (i, v) :: tableDrop rest k := by simp [tableDrop, hik]
      simp [this, tableGet, ih]

theorem tableGet_drop_same [DecidableEq κ] (d : α) (m : List (κ × α)) (k : κ) :
    tableGet d (tableDrop m k) k = d := by
  induction m with
  | nil => rfl
  | cons e rest ih =>
    obtain ⟨i, v⟩ := e
    by_cases hik : i = k
    · subst hik
      simpa [tableDrop] using ih
    · have : tableDrop ((i, v) :: rest) k = (i, v) :: tableDrop rest k := by simp [tableDrop, hik]
      simp [this, tableGet, ih, Ne.symm hik]

/-- A read of the key just written. -/
@[simp] theorem tableGet_put_same [LinearOrder κ] [DecidableEq α] (d : α) (m : List (κ × α)) (k : κ) (v : α) :
    tableGet d (tablePut d m k v) k = v := by
  induction m with
  | nil => by_cases hv : v = d <;> simp [tablePut, tableGet, hv]
  | cons e rest ih =>
    obtain ⟨i, w⟩ := e
    by_cases hlt : k < i
    · by_cases hv : v = d
      · simp [tablePut, hlt, hv, tableGet, ne_of_lt hlt, tableGet_drop_same]
      · simp [tablePut, hlt, hv, tableGet]
    · by_cases hik : k = i
      · by_cases hv : v = d <;> simp [tablePut, hik, hv, tableGet, tableGet_drop_same]
      · simp [tablePut, hlt, hik, tableGet, ih]

/-- A read of another key. -/
@[simp] theorem tableGet_put_other [LinearOrder κ] [DecidableEq α] (d : α) (m : List (κ × α)) {j k : κ} (v : α)
    (h : j ≠ k) : tableGet d (tablePut d m k v) j = tableGet d m j := by
  induction m with
  | nil => by_cases hv : v = d <;> simp [tablePut, tableGet, hv, h]
  | cons e rest ih =>
    obtain ⟨i, w⟩ := e
    by_cases hlt : k < i
    · by_cases hv : v = d <;> simp [tablePut, hlt, hv, tableGet, tableGet_drop_other d rest h, h]
    · by_cases hik : k = i
      · subst hik
        by_cases hv : v = d <;> simp [tablePut, hv, tableGet, tableGet_drop_other d rest h, h]
      · simp [tablePut, hlt, hik, tableGet, ih]

theorem tableWf_cons [LinearOrder κ] [DecidableEq α] (d : α) (j : κ) (v : α) (rest : List (κ × α)) :
    tableWf d ((j, v) :: rest) = true ↔ v ≠ d ∧ (∀ e ∈ rest, j < e.1) ∧ tableWf d rest = true := by
  simp [tableWf, and_assoc]

/-- Dropping a key keeps the canonical form. -/
theorem tableWf_drop [LinearOrder κ] [DecidableEq α] (d : α) (m : List (κ × α)) (k : κ)
    (h : tableWf d m = true) : tableWf d (tableDrop m k) = true := by
  induction m with
  | nil => rfl
  | cons e rest ih =>
    obtain ⟨i, v⟩ := e
    obtain ⟨hv, hall, hrest⟩ := (tableWf_cons d i v rest).1 h
    by_cases hik : i = k
    · simpa [tableDrop, hik] using ih hrest
    · have : tableDrop ((i, v) :: rest) k = (i, v) :: tableDrop rest k := by simp [tableDrop, hik]
      rw [this, tableWf_cons]
      exact ⟨hv, fun e he => hall e (List.mem_filter.1 he).1, ih hrest⟩

/-- The entries a write leaves in a table were there before, or are the one written. -/
theorem mem_tablePut [LinearOrder κ] [DecidableEq α] (d : α) (m : List (κ × α)) (k : κ) (v : α) :
    ∀ e ∈ tablePut d m k v, e ∈ m ∨ e = (k, v) := by
  induction m with
  | nil => intro e; by_cases hv : v = d <;> simp [tablePut, hv]
  | cons x rest ih =>
    obtain ⟨i, w⟩ := x
    intro e he
    by_cases hlt : k < i
    · by_cases hv : v = d
      · simp only [tablePut, hlt, hv, if_true, List.mem_cons] at he
        rcases he with rfl | he
        · simp
        · exact .inl (List.mem_cons_of_mem _ (List.mem_filter.1 he).1)
      · simp only [tablePut, hlt, hv, if_true, if_false, List.mem_cons] at he
        rcases he with rfl | rfl | he <;> simp [*]
    · by_cases hik : k = i
      · by_cases hv : v = d
        · simp only [tablePut, hik, hv, if_true, lt_irrefl, if_false] at he
          exact .inl (List.mem_cons_of_mem _ (List.mem_filter.1 he).1)
        · simp only [tablePut, hik, hv, if_true, if_false, List.mem_cons, lt_irrefl] at he
          rcases he with rfl | he <;> simp [*]
      · simp only [tablePut, hlt, hik, if_false, List.mem_cons] at he
        rcases he with rfl | he
        · simp
        · rcases ih e he with h | h
          · exact .inl (List.mem_cons_of_mem _ h)
          · exact .inr h

/-- What holds of every record of a table and of the record written holds after the write. -/
theorem tablePut_all [LinearOrder κ] [DecidableEq α] {P : α → Prop} {d : α} {m : List (κ × α)} {k : κ} {v : α}
    (h : ∀ e ∈ m, P e.2) (hv : P v) : ∀ e ∈ tablePut d m k v, P e.2 := by
  intro e he
  rcases mem_tablePut d m k v e he with h' | rfl
  · exact h e h'
  · exact hv

/-- A write keeps the canonical form. -/
theorem tableWf_put [LinearOrder κ] [DecidableEq α] (d : α) (m : List (κ × α)) (k : κ) (v : α)
    (h : tableWf d m = true) : tableWf d (tablePut d m k v) = true := by
  induction m with
  | nil => by_cases hv : v = d <;> simp [tablePut, tableWf, hv]
  | cons x rest ih =>
    obtain ⟨i, w⟩ := x
    obtain ⟨hw, hall, hrest⟩ := (tableWf_cons d i w rest).1 h
    by_cases hlt : k < i
    · by_cases hv : v = d
      · simp only [tablePut, hlt, hv, if_true, tableWf_cons]
        exact ⟨hw, fun e he => hall e (List.mem_filter.1 he).1, tableWf_drop d rest k hrest⟩
      · simp only [tablePut, hlt, hv, if_true, if_false, tableWf_cons]
        refine ⟨hv, ?_, hw, hall, hrest⟩
        rintro e (_ | ⟨_, he⟩)
        · exact hlt
        · exact hlt.trans (hall e he)
    · by_cases hik : k = i
      · subst hik
        by_cases hv : v = d
        · simpa [tablePut, hv] using tableWf_drop d rest k hrest
        · simp only [tablePut, hv, if_true, if_false, lt_irrefl, tableWf_cons]
          exact ⟨hv, hall, hrest⟩
      · simp only [tablePut, hlt, hik, if_false, tableWf_cons]
        refine ⟨hw, fun e he => ?_, ih hrest⟩
        rcases mem_tablePut d rest k v e he with h' | h'
        · exact hall e h'
        · subst h'; exact (not_lt.1 hlt).lt_of_ne (Ne.symm hik)

end Sys2Proof.Machine
end

