-- ==== Sys2Proof/Laws/State.lean ====
section
/-! SUPPORT. One lemma per field per update of the state, so that no later proof unfolds a record update.
Over any types of Handle and opaque part, sorted by what an update asks of them. -/

namespace Sys2Proof.Machine

variable {H O : Type} (s : State H O) (k k' : EncId) (h h' : H) (e : Encoder H O) (t : Transport O) (r : Response)
  (x : Status)

/-! ### drawn, respond: any types -/

@[simp] theorem encoder_drawn : s.drawn.encoder k = s.encoder k := rfl
@[simp] theorem drawn_encs : s.drawn.encs = s.encs := rfl
@[simp] theorem drawn_trans : s.drawn.trans = s.trans := rfl
@[simp] theorem drawn_caller : s.drawn.caller = s.caller := rfl
@[simp] theorem drawn_tport : s.drawn.tport = s.tport := rfl
@[simp] theorem drawn_rsp : s.drawn.rsp = s.rsp := rfl
@[simp] theorem drawn_trace : s.drawn.trace = s.trace := rfl
@[simp] theorem drawn_sched : s.drawn.sched = s.sched := rfl
@[simp] theorem drawn_draws : s.drawn.draws = s.draws + 1 := rfl
@[simp] theorem drawn_txqDepth : s.drawn.txqDepth = s.txqDepth := rfl
@[simp] theorem encoder_respond : (s.respond k r).encoder k' = s.encoder k' := rfl
@[simp] theorem respond_encs : (s.respond k r).encs = s.encs := rfl
@[simp] theorem respond_trans : (s.respond k r).trans = s.trans := rfl
@[simp] theorem respond_caller : (s.respond k r).caller = s.caller := rfl
@[simp] theorem respond_tport : (s.respond k r).tport = s.tport := rfl
@[simp] theorem respond_rsp : (s.respond k r).rsp = some (k, responseWord r) := rfl

@[simp] theorem respond_trace :
    (s.respond k r).trace = s.trace ++ [.response k (responseWord r)] := rfl
@[simp] theorem respond_sched : (s.respond k r).sched = s.sched := rfl
@[simp] theorem respond_draws : (s.respond k r).draws = s.draws := rfl
@[simp] theorem respond_txqDepth : (s.respond k r).txqDepth = s.txqDepth := rfl

/-! ### full, fits, capped: the capacity of the queue -/

theorem full_iff (depth : Option Nat) :
    t.full depth = true ↔ ∃ n, depth = some n ∧ n ≤ t.txq.length := by
  cases depth <;> simp [Transport.full]

theorem fits_iff (depth : Option Nat) :
    t.fits depth = true ↔ ∀ n, depth = some n → t.txq.length ≤ n := by
  cases depth <;> simp [Transport.fits]

theorem capped_fits (depth : Option Nat) (q : List Byte) :
    ({ t with txq := capped depth q } : Transport O).fits depth = true := by
  cases depth <;> simp [Transport.fits, capped]

/-- A queue with room still fits when a Byte is appended. -/
theorem append_fits (depth : Option Nat) (b : Byte) (h : t.full depth = false) :
    ({ t with txq := t.txq ++ [b] } : Transport O).fits depth = true := by
  cases depth <;> simp_all [Transport.fits, Transport.full]

/-! ### setEncoder, enter, finish, raiseError: an equality on Handles and opaque parts -/

section Moving
variable [DecidableEq H] [DecidableEq O]

@[simp] theorem encoder_setEncoder : (s.setEncoder k e).encoder k = e := by
  simp [State.encoder, State.setEncoder]

@[simp] theorem encoder_setEncoder_other (hk : k' ≠ k) :
    (s.setEncoder k e).encoder k' = s.encoder k' := by
  simp [State.encoder, State.setEncoder, hk]
@[simp] theorem setEncoder_trans : (s.setEncoder k e).trans = s.trans := rfl
@[simp] theorem setEncoder_caller : (s.setEncoder k e).caller = s.caller := rfl
@[simp] theorem setEncoder_tport : (s.setEncoder k e).tport = s.tport := rfl
@[simp] theorem setEncoder_rsp : (s.setEncoder k e).rsp = s.rsp := rfl
@[simp] theorem setEncoder_trace : (s.setEncoder k e).trace = s.trace := rfl
@[simp] theorem setEncoder_sched : (s.setEncoder k e).sched = s.sched := rfl
@[simp] theorem setEncoder_draws : (s.setEncoder k e).draws = s.draws := rfl
@[simp] theorem setEncoder_txqDepth : (s.setEncoder k e).txqDepth = s.txqDepth := rfl
@[simp] theorem encoder_enter : (s.enter k e).encoder k = e := encoder_setEncoder s k e

@[simp] theorem encoder_enter_other (hk : k' ≠ k) : (s.enter k e).encoder k' = s.encoder k' :=
  encoder_setEncoder_other s k k' e hk
@[simp] theorem enter_encs : (s.enter k e).encs = (s.setEncoder k e).encs := rfl
@[simp] theorem enter_trans : (s.enter k e).trans = s.trans := rfl
@[simp] theorem enter_caller : (s.enter k e).caller = s.caller := rfl
@[simp] theorem enter_tport : (s.enter k e).tport = s.tport := rfl
@[simp] theorem enter_rsp : (s.enter k e).rsp = s.rsp := rfl
@[simp] theorem enter_trace : (s.enter k e).trace = s.trace ++ e.issued k := rfl
@[simp] theorem enter_sched : (s.enter k e).sched = s.sched := rfl
@[simp] theorem enter_draws : (s.enter k e).draws = s.draws := rfl
@[simp] theorem enter_txqDepth : (s.enter k e).txqDepth = s.txqDepth := rfl
@[simp] theorem encoder_finish : (s.finish k r).encoder k = .idle := encoder_setEncoder s k .idle

@[simp] theorem encoder_finish_other (hk : k' ≠ k) : (s.finish k r).encoder k' = s.encoder k' :=
  encoder_setEncoder_other s k k' .idle hk
@[simp] theorem finish_encs : (s.finish k r).encs = (s.setEncoder k .idle).encs := rfl
@[simp] theorem finish_trans : (s.finish k r).trans = s.trans := rfl
@[simp] theorem finish_caller : (s.finish k r).caller = s.caller := rfl
@[simp] theorem finish_tport : (s.finish k r).tport = s.tport := rfl
@[simp] theorem finish_rsp : (s.finish k r).rsp = some (k, responseWord r) := rfl

@[simp] theorem finish_trace :
    (s.finish k r).trace = s.trace ++ [.response k (responseWord r)] := rfl
@[simp] theorem finish_sched : (s.finish k r).sched = s.sched := rfl
@[simp] theorem finish_draws : (s.finish k r).draws = s.draws := rfl
@[simp] theorem finish_txqDepth : (s.finish k r).txqDepth = s.txqDepth := rfl
@[simp] theorem raiseError_eq : s.raiseError k x = s.finish k ⟨x, false⟩ := rfl

end Moving

/-! ### Reading a transport: a default opaque part beside it -/

section Reading
variable [DecidableEq H] [Inhabited O]

@[simp] theorem transport_drawn : s.drawn.transport h = s.transport h := rfl
@[simp] theorem transport_respond : (s.respond k r).transport h = s.transport h := rfl

variable [DecidableEq O]

@[simp] theorem transport_setEncoder : (s.setEncoder k e).transport h = s.transport h := rfl
@[simp] theorem transport_enter : (s.enter k e).transport h = s.transport h := rfl
@[simp] theorem transport_finish : (s.finish k r).transport h = s.transport h := rfl

end Reading

/-! ### setTransport: an order on Handles -/

variable [LinearOrder H] [DecidableEq O] [Inhabited O]

@[simp] theorem transport_setTransport : (s.setTransport h t).transport h = t := by
  simp [State.transport, State.setTransport]

@[simp] theorem transport_setTransport_other (hh : h' ≠ h) :
    (s.setTransport h t).transport h' = s.transport h' := by
  simp [State.transport, State.setTransport, hh]
@[simp] theorem encoder_setTransport : (s.setTransport h t).encoder k = s.encoder k := rfl
@[simp] theorem setTransport_encs : (s.setTransport h t).encs = s.encs := rfl
@[simp] theorem setTransport_caller : (s.setTransport h t).caller = s.caller := rfl
@[simp] theorem setTransport_tport : (s.setTransport h t).tport = s.tport := rfl
@[simp] theorem setTransport_rsp : (s.setTransport h t).rsp = s.rsp := rfl
@[simp] theorem setTransport_trace : (s.setTransport h t).trace = s.trace := rfl
@[simp] theorem setTransport_sched : (s.setTransport h t).sched = s.sched := rfl
@[simp] theorem setTransport_draws : (s.setTransport h t).draws = s.draws := rfl
@[simp] theorem setTransport_txqDepth : (s.setTransport h t).txqDepth = s.txqDepth := rfl

end Sys2Proof.Machine
end

