-- ==== Sys2Proof/Laws/Ops.lean ====
section
/-! SUPPORT. For each shared operation, once, everything it can do: which record it touches, what it leaves alone,
and that it keeps the canonical form. -/

namespace Sys2Proof.Machine

variable {H O : Type} [LinearOrder H] [DecidableEq O] [Inhabited O]

/-- t differs from s in `T[h]` and the draw counter at most, nothing has left the wire of h, and the table of
transports keeps its canonical form. -/
structure TouchesOnly (h : H) (s t : State H O) : Prop where
  encs : t.encs = s.encs
  caller : t.caller = s.caller
  tport : t.tport = s.tport
  rsp : t.rsp = s.rsp
  trace : t.trace = s.trace
  sched : t.sched = s.sched
  txqDepth : t.txqDepth = s.txqDepth
  other : ∀ h', h' ≠ h → t.transport h' = s.transport h'
  wire : (s.transport h).wire <+: (t.transport h).wire
  wf : tableWf Transport.absent s.trans = true → tableWf Transport.absent t.trans = true

theorem TouchesOnly.refl (h : H) (s : State H O) : TouchesOnly h s s :=
  ⟨rfl, rfl, rfl, rfl, rfl, rfl, rfl, fun _ _ => rfl, List.prefix_rfl, id⟩

theorem TouchesOnly.encoder {h : H} {s t : State H O} (e : TouchesOnly h s t) (k : EncId) :
    t.encoder k = s.encoder k := by
  simp [State.encoder, e.encs]

/-- Writing `T[h]` with a record whose wire extends the old one. -/
theorem touchesOnly_setTransport (s : State H O) (h : H) (r : Transport O)
    (hw : (s.transport h).wire <+: r.wire) : TouchesOnly h s (s.setTransport h r) :=
  ⟨rfl, rfl, rfl, rfl, rfl, rfl, rfl, fun h' hh => transport_setTransport_other s h h' r hh,
    by simpa using hw, fun w => tableWf_put _ _ _ _ w⟩

theorem TouchesOnly.drawn {h : H} {s t : State H O} (e : TouchesOnly h s t) : TouchesOnly h s t.drawn :=
  ⟨e.encs, e.caller, e.tport, e.rsp, e.trace, e.sched, e.txqDepth, e.other, e.wire, e.wf⟩

theorem closedEffect_touches (s : State H O) (h : H) : TouchesOnly h s (s.closedEffect h) :=
  (touchesOnly_setTransport s h _ (List.prefix_append _ _)).drawn

theorem getEffect_touches (s : State H O) (h : H) : TouchesOnly h s (s.getEffect h) := by
  unfold State.getEffect
  split
  · exact .refl h s
  · exact closedEffect_touches s h

theorem setEffect_touches (s : State H O) (h : H) (c : Cfg O) : TouchesOnly h s (s.setEffect h c) := by
  unfold State.setEffect
  split
  · split
    · exact (touchesOnly_setTransport s h { s.transport h with cfg := Config.drawCfg s.draws }
        List.prefix_rfl).drawn
    · exact touchesOnly_setTransport s h _ List.prefix_rfl
  · exact closedEffect_touches s h

theorem writeEffect_touches (s : State H O) (h : H) (b : Byte) : TouchesOnly h s (s.writeEffect h b) := by
  unfold State.writeEffect
  split
  · split
    · exact touchesOnly_setTransport s h _ List.prefix_rfl
    · exact .refl h s
  · exact closedEffect_touches s h

theorem drain_touches (p2 : O → Bool) (s : State H O) (h : H) : TouchesOnly h s (s.drain p2 h) := by
  unfold State.drain
  split
  · exact .refl h s
  · split
    · exact touchesOnly_setTransport s h _ (List.prefix_append _ _)
    · exact (touchesOnly_setTransport s h _ (List.prefix_append _ _)).drawn

theorem flushNow_touches (s : State H O) (h : H) (c : Cfg O) : TouchesOnly h s (s.flushNow h c) := by
  unfold State.flushNow
  split
  · exact touchesOnly_setTransport s h _ List.prefix_rfl
  · exact closedEffect_touches s h

theorem connect_touches (s : State H O) (h : H) (c : Cfg O) : TouchesOnly h s (s.connect h c) :=
  touchesOnly_setTransport s h _ List.prefix_rfl

theorem disconnect_touches (s : State H O) (h : H) : TouchesOnly h s (s.disconnect h) :=
  touchesOnly_setTransport s h _ List.prefix_rfl

/-! ### The transport commands on an open Handle -/

section Open
variable {s : State H O} {h : H} (ho : (s.transport h).isOpen = true)
include ho

theorem getEffect_open : s.getEffect h = s := by simp [State.getEffect, ho]

theorem setEffect_ok (c : Cfg O) (ha : ansErr s.tport.ans = false) :
    s.setEffect h c = s.setTransport h { s.transport h with cfg := c } := by
  simp [State.setEffect, ho, ha]

theorem setEffect_err (c : Cfg O) (ha : ansErr s.tport.ans = true) :
    s.setEffect h c =
      (s.setTransport h { s.transport h with cfg := Config.drawCfg s.draws }).drawn := by
  simp [State.setEffect, ho, ha]

theorem writeEffect_one (b : Byte) (ha : ansErr s.tport.ans = false) (hc : ansCount s.tport.ans = true) :
    s.writeEffect h b = s.setTransport h { s.transport h with txq := (s.transport h).txq ++ [b] } := by
  simp [State.writeEffect, ho, ha, hc]

theorem writeEffect_none (b : Byte) (ha : (!ansErr s.tport.ans && ansCount s.tport.ans) = false) :
    s.writeEffect h b = s := by
  simp [State.writeEffect, ho, ha]

omit [DecidableEq O] in
theorem getAnswer_cfg (ha : ansErr s.tport.ans = false) :
    ansCfg (s.getAnswer h) (s.getOpaque h) = (s.transport h).cfg := by
  have : ∀ a : BitVec 3, ∀ p : Polarity, Polarity.ofBit (ansPar (withPar a p)) = p := by
    intro a p
    cases p <;> (revert a; decide)
  simp [State.getAnswer, State.getOpaque, ho, ha, ansCfg, this]

end Open

theorem ansErr_withPar (a : BitVec 3) (p : Polarity) : ansErr (withPar a p) = ansErr a := by
  cases p <;> (revert a; decide)

omit [DecidableEq O] in
/-- The answer's err bit reaches the block as the environment chose it, on any Handle. -/
@[simp] theorem ansErr_getAnswer (s : State H O) (h : H) :
    ansErr (s.getAnswer h) = ansErr s.tport.ans := by
  unfold State.getAnswer
  split
  · exact ansErr_withPar _ _
  · rfl

/-- A drain step on an empty queue is not enabled. -/
theorem drain_nil {p2 : O → Bool} {s : State H O} {h : H} (hq : (s.transport h).txq = []) : s.drain p2 h = s := by
  simp [State.drain, hq]

/-- Frame emission under premise P2 (R104). -/
theorem drain_cons {p2 : O → Bool} {s : State H O} {h : H} {x : Byte} {r : List Byte} (hq : (s.transport h).txq = x :: r)
    (hf : (s.transport h).framed p2 = true) :
    s.drain p2 h = s.setTransport h { s.transport h with
      txq := r
      wire := (s.transport h).wire ++ [⟨x, pgen (s.transport h).cfg.parity x⟩] } := by
  simp [State.drain, hq, hf]

/-- The Config and the open bit of a drained transport are unchanged, and its queue has lost its head. -/
theorem drain_transport (p2 : O → Bool) (s : State H O) (h : H) :
    ((s.drain p2 h).transport h).isOpen = (s.transport h).isOpen
      ∧ ((s.drain p2 h).transport h).cfg = (s.transport h).cfg
      ∧ ((s.drain p2 h).transport h).txq = (s.transport h).txq.tail := by
  unfold State.drain
  split
  · next hq => simp [hq]
  · next x r hq => split <;> simp [hq]

omit [DecidableEq O] in
/-- A SETCFG is held exactly when its answer is Ok, the Handle open and a Byte queued (R102). -/
theorem setHeld_iff (s : State H O) (h : H) (w : BitVec 3) :
    s.setHeld h w = true ↔ (s.transport h).isOpen = true ∧ ansErr w = false ∧ (s.transport h).txq ≠ [] := by
  simp [State.setHeld, and_assoc]

/-- Writing a transport that fits keeps a table of transports that fit. -/
theorem setTransport_fits (s : State H O) (h : H) (r : Transport O)
    (hs : ∀ e ∈ s.trans, e.2.fits s.txqDepth = true) (hr : r.fits s.txqDepth = true) :
    ∀ e ∈ (s.setTransport h r).trans, e.2.fits s.txqDepth = true :=
  tablePut_all (P := fun t : Transport O => t.fits s.txqDepth = true) hs hr

omit [DecidableEq O] in
/-- A WRITE is held exactly when its answer is Ok(1), the Handle open and the queue full (D17). -/
theorem writeHeld_iff (s : State H O) (h : H) (w : BitVec 3) :
    s.writeHeld h w = true ↔ (s.transport h).isOpen = true ∧ ansErr w = false ∧ ansCount w = true ∧
      (s.transport h).full s.txqDepth = true := by
  simp [State.writeHeld, and_assoc]

/-- The mode the multiplexer selects makes the generator produce the marker (R84, R105). -/
theorem pgen_muxMode (b : Byte) (m : Bool) : pgen (muxMode (par8 b) m) b = m := by
  cases hp : par8 b <;> cases m <;> simp [muxMode, pgen, hp]

theorem framesUnder_append (p : Polarity) (q r : List Byte) :
    framesUnder p (q ++ r) = framesUnder p q ++ framesUnder p r := by
  simp [framesUnder]

theorem framesUnder_cons (p : Polarity) (x : Byte) (q : List Byte) :
    framesUnder p (x :: q) = ⟨x, pgen p x⟩ :: framesUnder p q := rfl

@[simp] theorem framesUnder_nil (p : Polarity) : framesUnder p [] = [] := rfl

end Sys2Proof.Machine
end

