-- ==== Sys2Proof/Laws/Step.lean ====
section
/-! SUPPORT. Everything one step can do, said once: what each instruction answers by the phase it meets, what each
event runs, and the three kinds of step. -/

namespace Sys2Proof.Machine

/-! ### The signals -/

@[simp] theorem encoder_take (s : State) (rest : List Event) (k : EncId) :
    (s.take rest).encoder k = s.encoder k := rfl
@[simp] theorem transport_take (s : State) (rest : List Event) (h : Handle) :
    (s.take rest).transport h = s.transport h := rfl
@[simp] theorem encoder_quiet (s : State) (k : EncId) : s.quiet.encoder k = s.encoder k := rfl
@[simp] theorem transport_quiet (s : State) (h : Handle) : s.quiet.transport h = s.transport h := rfl
@[simp] theorem encoder_load (s : State) (e : Event) (k : EncId) : (s.load e).encoder k = s.encoder k := by
  cases e <;> rfl
@[simp] theorem transport_load (s : State) (e : Event) (h : Handle) :
    (s.load e).transport h = s.transport h := by
  cases e <;> rfl

/-- The word an encoder drives decodes to the command it has outstanding. -/
theorem decodeT_cmdWord {e : Encoder} {i : Instr} (h : e.command = some i) :
    ∃ w, e.cmdWord = some w ∧ decodeT w = .ok i := by
  have hw : ∀ (f : TFields) (j : Instr), f.rejects = none →
      (if f.cmd = 1#2 then Except.ok Instr.getcfg
        else if f.cmd = 2#2 then .ok (.setcfg (Polarity.ofBit f.par)) else .ok (.write f.wdata)) =
          (.ok j : Except Reject Instr) → decodeT f.word = .ok j := by
    intro f j hr hj
    simp only [decodeT, tFields_ofWord_word, hr]
    exact hj
  cases e with
  | idle => simp [Encoder.command] at h
  | rd l =>
    obtain rfl : Instr.getcfg = i := by simpa [Encoder.command] using h
    exact ⟨_, rfl, hw _ _ rfl rfl⟩
  | ap l c =>
    obtain rfl : Instr.setcfg (sendMode l) = i := by simpa [Encoder.command] using h
    refine ⟨_, rfl, hw _ _ ?_ ?_⟩
    · cases sendMode l <;> rfl
    · cases sendMode l <;> rfl
  | wr l c =>
    obtain rfl : Instr.write l.b = i := by simpa [Encoder.command] using h
    exact ⟨_, rfl, hw _ _ rfl rfl⟩

/-! ### What an event runs -/

theorem runEvent_request (s : State) (k : EncId) (w : BitVec 17) (h : Handle) :
    runEvent exec Config.p2 (.request k w h) s = exec (decodeQ w) { s with caller := ⟨k, h⟩ } := rfl

/-- An answer runs the command the instance has outstanding; with none outstanding nothing happens. -/
theorem runEvent_answer (s : State) (k : EncId) (w : BitVec 3) (o : Opaque) :
    runEvent exec Config.p2 (.answer k w o) s =
      match (s.encoder k).command with
      | none => .next s
      | some i => exec i { s with tport := ⟨some k, s.tport.handle, o, w⟩ } := by
  cases hc : (s.encoder k).command with
  | none =>
    have : (s.encoder k).cmdWord = none := by simp [Encoder.cmdWord, hc]
    simp [runEvent, State.fetchWord, this, State.agent]
  | some i =>
    obtain ⟨cw, h1, h2⟩ := decodeT_cmdWord hc
    simp [runEvent, State.fetchWord, h1, runWord, h2, State.load]

theorem runEvent_command (s : State) (w : BitVec 12) (h : Handle) (o : Opaque) (a : BitVec 3) :
    runEvent exec Config.p2 (.command w h o a) s =
      match decodeT w with
      | .ok i => exec i { s with tport := ⟨none, h, o, a⟩ }
      | .error r => ({ s with tport := ⟨none, h, o, a⟩ } : State).rejected w r := rfl

/-! ### What an instruction answers -/

theorem execPar8_cases (mk b : Byte) (s : State) :
    ((s.encoder s.caller.enc) = .idle ∧
      execPar8 mk b s = .next (s.respond s.caller.enc ⟨.ok, par8 b⟩)) ∨
    ((s.encoder s.caller.enc) ≠ .idle ∧ execPar8 mk b s = .next s) := by
  unfold execPar8
  cases s.encoder s.caller.enc <;> simp [Encoder.reqReady, Encoder.phase]

theorem execSend9_cases (mk b : Byte) (s : State) :
    ((s.encoder s.caller.enc) = .idle ∧
      execSend9 mk b s = .next (s.enter s.caller.enc (.rd ⟨s.caller.handle, b, canon mk⟩))) ∨
    ((s.encoder s.caller.enc) ≠ .idle ∧ execSend9 mk b s = .next s) := by
  unfold execSend9
  cases s.encoder s.caller.enc <;> simp [Encoder.reqReady, Encoder.phase]

/-- Everything an instruction can do: nothing; a request accepted by an idle instance; another user's command; the
transition of table 4.1 (R91) that the issuer's phase allows. -/
theorem exec_cases {i : Instr} {s t : State} (h : exec i s = .next t) :
    t = s ∨
    (∃ mk b, i = .par8 mk b ∧ s.encoder s.caller.enc = .idle ∧
      t = s.respond s.caller.enc ⟨.ok, par8 b⟩) ∨
    (∃ mk b, i = .send9 mk b ∧ s.encoder s.caller.enc = .idle ∧
      t = s.enter s.caller.enc (.rd ⟨s.caller.handle, b, canon mk⟩)) ∨
    (s.tport.issuer = none ∧
      ((i = .getcfg ∧ t = s.getEffect s.tport.handle) ∨
       (∃ p, i = .setcfg p ∧ s.setHeld s.tport.handle s.tport.ans = false ∧
          t = s.setEffect s.tport.handle ⟨s.tport.opq, p⟩) ∨
       (∃ d, i = .write d ∧ s.writeHeld s.tport.handle s.tport.ans = false ∧
          t = s.writeEffect s.tport.handle d))) ∨
    (∃ k l, s.tport.issuer = some k ∧ s.encoder k = .rd l ∧ i = .getcfg ∧
      ((ansErr s.tport.ans = true ∧ t = (s.getEffect l.h).finish k ⟨.configReadError, false⟩) ∨
       (ansErr s.tport.ans = false ∧
          t = (s.getEffect l.h).enter k (.ap l (ansCfg (s.getAnswer l.h) (s.getOpaque l.h)))))) ∨
    (∃ k l c, s.tport.issuer = some k ∧ s.encoder k = .ap l c ∧ i = .setcfg (sendMode l) ∧
      s.setHeld l.h s.tport.ans = false ∧
      ((ansErr s.tport.ans = true ∧
          t = (s.setEffect l.h ⟨c.opq, sendMode l⟩).finish k ⟨.configApplyError, false⟩) ∨
       (ansErr s.tport.ans = false ∧ t = (s.setEffect l.h ⟨c.opq, sendMode l⟩).enter k (.wr l c)))) ∨
    (∃ k l c, s.tport.issuer = some k ∧ s.encoder k = .wr l c ∧ i = .write l.b ∧
      s.writeHeld l.h s.tport.ans = false ∧
      ((ansErr s.tport.ans = true ∧ t = (s.writeEffect l.h l.b).finish k ⟨.writeError, false⟩) ∨
       (ansErr s.tport.ans = false ∧
          t = (s.writeEffect l.h l.b).finish k ⟨.ok, ansCount s.tport.ans⟩))) := by
  cases i with
  | par8 mk b =>
    rcases execPar8_cases mk b s with ⟨hi, e⟩ | ⟨_, e⟩ <;> rw [exec, e, Host.Outcome.next.injEq] at h
    · exact .inr (.inl ⟨mk, b, rfl, hi, h.symm⟩)
    · exact .inl h.symm
  | send9 mk b =>
    rcases execSend9_cases mk b s with ⟨hi, e⟩ | ⟨_, e⟩ <;> rw [exec, e, Host.Outcome.next.injEq] at h
    · exact .inr (.inr (.inl ⟨mk, b, rfl, hi, h.symm⟩))
    · exact .inl h.symm
  | getcfg =>
    simp only [exec, execGetcfg] at h
    split at h
    · next hi => exact .inr (.inr (.inr (.inl ⟨hi, .inl ⟨rfl, (Host.Outcome.next.inj h).symm⟩⟩)))
    · next k hk =>
      split at h
      · exact .inl (Host.Outcome.next.inj h).symm
      · next l he =>
        refine .inr (.inr (.inr (.inr (.inl ⟨k, l, hk, he, rfl, ?_⟩))))
        split at h
        · next ha => exact .inl ⟨by simpa using ha, (Host.Outcome.next.inj h).symm⟩
        · next ha => exact .inr ⟨by simpa using ha, (Host.Outcome.next.inj h).symm⟩
      · exact .inl (Host.Outcome.next.inj h).symm
      · exact .inl (Host.Outcome.next.inj h).symm
  | setcfg p =>
    simp only [exec, execSetcfg] at h
    split at h
    · next hi =>
      split at h
      · exact .inl (Host.Outcome.next.inj h).symm
      · next hh =>
        exact .inr (.inr (.inr (.inl ⟨hi, .inr (.inl ⟨p, rfl, by simpa using hh,
          (Host.Outcome.next.inj h).symm⟩)⟩)))
    · next k hk =>
      split at h
      · exact .inl (Host.Outcome.next.inj h).symm
      · exact .inl (Host.Outcome.next.inj h).symm
      · next l c he =>
        split at h
        · exact .inl (Host.Outcome.next.inj h).symm
        · next hp =>
          obtain rfl : p = sendMode l := by simpa using hp
          split at h
          · exact .inl (Host.Outcome.next.inj h).symm
          · next hh =>
            refine .inr (.inr (.inr (.inr (.inr (.inl ⟨k, l, c, hk, he, rfl, by simpa using hh, ?_⟩)))))
            split at h
            · next ha => exact .inl ⟨ha, (Host.Outcome.next.inj h).symm⟩
            · next ha => exact .inr ⟨by simpa using ha, (Host.Outcome.next.inj h).symm⟩
      · exact .inl (Host.Outcome.next.inj h).symm
  | write d =>
    simp only [exec, execWrite] at h
    split at h
    · next hi =>
      split at h
      · exact .inl (Host.Outcome.next.inj h).symm
      · next hh =>
        exact .inr (.inr (.inr (.inl ⟨hi, .inr (.inr ⟨d, rfl, by simpa using hh,
          (Host.Outcome.next.inj h).symm⟩)⟩)))
    · next k hk =>
      split at h
      · exact .inl (Host.Outcome.next.inj h).symm
      · exact .inl (Host.Outcome.next.inj h).symm
      · exact .inl (Host.Outcome.next.inj h).symm
      · next l c he =>
        split at h
        · exact .inl (Host.Outcome.next.inj h).symm
        · next hd =>
          obtain rfl : d = l.b := by simpa using hd
          split at h
          · exact .inl (Host.Outcome.next.inj h).symm
          · next hh =>
            refine .inr (.inr (.inr (.inr (.inr (.inr ⟨k, l, c, hk, he, rfl, by simpa using hh, ?_⟩)))))
            split at h
            · next ha => exact .inl ⟨ha, (Host.Outcome.next.inj h).symm⟩
            · next ha => exact .inr ⟨by simpa using ha, (Host.Outcome.next.inj h).symm⟩

/-- The three kinds of step: of a drain agent with no event left, of the drain agent a held event waits for, of
the next event. -/
theorem step_cases {s t : State} (h : step s = .next t) :
    (s.sched = [] ∧ t = (s.quiet.autoDrain Config.p2)) ∨
    (∃ e rest g, s.sched = e :: rest ∧ s.blockedOn e = some g ∧ t = s.quiet.drain Config.p2 g) ∨
    (∃ e rest, s.sched = e :: rest ∧ s.blockedOn e = none ∧ runEvent exec Config.p2 e (s.take rest) = .next t) := by
  unfold step runStep at h
  split at h
  · next hs =>
    simp only [Host.Outcome.next.injEq] at h
    exact .inl ⟨hs, h.symm⟩
  · next e rest hs =>
    split at h
    · next g hb =>
      simp only [Host.Outcome.next.injEq] at h
      exact .inr (.inl ⟨e, rest, g, hs, hb, h.symm⟩)
    · next hb => exact .inr (.inr ⟨e, rest, hs, hb, h⟩)

/-- A drain agent acting by itself does nothing or takes the drain step of a Handle. -/
theorem autoDrain_cases (s : State) :
    s.autoDrain Config.p2 = s ∨ ∃ g, s.autoDrain Config.p2 = s.drain Config.p2 g := by
  unfold State.autoDrain
  split
  · exact .inl rfl
  · exact .inr ⟨_, rfl⟩

/-! ### Which records an instruction, an event and a step touch -/

theorem TouchesOnly.wire_prefix {g : Handle} {s t : State} (e : TouchesOnly g s t) (h : Handle) :
    (s.transport h).wire <+: (t.transport h).wire := by
  by_cases hg : h = g
  · subst hg; exact e.wire
  · rw [e.other h hg]

/-- An instruction touches one transport at most, and then moves one encoder, or responds, or neither. -/
theorem exec_touches {i : Instr} {s t : State} (h : exec i s = .next t) :
    ∃ g u, TouchesOnly g s u ∧
      (t = u ∨ (∃ k r, t = u.respond k r) ∨ (∃ k r, t = u.finish k r) ∨ ∃ k e, t = u.enter k e) := by
  rcases exec_cases h with rfl | ⟨mk, b, rfl, hi, rfl⟩ | ⟨mk, b, rfl, hi, rfl⟩ |
    ⟨hi, ⟨rfl, rfl⟩ | ⟨p, rfl, hh, rfl⟩ | ⟨d, rfl, hh, rfl⟩⟩ | ⟨k, l, hk, he, rfl, ⟨ha, rfl⟩ | ⟨ha, rfl⟩⟩ |
    ⟨k, l, c, hk, he, rfl, hh, ⟨ha, rfl⟩ | ⟨ha, rfl⟩⟩ | ⟨k, l, c, hk, he, rfl, hh, ⟨ha, rfl⟩ | ⟨ha, rfl⟩⟩
  · exact ⟨0, t, .refl 0 t, .inl rfl⟩
  · exact ⟨0, s, .refl 0 s, .inr (.inl ⟨_, _, rfl⟩)⟩
  · exact ⟨0, s, .refl 0 s, .inr (.inr (.inr ⟨_, _, rfl⟩))⟩
  · exact ⟨_, _, getEffect_touches _ _, .inl rfl⟩
  · exact ⟨_, _, setEffect_touches _ _ _, .inl rfl⟩
  · exact ⟨_, _, writeEffect_touches _ _ _, .inl rfl⟩
  · exact ⟨_, _, getEffect_touches _ _, .inr (.inr (.inl ⟨_, _, rfl⟩))⟩
  · exact ⟨_, _, getEffect_touches _ _, .inr (.inr (.inr ⟨_, _, rfl⟩))⟩
  · exact ⟨_, _, setEffect_touches _ _ _, .inr (.inr (.inl ⟨_, _, rfl⟩))⟩
  · exact ⟨_, _, setEffect_touches _ _ _, .inr (.inr (.inr ⟨_, _, rfl⟩))⟩
  · exact ⟨_, _, writeEffect_touches _ _ _, .inr (.inr (.inl ⟨_, _, rfl⟩))⟩
  · exact ⟨_, _, writeEffect_touches _ _ _, .inr (.inr (.inl ⟨_, _, rfl⟩))⟩

/-- What an event runs: an instruction, from a request, an answer or another user's word; or the effect of an
event that carries no instruction. -/
theorem runEvent_cases {e : Event} {s t : State} (h : runEvent exec Config.p2 e s = .next t) :
    (∃ k w g, e = .request k w g ∧ exec (decodeQ w) { s with caller := ⟨k, g⟩ } = .next t) ∨
    (∃ k w o i, e = .answer k w o ∧ (s.encoder k).command = some i ∧
      exec i { s with tport := ⟨some k, s.tport.handle, o, w⟩ } = .next t) ∨
    (∃ w g o a i, e = .command w g o a ∧ decodeT w = .ok i ∧
      exec i { s with tport := ⟨none, g, o, a⟩ } = .next t) ∨
    (∃ w g o a, e = .command w g o a ∧ decodeT w = .error .timingZero ∧
      t = ({ s with tport := ⟨none, g, o, a⟩ } : State).setEffect g
        ⟨o, Polarity.ofBit (TFields.ofWord w).par⟩) ∨
    (∃ k w o, e = .answer k w o ∧ s.encoder k = .idle ∧ t = s) ∨
    (∃ g, e = .drain g ∧ t = s.drain Config.p2 g) ∨
    (∃ g c, e = .flush g c ∧ t = s.flushNow g c) ∨
    (∃ g c, e = .connect g c ∧ t = s.connect g c) ∨
    (∃ g, e = .disconnect g ∧ t = s.disconnect g) ∨
    (∃ k f, e = .reset k f ∧ t = s.resetEvent k f) := by
  cases e with
  | request k w g => exact .inl ⟨k, w, g, rfl, h⟩
  | answer k w o =>
    rw [runEvent_answer] at h
    split at h
    · next hc =>
      have : s.encoder k = .idle := by revert hc; cases s.encoder k <;> simp [Encoder.command]
      exact .inr (.inr (.inr (.inr (.inl ⟨k, w, o, rfl, this, (Host.Outcome.next.inj h).symm⟩))))
    · next i hc => exact .inr (.inl ⟨k, w, o, i, rfl, hc, h⟩)
  | command w g o a =>
    rw [runEvent_command] at h
    split at h
    · next i hc => exact .inr (.inr (.inl ⟨w, g, o, a, i, rfl, hc, h⟩))
    · next r hr =>
      cases r <;> simp [State.rejected] at h
      exact .inr (.inr (.inr (.inl ⟨w, g, o, a, rfl, hr, h.symm⟩)))
  | drain g =>
    exact .inr (.inr (.inr (.inr (.inr (.inl ⟨g, rfl, (Host.Outcome.next.inj h).symm⟩)))))
  | flush g c =>
    exact .inr (.inr (.inr (.inr (.inr (.inr (.inl ⟨g, c, rfl, (Host.Outcome.next.inj h).symm⟩))))))
  | connect g c =>
    exact .inr (.inr (.inr (.inr (.inr (.inr (.inr (.inl
      ⟨g, c, rfl, (Host.Outcome.next.inj h).symm⟩)))))))
  | disconnect g =>
    exact .inr (.inr (.inr (.inr (.inr (.inr (.inr (.inr (.inl
      ⟨g, rfl, (Host.Outcome.next.inj h).symm⟩))))))))
  | reset k f =>
    exact .inr (.inr (.inr (.inr (.inr (.inr (.inr (.inr (.inr
      ⟨k, f, rfl, (Host.Outcome.next.inj h).symm⟩))))))))

/-- The command in flight at a reset touches the Handle it is for, or nothing (R141). -/
theorem outstandingEffect_touches (s : State) (k : EncId) :
    s.outstandingEffect k = s ∨
    ∃ g, (s.encoder k).tHandle = some g ∧ TouchesOnly g s (s.outstandingEffect k) := by
  unfold State.outstandingEffect
  split
  · exact .inl rfl
  · next l he =>
    exact .inr ⟨l.h, by simp [Encoder.tHandle, he, Encoder.latches], getEffect_touches _ _⟩
  · next l c he =>
    exact .inr ⟨l.h, by simp [Encoder.tHandle, he, Encoder.latches], setEffect_touches _ _ _⟩
  · next l c he =>
    exact .inr ⟨l.h, by simp [Encoder.tHandle, he, Encoder.latches], writeEffect_touches _ _ _⟩

/-- A step withdraws the last response, touches one transport at most, and then moves one encoder, or responds,
or neither. -/
theorem step_touches {s t : State} (h : step s = .next t) :
    ∃ g v u, v.trans = s.trans ∧ v.encs = s.encs ∧ v.trace = s.trace ∧ v.rsp = none ∧ TouchesOnly g v u ∧
      (t = u ∨ (∃ k r, t = u.respond k r) ∨ (∃ k r, t = u.finish k r) ∨ (∃ k e, t = u.enter k e) ∨
        ∃ k, t = u.resetEncoder k) := by
  have lift : ∀ {i : Instr} {v : State}, exec i v = .next t → v.trans = s.trans → v.encs = s.encs →
      v.trace = s.trace → v.rsp = none → ∃ g v u, v.trans = s.trans ∧ v.encs = s.encs ∧
        v.trace = s.trace ∧ v.rsp = none ∧ TouchesOnly g v u ∧
        (t = u ∨ (∃ k r, t = u.respond k r) ∨ (∃ k r, t = u.finish k r) ∨ (∃ k e, t = u.enter k e) ∨
          ∃ k, t = u.resetEncoder k) := by
    intro i v hx h1 h2 h3 h4
    obtain ⟨g, u, tu, ht⟩ := exec_touches hx
    exact ⟨g, v, u, h1, h2, h3, h4, tu,
      ht.imp_right (Or.imp_right (Or.imp_right .inl))⟩
  rcases step_cases h with ⟨hs, rfl⟩ | ⟨e, rest, g, hs, hb, rfl⟩ | ⟨e, rest, hs, hb, hr⟩
  · rcases autoDrain_cases s.quiet with e | ⟨g, e⟩ <;> rw [e]
    · exact ⟨0, s.quiet, _, rfl, rfl, rfl, rfl, .refl 0 _, .inl rfl⟩
    · exact ⟨g, s.quiet, _, rfl, rfl, rfl, rfl, drain_touches Config.p2 _ _, .inl rfl⟩
  · exact ⟨g, s.quiet, _, rfl, rfl, rfl, rfl, drain_touches Config.p2 _ _, .inl rfl⟩
  · rcases runEvent_cases hr with ⟨k, w, g, rfl, hx⟩ | ⟨k, w, o, i, rfl, hc, hx⟩ |
      ⟨w, g, o, a, i, rfl, hc, hx⟩ | ⟨w, g, o, a, rfl, hc, rfl⟩ | ⟨k, w, o, rfl, he, rfl⟩ | ⟨g, rfl, rfl⟩ |
      ⟨g, c, rfl, rfl⟩ | ⟨g, c, rfl, rfl⟩ | ⟨g, rfl, rfl⟩ | ⟨k, f, rfl, rfl⟩
    · exact lift hx rfl rfl rfl rfl
    · exact lift hx rfl rfl rfl rfl
    · exact lift hx rfl rfl rfl rfl
    · exact ⟨g, { s.take rest with tport := ⟨none, g, o, a⟩ }, _, rfl, rfl, rfl, rfl,
        setEffect_touches _ _ _, .inl rfl⟩
    · exact ⟨0, s.take rest, _, rfl, rfl, rfl, rfl, .refl 0 _, .inl rfl⟩
    · exact ⟨g, s.take rest, _, rfl, rfl, rfl, rfl, drain_touches Config.p2 _ _, .inl rfl⟩
    · exact ⟨g, s.take rest, _, rfl, rfl, rfl, rfl, flushNow_touches _ _ _, .inl rfl⟩
    · exact ⟨g, s.take rest, _, rfl, rfl, rfl, rfl, connect_touches _ _ _, .inl rfl⟩
    · exact ⟨g, s.take rest, _, rfl, rfl, rfl, rfl, disconnect_touches _ _, .inl rfl⟩
    · cases f with
      | none =>
        exact ⟨0, s.take rest, _, rfl, rfl, rfl, rfl, .refl 0 _, .inr (.inr (.inr (.inr ⟨k, rfl⟩)))⟩
      | some w =>
        have hv := outstandingEffect_touches
          { s.take rest with tport := { s.tport with ans := w } } k
        rcases hv with e | ⟨g, _, tu⟩
        · refine ⟨0, { s.take rest with tport := { s.tport with ans := w } }, _, rfl, rfl, rfl, rfl,
            .refl 0 _, .inr (.inr (.inr (.inr ⟨k, ?_⟩)))⟩
          exact congrArg (·.resetEncoder k) e
        · exact ⟨g, { s.take rest with tport := { s.tport with ans := w } }, _, rfl, rfl, rfl, rfl, tu,
            .inr (.inr (.inr (.inr ⟨k, rfl⟩)))⟩

end Sys2Proof.Machine
end

