-- ==== Sys2Proof/Laws/Moves.lean ====
section
/-! SUPPORT. One inversion of the whole step: every way `step s = .next t` can come about, with t written out.
A proof about all steps takes `step_moves` apart by `cases`, and unfolds nothing. -/

namespace Sys2Proof.Machine

/-- s with instance k's answer on the transport interface, the event taken off. -/
def State.answered (s : State) (rest : List Event) (k : EncId) (w : BitVec 3) (o : Opaque) : State :=
  { s.take rest with tport := ⟨some k, s.tport.handle, o, w⟩ }

/-- s with another user's command on the transport interface, the event taken off. -/
def State.used (s : State) (rest : List Event) (g : Handle) (o : Opaque) (a : BitVec 3) : State :=
  { s.take rest with tport := ⟨none, g, o, a⟩ }

/-- s with a request on the caller interface, the event taken off. -/
def State.requested (s : State) (rest : List Event) (k : EncId) (g : Handle) : State :=
  { s.take rest with caller := ⟨k, g⟩ }

section Reads
variable (s : State) (rest : List Event) (k j : EncId) (w : BitVec 3) (o : Opaque) (g h : Handle)

@[simp] theorem encoder_answered : (s.answered rest k w o).encoder j = s.encoder j := rfl
@[simp] theorem transport_answered : (s.answered rest k w o).transport h = s.transport h := rfl
@[simp] theorem answered_encs : (s.answered rest k w o).encs = s.encs := rfl
@[simp] theorem answered_trans : (s.answered rest k w o).trans = s.trans := rfl
@[simp] theorem answered_tport : (s.answered rest k w o).tport = ⟨some k, s.tport.handle, o, w⟩ := rfl
@[simp] theorem answered_trace : (s.answered rest k w o).trace = s.trace := rfl
@[simp] theorem answered_rsp : (s.answered rest k w o).rsp = none := rfl
@[simp] theorem answered_sched : (s.answered rest k w o).sched = rest := rfl
@[simp] theorem answered_txqDepth : (s.answered rest k w o).txqDepth = s.txqDepth := rfl
@[simp] theorem answered_draws : (s.answered rest k w o).draws = s.draws := rfl
@[simp] theorem encoder_used : (s.used rest g o w).encoder j = s.encoder j := rfl
@[simp] theorem transport_used : (s.used rest g o w).transport h = s.transport h := rfl
@[simp] theorem used_encs : (s.used rest g o w).encs = s.encs := rfl
@[simp] theorem used_trans : (s.used rest g o w).trans = s.trans := rfl
@[simp] theorem used_tport : (s.used rest g o w).tport = ⟨none, g, o, w⟩ := rfl
@[simp] theorem used_trace : (s.used rest g o w).trace = s.trace := rfl
@[simp] theorem used_rsp : (s.used rest g o w).rsp = none := rfl
@[simp] theorem used_sched : (s.used rest g o w).sched = rest := rfl
@[simp] theorem used_txqDepth : (s.used rest g o w).txqDepth = s.txqDepth := rfl
@[simp] theorem encoder_requested : (s.requested rest k g).encoder j = s.encoder j := rfl
@[simp] theorem transport_requested : (s.requested rest k g).transport h = s.transport h := rfl
@[simp] theorem requested_encs : (s.requested rest k g).encs = s.encs := rfl
@[simp] theorem requested_trans : (s.requested rest k g).trans = s.trans := rfl
@[simp] theorem requested_trace : (s.requested rest k g).trace = s.trace := rfl
@[simp] theorem requested_rsp : (s.requested rest k g).rsp = none := rfl
@[simp] theorem requested_sched : (s.requested rest k g).sched = rest := rfl
@[simp] theorem requested_txqDepth : (s.requested rest k g).txqDepth = s.txqDepth := rfl
@[simp] theorem take_encs : (s.take rest).encs = s.encs := rfl
@[simp] theorem take_trans : (s.take rest).trans = s.trans := rfl
@[simp] theorem take_trace : (s.take rest).trace = s.trace := rfl
@[simp] theorem take_rsp : (s.take rest).rsp = none := rfl
@[simp] theorem take_sched : (s.take rest).sched = rest := rfl
@[simp] theorem take_txqDepth : (s.take rest).txqDepth = s.txqDepth := rfl
@[simp] theorem quiet_encs : s.quiet.encs = s.encs := rfl
@[simp] theorem quiet_trans : s.quiet.trans = s.trans := rfl
@[simp] theorem quiet_trace : s.quiet.trace = s.trace := rfl
@[simp] theorem quiet_rsp : s.quiet.rsp = none := rfl
@[simp] theorem quiet_sched : s.quiet.sched = s.sched := rfl
@[simp] theorem quiet_txqDepth : s.quiet.txqDepth = s.txqDepth := rfl

end Reads

/-- Every way a step can go from s to a next state. -/
inductive Moves (s : State) : State → Prop where
  /-- No event left and no Byte queued. -/
  | still : s.sched = [] → Moves s s.quiet
  /-- No event left: the drain agent of g (log 8). -/
  | drainSelf (g : Handle) : s.sched = [] → Moves s (s.quiet.drain Config.p2 g)
  /-- The next event is held: the drain agent of the Handle it waits for (log 9). -/
  | drainHeld (e : Event) (rest : List Event) (g : Handle) : s.sched = e :: rest → s.blockedOn e = some g →
      Moves s (s.quiet.drain Config.p2 g)
  /-- A request at an instance that is not IDLE waits (R81; log 10). -/
  | requestWaits (k : EncId) (w : BitVec 17) (g : Handle) (rest : List Event) :
      s.sched = .request k w g :: rest → s.encoder k ≠ .idle → Moves s (s.requested rest k g)
  /-- ACCEPT-PAR8. -/
  | acceptPar8 (k : EncId) (w : BitVec 17) (g : Handle) (rest : List Event) (mk b : Byte) :
      s.sched = .request k w g :: rest → s.encoder k = .idle → decodeQ w = .par8 mk b →
      Moves s ((s.requested rest k g).respond k ⟨.ok, par8 b⟩)
  /-- ACCEPT-SEND9. -/
  | acceptSend9 (k : EncId) (w : BitVec 17) (g : Handle) (rest : List Event) (mk b : Byte) :
      s.sched = .request k w g :: rest → s.encoder k = .idle → decodeQ w = .send9 mk b →
      Moves s ((s.requested rest k g).enter k (.rd ⟨g, b, canon mk⟩))
  /-- An answer with no command outstanding (log 11). -/
  | answerStray (k : EncId) (w : BitVec 3) (o : Opaque) (rest : List Event) :
      s.sched = .answer k w o :: rest → s.encoder k = .idle → Moves s (s.take rest)
  /-- RD-ERR. -/
  | readErr (k : EncId) (w : BitVec 3) (o : Opaque) (rest : List Event) (l : Latches) :
      s.sched = .answer k w o :: rest → s.encoder k = .rd l → ansErr w = true →
      Moves s (((s.answered rest k w o).getEffect l.h).finish k ⟨.configReadError, false⟩)
  /-- RD-OK. -/
  | readOk (k : EncId) (w : BitVec 3) (o : Opaque) (rest : List Event) (l : Latches) :
      s.sched = .answer k w o :: rest → s.encoder k = .rd l → ansErr w = false →
      Moves s (((s.answered rest k w o).getEffect l.h).enter k
        (.ap l (ansCfg ((s.answered rest k w o).getAnswer l.h) ((s.answered rest k w o).getOpaque l.h))))
  /-- AP-ERR. -/
  | applyErr (k : EncId) (w : BitVec 3) (o : Opaque) (rest : List Event) (l : Latches) (c : Cfg) :
      s.sched = .answer k w o :: rest → s.encoder k = .ap l c → ansErr w = true →
      Moves s (((s.answered rest k w o).setEffect l.h ⟨c.opq, sendMode l⟩).finish k ⟨.configApplyError, false⟩)
  /-- AP-OK. -/
  | applyOk (k : EncId) (w : BitVec 3) (o : Opaque) (rest : List Event) (l : Latches) (c : Cfg) :
      s.sched = .answer k w o :: rest → s.encoder k = .ap l c → ansErr w = false →
      ((s.transport l.h).isOpen = true → (s.transport l.h).txq = []) →
      Moves s (((s.answered rest k w o).setEffect l.h ⟨c.opq, sendMode l⟩).enter k (.wr l c))
  /-- WR-ERR. -/
  | writeErr (k : EncId) (w : BitVec 3) (o : Opaque) (rest : List Event) (l : Latches) (c : Cfg) :
      s.sched = .answer k w o :: rest → s.encoder k = .wr l c → ansErr w = true →
      Moves s (((s.answered rest k w o).writeEffect l.h l.b).finish k ⟨.writeError, false⟩)
  /-- WR-1 and WR-0. -/
  | writeOk (k : EncId) (w : BitVec 3) (o : Opaque) (rest : List Event) (l : Latches) (c : Cfg) :
      s.sched = .answer k w o :: rest → s.encoder k = .wr l c → ansErr w = false →
      s.writeHeld l.h w = false →
      Moves s (((s.answered rest k w o).writeEffect l.h l.b).finish k ⟨.ok, ansCount w⟩)
  /-- Another user's GETCFG. -/
  | userGet (w : BitVec 12) (g : Handle) (o : Opaque) (a : BitVec 3) (rest : List Event) :
      s.sched = .command w g o a :: rest → decodeT w = .ok .getcfg →
      Moves s ((s.used rest g o a).getEffect g)
  /-- Another user's SETCFG, after-drain. -/
  | userSet (w : BitVec 12) (g : Handle) (o : Opaque) (a : BitVec 3) (rest : List Event) (p : Polarity) :
      s.sched = .command w g o a :: rest → decodeT w = .ok (.setcfg p) → s.setHeld g a = false →
      Moves s ((s.used rest g o a).setEffect g ⟨o, p⟩)
  /-- Another user's change at once (U9). -/
  | userSetNow (w : BitVec 12) (g : Handle) (o : Opaque) (a : BitVec 3) (rest : List Event) :
      s.sched = .command w g o a :: rest → decodeT w = .error .timingZero →
      Moves s ((s.used rest g o a).setEffect g ⟨o, Polarity.ofBit (TFields.ofWord w).par⟩)
  /-- Another user's WRITE. -/
  | userWrite (w : BitVec 12) (g : Handle) (o : Opaque) (a : BitVec 3) (rest : List Event) (d : Byte) :
      s.sched = .command w g o a :: rest → decodeT w = .ok (.write d) → s.writeHeld g a = false →
      Moves s ((s.used rest g o a).writeEffect g d)
  /-- The drain agent of g, by an event of its own. -/
  | drainEvent (g : Handle) (rest : List Event) : s.sched = .drain g :: rest →
      Moves s ((s.take rest).drain Config.p2 g)
  | flush (g : Handle) (c : Cfg) (rest : List Event) : s.sched = .flush g c :: rest →
      Moves s ((s.take rest).flushNow g c)
  | connect (g : Handle) (c : Cfg) (rest : List Event) : s.sched = .connect g c :: rest →
      Moves s ((s.take rest).connect g c)
  | disconnect (g : Handle) (rest : List Event) : s.sched = .disconnect g :: rest →
      Moves s ((s.take rest).disconnect g)
  | reset (k : EncId) (fate : Option (BitVec 3)) (rest : List Event) : s.sched = .reset k fate :: rest →
      s.blockedOn (.reset k fate) = none → Moves s ((s.take rest).resetEvent k fate)

theorem command_cases {e : Encoder} {i : Instr} (h : e.command = some i) :
    (∃ l, e = .rd l ∧ i = .getcfg) ∨ (∃ l c, e = .ap l c ∧ i = .setcfg (sendMode l)) ∨
      (∃ l c, e = .wr l c ∧ i = .write l.b) := by
  cases e <;> simp [Encoder.command] at h <;> subst h <;> simp

theorem decodeQ_cases (w : BitVec 17) :
    (∃ mk b, decodeQ w = .par8 mk b) ∨ ∃ mk b, decodeQ w = .send9 mk b := by
  unfold decodeQ
  dsimp only
  split <;> simp

theorem decodeT_cases {w : BitVec 12} {i : Instr} (h : decodeT w = .ok i) :
    i = .getcfg ∨ (∃ p, i = .setcfg p) ∨ ∃ d, i = .write d := by
  unfold decodeT at h
  dsimp only at h
  split at h
  · cases h
  · split at h
    · exact .inl (by simpa using h.symm)
    · split at h
      · exact .inr (.inl ⟨_, by simpa using h.symm⟩)
      · exact .inr (.inr ⟨_, by simpa using h.symm⟩)

theorem moves_request {s t : State} {k : EncId} {w : BitVec 17} {g : Handle} {rest : List Event}
    (hs : s.sched = .request k w g :: rest) (h : runEvent exec Config.p2 (.request k w g) (s.take rest) = .next t) :
    Moves s t := by
  change exec (decodeQ w) (s.requested rest k g) = .next t at h
  rcases decodeQ_cases w with ⟨mk, b, hq⟩ | ⟨mk, b, hq⟩ <;> rw [hq] at h
  · rcases execPar8_cases mk b (s.requested rest k g) with ⟨hi, e⟩ | ⟨hi, e⟩ <;> rw [exec, e] at h <;> cases h
    · exact .acceptPar8 k w g rest mk b hs hi hq
    · exact .requestWaits k w g rest hs hi
  · rcases execSend9_cases mk b (s.requested rest k g) with ⟨hi, e⟩ | ⟨hi, e⟩ <;> rw [exec, e] at h <;> cases h
    · exact .acceptSend9 k w g rest mk b hs hi hq
    · exact .requestWaits k w g rest hs hi

theorem moves_answer {s t : State} {k : EncId} {w : BitVec 3} {o : Opaque} {rest : List Event}
    (hs : s.sched = .answer k w o :: rest) (hb : s.blockedOn (.answer k w o) = none)
    (h : runEvent exec Config.p2 (.answer k w o) (s.take rest) = .next t) : Moves s t := by
  rw [runEvent_answer, encoder_take] at h
  cases he : s.encoder k with
  | idle =>
    simp only [he, Encoder.command, Host.Outcome.next.injEq] at h
    exact h ▸ .answerStray k w o rest hs he
  | rd l =>
    simp only [he, Encoder.command] at h
    change execGetcfg (s.answered rest k w o) = .next t at h
    simp only [execGetcfg, answered_tport, encoder_answered, he, ansErr_getAnswer] at h
    split at h <;> cases h
    · next ha => exact .readErr k w o rest l hs he ha
    · next ha => exact .readOk k w o rest l hs he (by simpa using ha)
  | ap l c =>
    simp only [he, Encoder.command] at h
    change execSetcfg (sendMode l) (s.answered rest k w o) = .next t at h
    have hh : s.setHeld l.h w = false := by simpa [State.blockedOn, State.heldFor, he] using hb
    have hh' : (s.answered rest k w o).setHeld l.h w = false := hh
    cases ha : ansErr w <;>
      simp only [execSetcfg, answered_tport, encoder_answered, he, bne_self_eq_false, hh', ha,
        Bool.false_eq_true, if_false, if_true, raiseError_eq, Host.Outcome.next.injEq] at h <;> subst h
    · refine .applyOk k w o rest l c hs he ha fun ho => ?_
      by_contra hq
      exact absurd ((setHeld_iff s l.h w).2 ⟨ho, ha, hq⟩) (by simp [hh])
    · exact .applyErr k w o rest l c hs he ha
  | wr l c =>
    simp only [he, Encoder.command] at h
    change execWrite l.b (s.answered rest k w o) = .next t at h
    have hh : s.writeHeld l.h w = false := by simpa [State.blockedOn, State.heldFor, he] using hb
    have hh' : (s.answered rest k w o).writeHeld l.h w = false := hh
    cases ha : ansErr w <;>
      simp only [execWrite, answered_tport, encoder_answered, he, bne_self_eq_false, hh', ha,
        Bool.false_eq_true, if_false, if_true, raiseError_eq, Host.Outcome.next.injEq] at h <;> subst h
    · exact .writeOk k w o rest l c hs he ha hh
    · exact .writeErr k w o rest l c hs he ha

theorem moves_command {s t : State} {w : BitVec 12} {g : Handle} {o : Opaque} {a : BitVec 3}
    {rest : List Event} (hs : s.sched = .command w g o a :: rest)
    (hb : s.blockedOn (.command w g o a) = none)
    (h : runEvent exec Config.p2 (.command w g o a) (s.take rest) = .next t) : Moves s t := by
  rw [runEvent_command] at h
  split at h
  · next i hd =>
    change exec i (s.used rest g o a) = .next t at h
    rcases decodeT_cases hd with rfl | ⟨p, rfl⟩ | ⟨d, rfl⟩
    · cases h
      exact .userGet w g o a rest hs hd
    · have hh : s.setHeld g a = false := by simpa [State.blockedOn, hd] using hb
      have hh' : (s.used rest g o a).setHeld g a = false := hh
      simp only [exec, execSetcfg, used_tport, hh', Bool.false_eq_true, if_false,
        Host.Outcome.next.injEq] at h
      exact h ▸ .userSet w g o a rest p hs hd hh
    · have hh : s.writeHeld g a = false := by simpa [State.blockedOn, hd] using hb
      have hh' : (s.used rest g o a).writeHeld g a = false := hh
      simp only [exec, execWrite, used_tport, hh', Bool.false_eq_true, if_false,
        Host.Outcome.next.injEq] at h
      exact h ▸ .userWrite w g o a rest d hs hd hh
  · next r hr =>
    cases r <;> simp only [State.rejected, Host.Outcome.next.injEq, reduceCtorEq] at h
    exact h ▸ .userSetNow w g o a rest hs hr

/-- Every step that answers a next state is one of the moves. -/
theorem step_moves {s t : State} (h : step s = .next t) : Moves s t := by
  rcases step_cases h with ⟨hs, rfl⟩ | ⟨e, rest, g, hs, hb, rfl⟩ | ⟨e, rest, hs, hb, hr⟩
  · rcases autoDrain_cases s.quiet with e | ⟨g, e⟩ <;> rw [e]
    · exact .still hs
    · exact .drainSelf g hs
  · exact .drainHeld e rest g hs hb
  · cases e with
    | request k w g => exact moves_request hs hr
    | answer k w o => exact moves_answer hs hb hr
    | command w g o a => exact moves_command hs hb hr
    | drain g => exact Host.Outcome.next.inj hr ▸ .drainEvent g rest hs
    | flush g c => exact Host.Outcome.next.inj hr ▸ .flush g c rest hs
    | connect g c => exact Host.Outcome.next.inj hr ▸ .connect g c rest hs
    | disconnect g => exact Host.Outcome.next.inj hr ▸ .disconnect g rest hs
    | reset k fate => exact Host.Outcome.next.inj hr ▸ .reset k fate rest hs hb

end Sys2Proof.Machine
end

