-- ==== Sys2Proof/Laws/PerInstr.lean ====
section
/-! SUPPORT. One family of statements about every instruction as syntax: it is well-formed, and its word carries
the fixed bits that table 5.1 gives its row (30_encoding.md R59). -/

namespace Sys2Proof.Laws.InRow

/-- A word has the value `m` at the bits of `mask`. -/
def Fixed (mask m : Nat) : IfWord → Prop
  | .q w => w &&& BitVec.ofNat 17 mask = BitVec.ofNat 17 m
  | .t w => w &&& BitVec.ofNat 12 mask = BitVec.ofNat 12 m

/-- The instruction is well-formed and its word matches its row of table 5.1. -/
def Statement (i : Instr) : Prop :=
  i.wf = true ∧
    match i with
    | .par8 _ _ => Fixed 0x10000 0x00000 (encode i)
    | .send9 _ _ => Fixed 0x10000 0x10000 (encode i)
    | .getcfg => Fixed 0xFFF 0x400 (encode i)
    | .setcfg _ => Fixed 0xEFF 0xA00 (encode i)
    | .write _ => Fixed 0xF00 0xC00 (encode i)

/-- Bit 16 alone of a request word is `op`. -/
theorem qWord_op (f : QFields) : f.word &&& 0x10000#17 = if f.op then 0x10000#17 else 0#17 := by
  have hm : ∀ i : Fin 17, (0x10000#17).getLsbD i.val = (i.val == 16) := by decide
  apply BitVec.eq_of_getLsbD_eq
  intro i hi
  have hmi := hm ⟨i, hi⟩
  simp only at hmi
  rw [BitVec.getLsbD_and, qWord_getLsbD, hmi]
  by_cases h16 : i = 16
  · subst h16; cases f.op <;> rfl
  · have : (i == 16) = false := by simpa using h16
    cases f.op <;> simp [this, hmi]

theorem par8 (mk b : Byte) : Statement (.par8 mk b) := ⟨rfl, qWord_op ⟨false, mk, b⟩⟩

theorem send9 (mk b : Byte) : Statement (.send9 mk b) := ⟨rfl, qWord_op ⟨true, mk, b⟩⟩

theorem getcfg : Statement .getcfg := ⟨rfl, rfl⟩

theorem setcfg (p : Polarity) : Statement (.setcfg p) := by cases p <;> exact ⟨rfl, rfl⟩

theorem write (d : Byte) : Statement (.write d) := by
  refine ⟨rfl, ?_⟩
  change TFields.word ⟨3#2, false, false, d⟩ &&& 0xF00#12 = 0xC00#12
  revert d
  decide

end Sys2Proof.Laws.InRow
end

