-- ==== Sys2Proof/Laws/Rename.lean ====
section
/-! SUPPORT. The type arguments of the model (00_scope.md R5): what renaming Handles by an order embedding f and opaque
parts by a one-to-one g that keeps the default does to each shared operation. A command's effect commutes with it
where no free value is drawn. -/

namespace Sys2Proof.Machine

/-! ### Tables -/

section Tables
variable {κ κ' α β : Type} [LinearOrder κ] [LinearOrder κ'] {f : κ → κ'} {φ : α → β} {d : α} {d' : β}

theorem tableGet_map (hf : Function.Injective f) (hd : φ d = d') (m : List (κ × α)) (k : κ) :
    tableGet d' (m.map fun e => (f e.1, φ e.2)) (f k) = φ (tableGet d m k) := by
  induction m with
  | nil => exact hd.symm
  | cons e rest ih => by_cases h : k = e.1 <;> simp [tableGet, h, hf.eq_iff, ih]

theorem tableDrop_map (hf : Function.Injective f) (m : List (κ × α)) (k : κ) :
    tableDrop (m.map fun e => (f e.1, φ e.2)) (f k) = (tableDrop m k).map fun e => (f e.1, φ e.2) := by
  simp only [tableDrop, List.filter_map]
  congr 2
  funext e
  simp [bne, hf.eq_iff]

theorem tablePut_map [DecidableEq α] [DecidableEq β] (hf : StrictMono f) (hφ : ∀ v, φ v = d' ↔ v = d)
    (m : List (κ × α)) (k : κ) (v : α) :
    tablePut d' (m.map fun e => (f e.1, φ e.2)) (f k) (φ v) =
      (tablePut d m k v).map fun e => (f e.1, φ e.2) := by
  induction m with
  | nil => by_cases h : v = d <;> simp [tablePut, hφ, h]
  | cons e rest ih =>
    have hd := fun k => tableDrop_map (φ := φ) hf.injective rest k
    simp only [List.map_cons, tablePut, hf.lt_iff_lt, hf.injective.eq_iff, hφ, hd, ih]
    split <;> split <;> (try split) <;> rfl

end Tables

/-! ### What an unlisted record renames to -/

variable {H H' O O' : Type} {f : H → H'} {g : O → O'}

theorem renameCfg_inj (hg : Function.Injective g) {c c' : Cfg O} :
    renameCfg g c = renameCfg g c' ↔ c = c' := by
  cases c; cases c'; simp [renameCfg, hg.eq_iff]

theorem absent_rename [Inhabited O] [Inhabited O'] (hd : g default = default) :
    Transport.absent.rename g = Transport.absent := by
  simp [Transport.absent, Transport.rename, renameCfg, Config.zeroCfg, Config.zeroOpaque, hd]

theorem rename_eq_absent [Inhabited O] [Inhabited O'] (hg : Function.Injective g) (hd : g default = default)
    (t : Transport O) : t.rename g = Transport.absent ↔ t = Transport.absent := by
  rw [← absent_rename hd]
  cases t; simp [Transport.absent, Transport.rename, renameCfg_inj hg]

theorem rename_eq_reset (e : Encoder H O) : e.rename f g = Encoder.reset ↔ e = Encoder.reset := by
  cases e <;> simp [Encoder.rename, Encoder.reset]

theorem issued_rename (k : EncId) (e : Encoder H O) :
    (e.rename f g).issued k = (e.issued k).map fun o => o.rename f g := by
  cases e <;> rfl

/-! ### Encoders and responses -/

variable (s : State H O)

@[simp] theorem encoder_rename (k : EncId) : (s.rename f g).encoder k = (s.encoder k).rename f g :=
  tableGet_map (f := id) (φ := Encoder.rename f g) (d := (Encoder.reset : Encoder H O))
    Function.injective_id rfl s.encs k

theorem respond_rename (k : EncId) (r : Response) :
    (s.rename f g).respond k r = (s.respond k r).rename f g := by
  simp [State.respond, State.rename, Obs.rename]

section Moving
variable [DecidableEq H] [DecidableEq H'] [DecidableEq O] [DecidableEq O']

theorem setEncoder_rename (k : EncId) (e : Encoder H O) :
    (s.rename f g).setEncoder k (e.rename f g) = (s.setEncoder k e).rename f g := by
  have := tablePut_map (f := (id : EncId → EncId)) (φ := Encoder.rename f g) strictMono_id rename_eq_reset
    s.encs k e
  simp only [id] at this
  simp [State.setEncoder, State.rename, this]

theorem enter_rename (k : EncId) (e : Encoder H O) :
    (s.rename f g).enter k (e.rename f g) = (s.enter k e).rename f g := by
  simp only [State.enter, setEncoder_rename, issued_rename]
  simp [State.rename]

theorem finish_rename (k : EncId) (r : Response) :
    (s.rename f g).finish k r = (s.finish k r).rename f g := by
  unfold State.finish
  rw [← respond_rename, ← setEncoder_rename]
  rfl

end Moving

/-! ### Transports -/

variable [LinearOrder H] [LinearOrder H'] [DecidableEq O] [DecidableEq O'] [Inhabited O] [Inhabited O']
  (hf : StrictMono f) (hg : Function.Injective g) (hd : g default = default)

section Reading
omit [DecidableEq O] [DecidableEq O']
include hf hd

theorem transport_rename (h : H) : (s.rename f g).transport (f h) = (s.transport h).rename g :=
  tableGet_map (φ := Transport.rename g) hf.injective (absent_rename hd) s.trans h

theorem getAnswer_rename (h : H) : (s.rename f g).getAnswer (f h) = s.getAnswer h := by
  unfold State.getAnswer
  rw [transport_rename s hf hd]
  rfl

theorem getOpaque_rename (h : H) : (s.rename f g).getOpaque (f h) = g (s.getOpaque h) := by
  unfold State.getOpaque
  rw [transport_rename s hf hd]
  change (if ((s.transport h).isOpen && !ansErr s.tport.ans) = true then _ else _) = _
  split <;> rfl

theorem setHeld_rename (h : H) (w : BitVec 3) : (s.rename f g).setHeld (f h) w = s.setHeld h w := by
  unfold State.setHeld
  rw [transport_rename s hf hd]
  rfl

theorem writeHeld_rename (h : H) (w : BitVec 3) : (s.rename f g).writeHeld (f h) w = s.writeHeld h w := by
  unfold State.writeHeld
  rw [transport_rename s hf hd]
  rfl

end Reading

include hf hd

theorem getEffect_rename (h : H) (hn : (s.getEffect h).draws = s.draws) :
    (s.rename f g).getEffect (f h) = (s.getEffect h).rename f g := by
  unfold State.getEffect at hn ⊢
  rw [transport_rename s hf hd]
  change (if (s.transport h).isOpen = true then _ else _) = _
  split
  · rfl
  · next ho => simp [ho, State.closedEffect] at hn

include hg

theorem setTransport_rename (h : H) (t : Transport O) :
    (s.rename f g).setTransport (f h) (t.rename g) = (s.setTransport h t).rename f g := by
  have := tablePut_map (φ := Transport.rename g) hf (rename_eq_absent hg hd) s.trans h t
  simp [State.setTransport, State.rename, this]

theorem setEffect_rename (h : H) (c : Cfg O) (hn : (s.setEffect h c).draws = s.draws) :
    (s.rename f g).setEffect (f h) (renameCfg g c) = (s.setEffect h c).rename f g := by
  unfold State.setEffect at hn ⊢
  rw [transport_rename s hf hd]
  change (if (s.transport h).isOpen = true then if ansErr s.tport.ans = true then _ else _ else _) = _
  split
  · next ho =>
    split
    · next ha => simp [ho, ha] at hn
    · exact setTransport_rename s hf hg hd h { s.transport h with cfg := c }
  · next ho => simp [ho, State.closedEffect] at hn

theorem writeEffect_rename (h : H) (b : Byte) (hn : (s.writeEffect h b).draws = s.draws) :
    (s.rename f g).writeEffect (f h) b = (s.writeEffect h b).rename f g := by
  unfold State.writeEffect at hn ⊢
  rw [transport_rename s hf hd]
  change (if (s.transport h).isOpen = true then
    if (!ansErr s.tport.ans && ansCount s.tport.ans) = true then _ else _ else _) = _
  split
  · next ho =>
    split
    · exact setTransport_rename s hf hg hd h { s.transport h with txq := (s.transport h).txq ++ [b] }
    · rfl
  · next ho => simp [ho, State.closedEffect] at hn

end Sys2Proof.Machine
end

