-- ==== Sys2Proof/Tests/Slice0.lean ====
section
/-! SUPPORT. Tests: ill-formed words and their rejection, decoding of words written out from table 5.1, one step of
each instruction against spec/95_test_vectors.md, and a witness for the hypotheses of every statement. -/

namespace Sys2Proof.Tests

open Sys2Proof.Machine

/-! ### Well-formedness: one ill-formed term for each check (R61, U9) -/

/-- `cmd = 0`. -/
theorem test_wf_cmd_zero :
    (⟨0#2, false, false, 0#8⟩ : TFields).cmdOk = false ∧
    (⟨0#2, false, false, 0#8⟩ : TFields).wf = false ∧
    (⟨0#2, false, false, 0#8⟩ : TFields).rejects = some .cmdZero := by decide

/-- A GETCFG with `timing`, one with `par`, one with `wdata`; a WRITE with `par`; a SETCFG with `wdata`. -/
theorem test_wf_unused_bits :
    (⟨1#2, true, false, 0#8⟩ : TFields).unusedOk = false ∧
    (⟨1#2, false, true, 0#8⟩ : TFields).unusedOk = false ∧
    (⟨1#2, false, false, 1#8⟩ : TFields).unusedOk = false ∧
    (⟨3#2, false, true, 5#8⟩ : TFields).unusedOk = false ∧
    (⟨2#2, true, false, 1#8⟩ : TFields).rejects = some .unusedBits := by decide

/-- A SETCFG with `timing = 0`. -/
theorem test_wf_timing_zero :
    (⟨2#2, false, true, 0#8⟩ : TFields).timingOk = false ∧
    (⟨2#2, false, true, 0#8⟩ : TFields).wf = false ∧
    (⟨2#2, false, true, 0#8⟩ : TFields).rejects = some .timingZero := by decide

/-! ### Decoding: words written out bit by bit from table 5.1 -/

/-- `0xxxxxxxxbbbbbbbb` with x = 11111111, b = 00110111 (0x0FF37). -/
theorem test_decode_par8 : decodeQ 0b01111111100110111#17 = .par8 0xFF 0x37 := by decide

/-- `1mmmmmmmmbbbbbbbb` with m = 00000010, b = 10100010. -/
theorem test_decode_send9 : decodeQ 0b10000001010100010#17 = .send9 0x02 0xA2 := by decide

/-- `010000000000` (0x400). -/
theorem test_decode_getcfg : decodeT 0b010000000000#12 = .ok .getcfg := by rfl

/-- `101p00000000` with p = 0 (0xA00, EVEN) and p = 1 (0xB00, ODD). -/
theorem test_decode_setcfg :
    decodeT 0b101000000000#12 = .ok (.setcfg .even) ∧ decodeT 0b101100000000#12 = .ok (.setcfg .odd) :=
  ⟨rfl, rfl⟩

/-- `1100dddddddd` with d = 00000101, 00000000, 11111111. -/
theorem test_decode_write :
    decodeT 0b110000000101#12 = .ok (.write 0x05) ∧ decodeT 0b110000000000#12 = .ok (.write 0x00) ∧
    decodeT 0b110011111111#12 = .ok (.write 0xFF) := ⟨rfl, rfl, rfl⟩

/-- Words beside the table's (R61): `cmd = 0`, an unused bit of each command, `timing = 0`. -/
theorem test_decode_rejects :
    decodeT 0x000#12 = .error .cmdZero ∧ decodeT 0x3FF#12 = .error .cmdZero ∧
    decodeT 0x401#12 = .error .unusedBits ∧ decodeT 0x600#12 = .error .unusedBits ∧
    decodeT 0xA01#12 = .error .unusedBits ∧ decodeT 0xD00#12 = .error .unusedBits ∧
    decodeT 0x800#12 = .error .timingZero ∧ decodeT 0x900#12 = .error .timingZero :=
  ⟨rfl, rfl, rfl, rfl, rfl, rfl, rfl, rfl⟩

/-- The encoder writes table 5.1's words. -/
theorem test_encode :
    encode (.par8 0x00 0x37) = .q 0x00037#17 ∧ encode (.send9 0x80 0x37) = .q 0x18037#17 ∧
    encode .getcfg = .t 0x400#12 ∧ encode (.setcfg .odd) = .t 0xB00#12 ∧
    encode (.write 0xA2) = .t 0xCA2#12 := by decide

/-! ### One step of each instruction -/

/-- The opaque part of a Config that meets premise P2. -/
def goodOpq : Opaque := Config.framedCfg.opq

/-- An open transport with polarity p and queue q, nothing on the wire. -/
def openT (p : Polarity) (q : List Byte) : Transport := ⟨true, ⟨goodOpq, p⟩, q, []⟩

/-- Instance 0 in e, Handle 0 in t, instance 0's answer a on the interface, the events of `sched` to come. -/
def stateOf (e : Encoder) (t : Transport) (a : BitVec 3) (sched : List Event) : State :=
  { (State.reset.setEncoder 0 e).setTransport 0 t with
    tport := ⟨some 0, 0, Config.zeroOpaque, a⟩
    sched := sched }

/-- The same with another user's command on the interface. -/
def userOf (t : Transport) (a : BitVec 3) : State :=
  { State.reset.setTransport 0 t with tport := ⟨none, 0, goodOpq, a⟩ }

/-- The state after a step, s itself where the step stops. -/
def after (s : State) : State :=
  match step s with
  | .next t => t
  | .fault _ => s
  | .refused _ => s

/-- The response word the step from s delivers. -/
def respOf (s : State) : Option (BitVec 3) := (after s).rsp.map Prod.snd

/-- The latches of `SEND9 0, b, m`. -/
def latB (b : Byte) (m : Bool) : Latches := ⟨0, b, m⟩

/-- Section 2 of 95_test_vectors.md: 0x00037 and 0x0FF37 answer 0b001, 0x000FF answers 0b000. -/
theorem test_par8_vectors :
    respOf (State.reset.withFetchWord 17 0x00037) = some 0b001#3 ∧
    respOf (State.reset.withFetchWord 17 0x0FF37) = some 0b001#3 ∧
    respOf (State.reset.withFetchWord 17 0x000FF) = some 0b000#3 := by decide

/-- Section 2, row 0xA2 and row 0xFF: s1, s2, s3 and the result. -/
theorem test_par8_fold :
    foldS1 0xA2 = 0xA8 ∧ foldS2 0xA2 = 0x82 ∧ foldS3 0xA2 = 0xC3 ∧ par8 0xA2 = true ∧
    foldS1 0xFF = 0xF0 ∧ foldS2 0xFF = 0xCC ∧ foldS3 0xFF = 0xAA ∧ par8 0xFF = false := by decide

/-- Program P1, event 1: word 0x10105 gives lat.b = 0x05, lat.m = 1, phase RD, and GETCFG 0x400 is presented. -/
theorem test_send9_accept :
    (after (State.reset.withFetchWord 17 0x10105)).encoder 0 = .rd (latB 0x05 true) ∧
    (after (State.reset.withFetchWord 17 0x10105)).trace = [.command 0 0x400#12 0 none] ∧
    respOf (State.reset.withFetchWord 17 0x10105) = none := by decide

/-- Program P3: raw marker 0x80 is 1, 0x00 is 0 (not a truncation). -/
theorem test_send9_marker :
    (after (State.reset.withFetchWord 17 0x18037)).encoder 0 = .rd (latB 0x37 true) ∧
    (after (State.reset.withFetchWord 17 0x10037)).encoder 0 = .rd (latB 0x37 false) := by decide

/-- Program P1, event 2: Ok with EVEN in force; np = 0, m = 1 select ODD: SETCFG 0xB00. -/
theorem test_getcfg_ok :
    (after (stateOf (.rd (latB 0x05 true)) (openT .even []) 0 [.answer 0 0b000#3 Config.zeroOpaque])).trace =
      [.command 0 0xB00#12 0 (some goodOpq)] ∧
    (after (stateOf (.rd (latB 0x05 true)) (openT .even []) 0 [.answer 0 0b000#3 Config.zeroOpaque])).encoder 0 =
      .ap (latB 0x05 true) ⟨goodOpq, .even⟩ := by decide

/-- Section 5: answer words 0b100 and 0b111 to a GETCFG both give (ConfigReadError, 0). -/
theorem test_getcfg_err :
    respOf (stateOf (.rd (latB 0xFF true)) (openT .even []) 0 [.answer 0 0b100#3 Config.zeroOpaque]) =
      some 0b010#3 ∧
    respOf (stateOf (.rd (latB 0xFF true)) (openT .even []) 0 [.answer 0 0b111#3 Config.zeroOpaque]) =
      some 0b010#3 := by decide

/-- Section 6: with `txq = [0x11]` under EVEN the SETCFG is held; the drain step emits (0x11, 0); then it takes
effect, and WRITE 0xCFF is presented. -/
theorem test_setcfg_held :
    let s := stateOf (.ap (latB 0xFF true) ⟨goodOpq, .even⟩) (openT .even [0x11]) 0
      [.answer 0 0b000#3 Config.zeroOpaque]
    (after s).transport 0 = ⟨true, ⟨goodOpq, .even⟩, [], [⟨0x11, false⟩]⟩ ∧
    (after s).sched = s.sched ∧
    (after (after s)).transport 0 = ⟨true, ⟨goodOpq, .odd⟩, [], [⟨0x11, false⟩]⟩ ∧
    (after (after s)).trace = [.command 0 0xCFF#12 0 none] := by decide

/-- Section 6: Err with a Byte queued is enabled at once, (ConfigApplyError, 0), and the queue is kept. -/
theorem test_setcfg_err :
    let s := stateOf (.ap (latB 0xFF true) ⟨goodOpq, .even⟩) (openT .even [0x11]) 0
      [.answer 0 0b100#3 Config.zeroOpaque]
    respOf s = some 0b100#3 ∧ ((after s).transport 0).txq = [0x11] := ⟨rfl, rfl⟩

/-- Section 6: `txq = [0x05]`, WRITE 0xA0 answered Ok(1) leaves [0x05, 0xA0]; (OK, 1). -/
theorem test_write_one :
    let s := stateOf (.wr (latB 0xA0 false) ⟨goodOpq, .even⟩) (openT .even [0x05]) 0
      [.answer 0 0b001#3 Config.zeroOpaque]
    ((after s).transport 0).txq = [0x05, 0xA0] ∧ respOf s = some 0b001#3 := by decide

/-- D17: with `TXQ_DEPTH` 1 and 0x05 queued an Ok(1) to WRITE 0xA0 waits for the emission of (0x05, 0), then queues
0xA0 and responds (OK, 1); an Ok(0) is delivered at once. -/
theorem test_write_full :
    let s := fun a : BitVec 3 => { stateOf (.wr (latB 0xA0 false) ⟨goodOpq, .even⟩) (openT .even [0x05]) 0
      [.answer 0 a Config.zeroOpaque] with txqDepth := some 1 }
    (after (s 0b001)).transport 0 = ⟨true, ⟨goodOpq, .even⟩, [], [⟨0x05, false⟩]⟩ ∧
    respOf (s 0b001) = none ∧ ((after (after (s 0b001))).transport 0).txq = [0xA0] ∧
    respOf (after (s 0b001)) = some 0b001#3 ∧ respOf (s 0b000) = some 0b000#3 := by decide

/-- Section 5: answer 0b010 to a WRITE counts as Ok(0), 0b011 as Ok(1), 0b100 is WriteError. -/
theorem test_write_answers :
    let s := fun a : BitVec 3 => stateOf (.wr (latB 0xFF true) ⟨goodOpq, .odd⟩) (openT .odd []) 0
      [.answer 0 a Config.zeroOpaque]
    respOf (s 0b010) = some 0b000#3 ∧ ((after (s 0b010)).transport 0).txq = [] ∧
    respOf (s 0b011) = some 0b001#3 ∧ respOf (s 0b100) = some 0b110#3 ∧
    ((after (s 0b100)).transport 0).txq = [] := by decide

/-- Section 6: a drain step under ODD of 0x01 emits (0x01, 0), word 0x001; under EVEN (0x01, 1), word 0x101. -/
theorem test_drain :
    ((after (stateOf .idle (openT .odd [0x01, 0x03]) 0 [])).transport 0).wire.map w9 = [0x001#9] ∧
    ((after (stateOf .idle (openT .even [0x01, 0x03]) 0 [])).transport 0).wire.map w9 = [0x101#9] := by decide

/-- Program P6: a change at once by another user, before the frame: 0x01 goes out with ninth bit 0. -/
theorem test_user_change_at_once :
    let s := stateOf .idle (openT .even [0x01]) 0 [.command 0x900#12 0 goodOpq 0#3, .drain 0]
    ((after (after s)).transport 0).wire.map w9 = [0x001#9] := by decide

/-- From reset each of the five rows' words runs in the very next step (log 22). -/
theorem test_fetch_runs :
    respOf (State.reset.withFetchWord 24 0x00080) = some 0b001#3 ∧
    ((after (State.reset.withFetchWord 24 0x10080)).encoder 0).phase = .RD ∧
    ((after (State.reset.withFetchWord 16 0x400)).encoder 0).phase = .AP ∧
    ((after (State.reset.withFetchWord 16 0xB00)).encoder 0).phase = .WR ∧
    ((after (State.reset.withFetchWord 16 0xC05)).transport 0).txq = [0x05] := by decide

/-! ### Witnesses: a state and operands that meet the hypotheses of each statement -/

/-- CommandWordsExact: each disjunct, WRITE at both ends of its range. -/
theorem test_hyp_commandWords :
    decodeT 0x400#12 = .ok .getcfg ∧ decodeT 0xA00#12 = .ok (.setcfg .even) ∧
    decodeT 0xB00#12 = .ok (.setcfg .odd) ∧ decodeT (0xC00#12 ||| (0x00#8).setWidth 12) = .ok (.write 0x00) ∧
    decodeT (0xC00#12 ||| (0xFF#8).setWidth 12) = .ok (.write 0xFF) := ⟨rfl, rfl, rfl, rfl, rfl⟩

/-- MarkerCanonical. -/
theorem test_hyp_marker : (0x02#8 : Byte) ≠ 0 ∧ (0xFF#8 : Byte) ≠ 0 := by decide

/-- ClassifierLaws: 0x80 is 0x01 with bits 0 and 7 exchanged. -/
theorem test_hyp_permutation :
    ∀ i : Fin 8, (0x80#8).getLsbD i.val = (0x01#8).getLsbD ((Equiv.swap (0 : Fin 8) 7) i).val := by decide

/-- An idle instance, and one that is not, with Handle 0 open. -/
def idleS : State := stateOf .idle (openT .even []) 0 []
/-- Instance 0 in RD, answered a. -/
def rdS (a : BitVec 3) : State := stateOf (.rd (latB 0xA2 false)) (openT .even []) a []
/-- Instance 0 in AP with queue q, answered a. -/
def apS (q : List Byte) (a : BitVec 3) : State :=
  stateOf (.ap (latB 0xA2 false) ⟨goodOpq, .even⟩) (openT .even q) a []
/-- Instance 0 in WR, answered a. -/
def wrS (a : BitVec 3) : State := stateOf (.wr (latB 0xA2 false) ⟨goodOpq, .even⟩) (openT .odd []) a []

/-- Par8Responds: IDLE, not IDLE, the answer of a PAR8, a word with bit 16 clear. -/
theorem test_hyp_par8 :
    (idleS.encoder idleS.caller.enc).phase = .IDLE ∧
    ((rdS 0).encoder (rdS 0).caller.enc).phase ≠ .IDLE ∧
    exec (.par8 0 0x80) idleS = .next (idleS.respond 0 ⟨.ok, true⟩) ∧
    (0x0FFFF#17).getLsbD 16 = false := ⟨rfl, by decide, rfl, rfl⟩

/-- SendAccepted. -/
theorem test_hyp_send9 :
    (idleS.encoder idleS.caller.enc).phase = .IDLE ∧ ((wrS 0).encoder (wrS 0).caller.enc).phase ≠ .IDLE := by
  decide

/-- ModeMultiplexer: the same Byte and marker, another Handle and Config. -/
theorem test_hyp_mux :
    (⟨0, 0xA2, true⟩ : Latches).b = (⟨7, 0xA2, true⟩ : Latches).b ∧
    (⟨0, 0xA2, true⟩ : Latches).m = (⟨7, 0xA2, true⟩ : Latches).m ∧
    (⟨goodOpq, .even⟩ : Cfg) ≠ ⟨Config.zeroOpaque, .odd⟩ := by decide

/-- ReadCompletes and ReadFails. -/
theorem test_hyp_read :
    (rdS 0b000).tport.issuer = some 0 ∧ (rdS 0b000).encoder 0 = .rd (latB 0xA2 false) ∧
    ((rdS 0b000).transport 0).isOpen = true ∧ ansErr (rdS 0b011).tport.ans = false ∧
    ansErr (rdS 0b100).tport.ans = true := by decide

/-- ApplyCompletes (empty queue), ApplyFails, ApplyHeld (a Byte queued). -/
theorem test_hyp_apply :
    (apS [] 0b000).tport.issuer = some 0 ∧
    (apS [] 0b000).encoder 0 = .ap (latB 0xA2 false) ⟨goodOpq, .even⟩ ∧
    ((apS [] 0b000).transport 0).isOpen = true ∧ ansErr (apS [] 0b000).tport.ans = false ∧
    ((apS [] 0b000).transport 0).txq = [] ∧ ansErr (apS [0x11] 0b100).tport.ans = true ∧
    (apS [0x11] 0b000).encoder 0 = .ap (latB 0xA2 false) ⟨goodOpq, .even⟩ ∧
    ((apS [0x11] 0b000).transport 0).txq ≠ [] := by decide

/-- ApplyHeld, another user's; OtherUsersCommands, with an empty queue too. -/
theorem test_hyp_user :
    (userOf (openT .even [0x11]) 0).tport.issuer = none ∧
    ((userOf (openT .even [0x11]) 0).transport (userOf (openT .even [0x11]) 0).tport.handle).isOpen = true ∧
    ansErr (userOf (openT .even [0x11]) 0).tport.ans = false ∧
    ((userOf (openT .even [0x11]) 0).transport 0).txq ≠ [] ∧
    ((userOf (openT .even []) 0).transport 0).isOpen = true ∧
    ((userOf (openT .even []) 0).transport 0).txq = [] := by decide

/-- WriteCompletes and WriteFails. -/
theorem test_hyp_write :
    (wrS 0b001).tport.issuer = some 0 ∧ (wrS 0b001).encoder 0 = .wr (latB 0xA2 false) ⟨goodOpq, .even⟩ ∧
    ((wrS 0b001).transport 0).isOpen = true ∧ ansErr (wrS 0b001).tport.ans = false ∧
    ansErr (wrS 0b100).tport.ans = true := by decide

/-- Instance 0 in WR, answered Ok(1), with the queue full at depth 1. -/
def fullS : State :=
  { stateOf (.wr (latB 0xA2 false) ⟨goodOpq, .even⟩) (openT .odd [0x11]) 0b001 [] with txqDepth := some 1 }

/-- WriteHeld, both users; WriteCompletes with room in a bounded queue; OtherUsersCommands with a WRITE not held. -/
theorem test_hyp_writeHeld :
    fullS.tport.issuer = some 0 ∧ fullS.encoder 0 = .wr (latB 0xA2 false) ⟨goodOpq, .even⟩ ∧
    (fullS.transport 0).isOpen = true ∧ ansErr fullS.tport.ans = false ∧ ansCount fullS.tport.ans = true ∧
    (fullS.transport 0).full fullS.txqDepth = true ∧
    ({ userOf (openT .even [0x11]) 0b001 with txqDepth := some 1 } : State).writeHeld 0 0b001 = true ∧
    ((wrS 0b001).transport 0).full (some 1) = false ∧
    (userOf (openT .even []) 0b001).writeHeld 0 0b001 = false := by decide

/-- CommandNotPresented: GETCFG in AP, the other mode in AP (ODD is selected), the other Byte in WR. -/
theorem test_hyp_notPresented :
    (apS [] 0).tport.issuer = some 0 ∧ ((apS [] 0).encoder 0).command ≠ some .getcfg ∧
    ((apS [] 0).encoder 0).command ≠ some (.setcfg .even) ∧
    ((apS [] 0).encoder 0).command = some (.setcfg .odd) ∧
    ((wrS 0).encoder 0).command ≠ some (.write 0xA3) := by decide

/-- ClosedHandleFollowsAnswer: RD, AP and WR on a Handle that is not open. -/
theorem test_hyp_closed :
    let s := fun e : Encoder => stateOf e Transport.absent 0 []
    (s (.rd (latB 1 true))).tport.issuer = some 0 ∧ ((s (.rd (latB 1 true))).transport 0).isOpen = false ∧
    (s (.rd (latB 1 true))).encoder 0 = .rd (latB 1 true) ∧
    (s (.ap (latB 1 true) Config.zeroCfg)).encoder 0 = .ap (latB 1 true) Config.zeroCfg ∧
    (s (.wr (latB 1 true) Config.zeroCfg)).encoder 0 = .wr (latB 1 true) Config.zeroCfg := by decide

/-- AnswerBitsIgnored: in each phase two answers that differ in ignored bits only, and what a command does with one
of them: GETCFG on an open Handle answered Ok and Err, SETCFG, WRITE. -/
theorem test_hyp_answerBits :
    ansErr 0b000#3 = ansErr 0b011#3 ∧ ansErr 0b100#3 = ansErr 0b111#3 ∧
    ansErr 0b001#3 = ansErr 0b011#3 ∧ ansCount 0b001#3 = ansCount 0b011#3 ∧
    ((rdS 0).encoder 0).command = some .getcfg ∧ ((rdS 0).transport 0).isOpen = true ∧
    exec .getcfg (rdS 0b100) = .next ((rdS 0b100).finish 0 ⟨.configReadError, false⟩) ∧
    ((apS [] 0).encoder 0).command = some (.setcfg .odd) ∧
    exec (.setcfg .odd) (apS [0x11] 0b000) = .next (apS [0x11] 0b000) ∧
    exec (.setcfg .odd) (apS [0x11] 0b011) = .next (apS [0x11] 0b011) ∧
    ((wrS 0).encoder 0).command = some (.write 0xA2) ∧
    exec (.write 0xA2) (wrS 0b000) = .next ((wrS 0b000).finish 0 ⟨.ok, false⟩) :=
  ⟨rfl, rfl, rfl, rfl, rfl, rfl, rfl, rfl, rfl, rfl, rfl, rfl⟩

/-- AnswerBitsIgnored on a Handle that is not open: a GETCFG answered Err, by 0b100 and by 0b111; and one answered
Ok by 0b000 and by 0b001, which differ in `count` only. -/
theorem test_hyp_answerBits_closed :
    let s := fun a : BitVec 3 => stateOf (.rd (latB 0xA2 false)) Transport.absent a []
    ((s 0).transport 0).isOpen = false ∧ ((s 0).encoder 0).command = some .getcfg ∧
    ansErr 0b100#3 = true ∧ ansErr 0b111#3 = true ∧ ansPar 0b000#3 = ansPar 0b001#3 ∧
    (∀ a, ∃ t, exec .getcfg (s a) = .next t) :=
  ⟨rfl, rfl, rfl, rfl, rfl, fun a => by
    simp only [exec, execGetcfg]
    repeat (first | split | exact ⟨_, rfl⟩)⟩

/-- DrainEmits, both clauses; InheritedNinthBit: EVEN is the mode of `SEND9 h, 0x01, 0x01`, 0x03 is queued. -/
theorem test_hyp_drain :
    ((stateOf .idle (openT .even [0x03, 0x07]) 0 []).transport 0).txq = 0x03 :: [0x07] ∧
    ((stateOf .idle (openT .even [0x03, 0x07]) 0 []).transport 0).framed Config.p2 = true ∧
    (idleS.transport 0).txq = [] ∧
    ((stateOf .idle (openT .even [0x03, 0x07]) 0 []).transport 0).cfg.parity =
      muxMode (par8 0x01) (canon 0x01) := by decide

/-- A queued Byte and no event: a step, on an open Handle. -/
def drainS : State := stateOf .idle (openT .even [0x03]) 0 []
/-- Instance 0 in WR, answered Ok(1) by the next event. -/
def writeS : State := { wrS 0 with sched := [.answer 0 0b001#3 Config.zeroOpaque] }
/-- Another user discards and reconfigures. -/
def flushS : State := stateOf .idle (openT .even [0x03]) 0 [.flush 0 ⟨goodOpq, .odd⟩]
/-- Instance 0 in AP with the queue empty, answered Ok by the next event. -/
def applyS : State := { apS [] 0 with sched := [.answer 0 0b000#3 Config.zeroOpaque] }

/-- QueueFirstInFirstOut, WireAppendOnly: a step that leaves the queue, one that appends, one that emits, one that
discards. -/
theorem test_hyp_queue :
    step applyS = .next (after applyS) ∧ (applyS.transport 0).isOpen = true ∧
    step writeS = .next (after writeS) ∧ ((after writeS).transport 0).txq = [0xA2] ∧
    step drainS = .next (after drainS) ∧ ((after drainS).transport 0).wire = [⟨0x03, false⟩] ∧
    step flushS = .next (after flushS) ∧ ((after flushS).transport 0).txq = [] :=
  ⟨rfl, rfl, rfl, rfl, rfl, rfl, rfl, rfl⟩

/-- A Handle that is not open, with a frame on its wire and a Byte queued, and the next event e. -/
def closedS (e : Event) : State :=
  stateOf (.rd (latB 0xA2 false)) ⟨false, ⟨goodOpq, .even⟩, [0x07], [⟨0x03, false⟩]⟩ 0 [e]

/-- WireAppendOnly on a Handle that is not open: a command's answer, an opening, and the frame still there after it. -/
theorem test_hyp_wire_closed :
    let answered := closedS (.answer 0 0b000#3 goodOpq)
    let opened := closedS (.connect 0 ⟨goodOpq, .odd⟩)
    (answered.transport 0).isOpen = false ∧ (answered.transport 0).wire = [⟨0x03, false⟩] ∧
    step answered = .next (after answered) ∧ step opened = .next (after opened) ∧
    ((after opened).transport 0).wire = [⟨0x03, false⟩] := ⟨rfl, rfl, rfl, rfl, rfl⟩

/-- OpeningAndClosing and OpenChangesOnlyBy: an open Handle is closed, one that is not is opened. -/
theorem test_hyp_open :
    let closing := stateOf .idle (openT .even [0x03]) 0 [.disconnect 0]
    let opening := closedS (.connect 0 ⟨goodOpq, .odd⟩)
    closing.sched = .disconnect 0 :: [] ∧ step closing = .next (after closing) ∧
    (closing.transport 0).isOpen = true ∧ ((after closing).transport 0).isOpen = false ∧
    opening.sched = .connect 0 ⟨goodOpq, .odd⟩ :: [] ∧ step opening = .next (after opening) ∧
    (opening.transport 0).isOpen = false ∧ ((after opening).transport 0).isOpen = true := by
  refine ⟨rfl, rfl, rfl, rfl, rfl, rfl, rfl, rfl⟩

/-- ConfigWrittenOnlyBy: the block's SETCFG, another user's command, a discard and an opening change the Config;
so does a command in flight at a reset. -/
theorem test_hyp_config :
    let user := stateOf .idle (openT .even []) 0 [.command 0xB00#12 0 goodOpq 0#3]
    let opening := stateOf .idle (openT .even []) 0 [.connect 0 ⟨goodOpq, .odd⟩]
    let fate := { apS [] 0 with sched := [.reset 0 (some 0#3)] }
    ((after applyS).transport 0).cfg ≠ (applyS.transport 0).cfg ∧
    ((after user).transport 0).cfg ≠ (user.transport 0).cfg ∧
    ((after flushS).transport 0).cfg ≠ (flushS.transport 0).cfg ∧
    ((after opening).transport 0).cfg ≠ (opening.transport 0).cfg ∧
    ((after fate).transport 0).cfg ≠ (fate.transport 0).cfg := by decide

/-- OneStepKeepsPendingFrames: the WRITE of instance 0 under exclusivity, accepted, and a drain step. -/
theorem test_hyp_pending :
    writeS.sendReady 0 0 = true ∧ writeS.exclusiveNext 0 0 = true ∧ step writeS = .next (after writeS) ∧
    acceptedFrames 0 0 writeS (after writeS) = [⟨0xA2, false⟩] ∧
    drainS.sendReady 0 0 = true ∧ drainS.exclusiveNext 0 0 = true := ⟨rfl, rfl, rfl, rfl, rfl, rfl⟩

/-- EncoderMovesOnlyByTable and ResponseEndsOperation: a step that moves instance 0 and responds. -/
theorem test_hyp_moves :
    step writeS = .next (after writeS) ∧ (after writeS).encoder 0 ≠ writeS.encoder 0 ∧
    (after writeS).rsp = some (0, 0b001#3) := ⟨rfl, by decide, rfl⟩

/-- HandlesIsolated: a WRITE by instance 0 completes; it addresses Handle 0 and not Handle 1. -/
theorem test_hyp_isolated :
    exec (.write 0xA2) (wrS 0b000) = .next ((wrS 0b000).finish 0 ⟨.ok, false⟩) ∧
    (wrS 0b000).addressed (.write 0xA2) ≠ some 1 ∧ (wrS 0b000).actor (.write 0xA2) ≠ some 1 :=
  ⟨rfl, by decide, by decide⟩

/-- QueuesDrain. -/
theorem test_hyp_drains :
    tableWf Transport.absent drainS.trans = true ∧ drainS.sched = [] ∧ drainS.queuedTotal ≤ 1 := by decide

/-- OtherUsersReconfigure, both clauses, both polarities. -/
theorem test_hyp_reconfigure :
    flushS.sched = .flush 0 ⟨goodOpq, .odd⟩ :: [] ∧ (flushS.transport 0).isOpen = true ∧
    (stateOf .idle (openT .even [3]) 0 [.command 0x900#12 0 goodOpq 0#3]).sched =
      .command (if Polarity.odd.bit then 0x900#12 else 0x800#12) 0 goodOpq 0#3 :: [] ∧
    (stateOf .idle (openT .even [3]) 0 [.command 0x800#12 0 goodOpq 0#3]).sched =
      .command (if Polarity.even.bit then 0x900#12 else 0x800#12) 0 goodOpq 0#3 :: [] ∧
    ansErr 0#3 = false ∧ ansErr 0b100#3 = true := by decide

/-- StepRunsDecoded: a request word, and the command word instance 0 drives. -/
theorem test_hyp_stepRuns :
    let s := stateOf .idle (openT .even []) 0 [.request 0 0x10037#17 0]
    s.blockedOn (.request 0 0x10037#17 0) = none ∧
    s.fetchWord (.request 0 0x10037#17 0) = some (.q 0x10037#17) ∧
    wordOfTable 17 0x10037 = some (.q 0x10037#17) ∧
    decodeTableWord 17 0x10037 = some (.send9 0x00 0x37) ∧
    applyS.blockedOn (.answer 0 0b000#3 Config.zeroOpaque) = none ∧
    applyS.fetchWord (.answer 0 0b000#3 Config.zeroOpaque) = some (.t 0xB00#12) ∧
    wordOfTable 12 0xB00 = some (.t 0xB00#12) ∧ decodeTableWord 12 0xB00 = some (.setcfg .odd) := by decide

/-- HeldEventWaits: the block's answer, another user's command, the command in flight at a reset. -/
theorem test_hyp_held :
    (apS [0x11] 0).blockedOn (.answer 0 0b000#3 Config.zeroOpaque) = some 0 ∧
    (apS [0x11] 0).blockedOn (.command 0xB00#12 0 goodOpq 0#3) = some 0 ∧
    (apS [0x11] 0).blockedOn (.reset 0 (some 0#3)) = some 0 ∧
    (apS [] 0).blockedOn (.answer 0 0b000#3 Config.zeroOpaque) = none ∧
    (apS [0x11] 0).blockedOn (.answer 0 0b100#3 Config.zeroOpaque) = none := by decide

/-- HeldEventWaits with the queue full: the block's WRITE, another user's, the one in flight at a reset; not held with
an answer Ok(0) or with room. -/
theorem test_hyp_held_full :
    fullS.blockedOn (.answer 0 0b001#3 Config.zeroOpaque) = some 0 ∧
    fullS.blockedOn (.command 0xC05#12 0 goodOpq 0b001#3) = some 0 ∧
    fullS.blockedOn (.reset 0 (some 0b001#3)) = some 0 ∧
    fullS.blockedOn (.answer 0 0b000#3 Config.zeroOpaque) = none ∧
    ({ fullS with txqDepth := some 2 } : State).blockedOn (.answer 0 0b001#3 Config.zeroOpaque) = none := by
  refine ⟨rfl, rfl, rfl, rfl, rfl⟩

/-- StepStopsOnlyOnIllegalWord: the two refusals. -/
theorem test_hyp_refused :
    step (stateOf .idle (openT .even []) 0 [.command 0x000#12 0 goodOpq 0#3]) =
      .refused (.illegalCommandWord 0x000#12) ∧
    step (stateOf .idle (openT .even []) 0 [.command 0xFFF#12 0 goodOpq 0#3]) =
      .refused (.illegalCommandWord 0xFFF#12) := ⟨rfl, rfl⟩

/-- InvariantKept and RecordInOrder: a state with a record that meets both, and its next state. -/
theorem test_hyp_invariants :
    let s := { after (State.reset.withFetchWord 17 0x10105) with sched := [.answer 0 0b100#3 Config.zeroOpaque] }
    s.inv = true ∧ s.traceFollows 0 = true ∧ s.trace ≠ [] ∧ step s = .next (after s) := by
  refine ⟨by decide, by decide, by decide, rfl⟩

/-- InvariantKept at the edge of the capacity: depth 1, the queue empty before the step and full after it. -/
theorem test_hyp_invariant_depth :
    let s := { writeS with txqDepth := some 1 }
    s.inv = true ∧ step s = .next (after s) ∧ ((after s).transport 0).full (after s).txqDepth = true := by
  refine ⟨by decide, rfl, rfl⟩

/-- ResetEvent: a reset in WR, with no effect and with the effect of an Ok(1). -/
theorem test_hyp_reset :
    ({ wrS 0 with sched := [.reset 0 none] } : State).sched = .reset 0 none :: [] ∧
    ({ wrS 0 with sched := [.reset 0 (some 1#3)] } : State).blockedOn (.reset 0 (some 1#3)) = none ∧
    ((after { wrS 0 with sched := [.reset 0 (some 1#3)] }).transport 0).txq = [0xA2] := by decide

/-- FrameCarriesMarker and WholeSend: `SEND9 0, 0xFF, 0x01` (word 0x101FF) with 0x11 queued under EVEN, program
P2, answered Ok, Ok, Ok(1). -/
def sendS : State :=
  stateOf .idle (openT .even [0x11]) 0
    [.request 0 0x101FF#17 0, .answer 0 0b000#3 goodOpq, .answer 0 0b000#3 goodOpq, .answer 0 0b001#3 goodOpq]

/-- The hypotheses of both statements, and program P2 run e: wire 0x011, 0x1FF once the queue has drained. -/
theorem test_hyp_send :
    decodeQ 0x101FF#17 = .send9 0x01 0xFF ∧ sendS.encoder 0 = .idle ∧ sendS.premises 0 = true ∧
    exclusiveRun 0 0 6 sendS = true ∧ ansErr 0b000#3 = false ∧ sendS.txqDepth ≠ some 0 ∧
    (match runSteps 6 sendS with
      | .next t => (t.transport 0).wire.map w9 = [0x011#9, 0x1FF#9] ∧
          firstResponse 0 (t.trace.drop sendS.trace.length) = some 0b001#3
      | .fault _ => False
      | .refused _ => False) := by
  refine ⟨by decide, by decide, by decide, by decide, by decide, by decide, ?_⟩
  exact ⟨rfl, rfl⟩

/-- Program P6 with the after-drain change its last sentence names: `SEND9 0, 0x01, 0x01` (word 0x10101) under ODD,
then another user's 0xB00, which waits for the frame. -/
def laterS : State :=
  stateOf .idle (openT .odd []) 0
    [.request 0 0x10101#17 0, .answer 0 0b000#3 goodOpq, .answer 0 0b000#3 goodOpq, .answer 0 0b001#3 goodOpq,
      .command 0xB00#12 0 goodOpq 0b000#3]

/-- It keeps the premise up to the emission (log 30), and the frame is (0x01, 1); its own step breaks it. -/
theorem test_p6_after_drain :
    exclusiveRun 0 0 5 laterS = true ∧ exclusiveRun 0 0 6 laterS = false ∧
    (match runSteps 5 laterS with
      | .next t => (t.transport 0).wire = [⟨0x01, true⟩]
      | .fault _ => False
      | .refused _ => False) := by
  refine ⟨by decide, by decide, ?_⟩
  exact rfl

/-- OrdinarySendInherits: `SEND9 0, 0xFF, 0x01` as in sendS, its write answered a, then another user's WRITE of
0x01 (word 0xC01). -/
def mixedS (a : BitVec 3) : State :=
  stateOf .idle (openT .even [0x11]) 0
    [.request 0 0x101FF#17 0, .answer 0 0b000#3 goodOpq, .answer 0 0b000#3 goodOpq, .answer 0 a goodOpq,
      .command (0xC00#12 ||| (0x01#8).setWidth 12) 0 goodOpq 0b001#3, .drain 0, .drain 0]

/-- Its hypotheses, and by hand: PAR8(0x01) = 1, PAR8(0xFF) = 0, marker 1, so 0x01 goes out with 0, for a write
answered Ok(1), Ok(0) and Err. -/
theorem test_hyp_inherits :
    decodeQ 0x101FF#17 = .send9 0x01 0xFF ∧ (mixedS 1).encoder 0 = .idle ∧ (mixedS 1).premises 0 = true ∧
    ansErr 0b001#3 = false ∧ ansCount 0b001#3 = true ∧
    ([0b001#3, 0b000#3, 0b100#3].map fun a =>
      match runSteps 8 (mixedS a) with
      | .next t => ((t.transport 0).wire.map w9, t.sched)
      | .fault _ => ([], [])
      | .refused _ => ([], [])) =
    [([0x011#9, 0x1FF#9, 0x001#9], []), ([0x011#9, 0x001#9], []), ([0x011#9, 0x001#9], [])] :=
  ⟨rfl, rfl, rfl, rfl, rfl, rfl⟩

/-- With room for one Byte the ordinary send waits one step for the Byte of the SEND9, and the frames are the same. -/
theorem test_inherits_depth_one :
    (match runSteps 9 { mixedS 1 with txqDepth := some 1 } with
      | .next t => (t.transport 0).wire.map w9 = [0x011#9, 0x1FF#9, 0x001#9] ∧ t.sched = []
      | .fault _ => False
      | .refused _ => False) := ⟨rfl, rfl⟩

/-- The machine at other types: two Handles, and an opaque part that says nothing. -/
def tinyS (e : Event (Fin 2) Unit) : State (Fin 2) Unit :=
  { (State.resetAt 0 none).setTransport 1 ⟨true, ⟨(), .even⟩, [0x03], []⟩ with sched := [e] }

/-- ArgumentsOnlyCopied: Handles 0 and 1 renamed 0 and 1 of `Handle`, the empty opaque part the default of
`Opaque`; a SEND9 is accepted without a draw, a word without meaning refused. -/
theorem test_hyp_arguments :
    StrictMono (fun h : Fin 2 => (h.val : Handle)) ∧ Function.Injective (fun _ : Unit => (default : Opaque)) ∧
    Config.p2 default = false ∧
    (match runStep execAt (fun _ => false) (tinyS (.request 0 0x10105#17 1)) with
      | .next t => t.draws = 0 ∧ t.encoder 0 = .rd ⟨1, 0x05, true⟩
      | .fault _ => False
      | .refused _ => False) ∧
    runStep execAt (fun _ => false) (tinyS (.command 0x000#12 1 () 0#3)) =
      .refused (.illegalCommandWord 0x000#12) :=
  ⟨fun _ _ h => h, fun _ _ _ => rfl, rfl, ⟨rfl, rfl⟩, rfl⟩

/-- The opaque part of a Handle that was never opened has every field zero (log 13). -/
theorem test_zero_opaque : (Config.zeroOpaque : Opaque) = ⟨0, 0, 0, false, 0⟩ := rfl

end Sys2Proof.Tests
end

section
/-! Operand assembly and the 9-bit word (30_encoding.md R56, R58, R62): one lemma per fact about `canon`, `statusCode`
and `w9`, and the statements about them. -/

namespace Sys2Proof.Machine

/-! ### The canonical marker (R56) -/

theorem canon_eq_false_iff {mk : Byte} : canon mk = false ↔ mk = 0 := by
  simp [canon]

theorem canon_eq_true_iff {mk : Byte} : canon mk = true ↔ mk ≠ 0 := by
  rw [← Bool.not_eq_false, Ne, canon_eq_false_iff]

theorem exec_send9 (mk b : Byte) (s : State) : exec (.send9 mk b) s = execSend9 mk b s := rfl

/-- The canonical form is all of the marker that a SEND9 keeps, whatever the phase of the instance (R56, R81). -/
theorem exec_send9_congr_canon {mk mk' : Byte} (hc : canon mk = canon mk') (b : Byte) (s : State) :
    exec (.send9 mk b) s = exec (.send9 mk' b) s := by
  rw [exec_send9, exec_send9, execSend9, execSend9, hc]

/-- Settles O5: any two nonzero markers have the canonical form 1, and a SEND9 depends on that form alone. -/
theorem markerCanonical : Obligations.MarkerCanonical := by
  refine ⟨fun _ => canon_eq_false_iff, ?_, ?_, fun mk mk' b s hmk hmk' => ?_⟩
  · exact canon_eq_true_iff.mpr (by decide)
  · exact canon_eq_true_iff.mpr (by decide)
  · have hc : canon mk = canon mk' := by
      rw [canon_eq_true_iff.mpr hmk, canon_eq_true_iff.mpr hmk']
    exact exec_send9_congr_canon hc b s

/-! ### The status codes (R58) -/

/-- Settles O6: each code is the one the definition lists. -/
theorem statusCodes : Obligations.StatusCodes := ⟨rfl, rfl, rfl, rfl⟩

/-! ### The 9-bit word of a frame (R62) -/

@[simp] theorem getLsbD_w9_eight (f : Frame) : (w9 f).getLsbD 8 = f.pbit := by
  rw [w9, BitVec.getLsbD_append]
  simp

@[simp] theorem extractLsb'_w9_data (f : Frame) : (w9 f).extractLsb' 0 8 = f.data :=
  BitVec.extractLsb'_append_eq_right

/-- Settles O8: the upper part of the concatenation is the one parity bit, its lower eight bits are the Byte. -/
theorem ninthBitWord : Obligations.NinthBitWord :=
  fun f => ⟨getLsbD_w9_eight f, extractLsb'_w9_data f⟩

end Sys2Proof.Machine
end

section
/-! The parity classifier (40_parity_classifier.md R70 to R74): the three forms of `PAR8` are one function, and what
operation PAR8 answers by the phase it meets. -/

namespace Sys2Proof.Machine

/-! ### The definition and the count of ones (R70) -/

theorem toNat_bxor (x y : Bool) : (x ^^ y).toNat = (x.toNat + y.toNat) % 2 := by
  cases x <;> cases y <;> rfl

/-- Both sides add up the eight bits; the exclusive-or takes the remainder after every addition. -/
theorem par8_toNat (b : Byte) : (par8 b).toNat = popcount b % 2 := by
  have hcount : popcount b = (b.getLsbD 0).toNat + (b.getLsbD 1).toNat + (b.getLsbD 2).toNat +
      (b.getLsbD 3).toNat + (b.getLsbD 4).toNat + (b.getLsbD 5).toNat + (b.getLsbD 6).toNat +
      (b.getLsbD 7).toNat := by
    simp [popcount, List.range_succ, Nat.add_assoc]
  rw [hcount]
  simp only [par8, toNat_bxor]
  omega

/-- One bit alone has parity 1 (R74). -/
theorem par8_single_bit : ∀ i : Fin 8, par8 (1#8 <<< i.val) = true := by decide

/-! ### The fold (R71) -/

/-- One halving stage: the low k bits hold the exclusive-or of the next k bits and of themselves. -/
theorem extractLsb'_xor_ushiftRight (v : Byte) (k : Nat) :
    (v ^^^ v >>> k).extractLsb' 0 k = v.extractLsb' k k ^^^ v.extractLsb' 0 k := by
  apply BitVec.eq_of_getLsbD_eq
  intro i hi
  simp [hi, Bool.xor_comm]

theorem foldS1_low (b : Byte) : (foldS1 b).extractLsb' 0 4 = b.extractLsb' 4 4 ^^^ b.extractLsb' 0 4 :=
  extractLsb'_xor_ushiftRight b 4

theorem foldS2_low (b : Byte) :
    (foldS2 b).extractLsb' 0 2 = (foldS1 b).extractLsb' 2 2 ^^^ (foldS1 b).extractLsb' 0 2 :=
  extractLsb'_xor_ushiftRight (foldS1 b) 2

theorem foldS3_low (b : Byte) : (foldS3 b).getLsbD 0 = ((foldS2 b).getLsbD 1 ^^ (foldS2 b).getLsbD 0) := by
  simp [foldS3, Bool.xor_comm]

theorem getLsbD_foldS1 (b : Byte) (i : Nat) : (foldS1 b).getLsbD i = (b.getLsbD i ^^ b.getLsbD (4 + i)) := by
  rw [foldS1, BitVec.getLsbD_xor, BitVec.getLsbD_ushiftRight]

theorem getLsbD_foldS2 (b : Byte) (i : Nat) :
    (foldS2 b).getLsbD i = ((foldS1 b).getLsbD i ^^ (foldS1 b).getLsbD (2 + i)) := by
  rw [foldS2, BitVec.getLsbD_xor, BitVec.getLsbD_ushiftRight]

/-- Bit 0 of the last stage, followed back through the stages, is the exclusive-or of all eight bits. -/
theorem par8Fold_eq (b : Byte) : par8Fold b = par8 b := by
  rw [par8Fold, foldS3_low, par8]
  simp only [getLsbD_foldS2, getLsbD_foldS1, Nat.reduceAdd, Bool.xor_assoc, Bool.xor_comm, Bool.xor_left_comm]

/-! ### The gate tree (R72): its levels are the low bits of the fold's stages -/

theorem treeT4_eq (b : Byte) : treeT4 b = (foldS1 b).extractLsb' 0 4 := (foldS1_low b).symm

theorem treeT2_eq (b : Byte) : treeT2 b = (foldS2 b).extractLsb' 0 2 := by
  rw [treeT2, treeT4_eq, foldS2_low, BitVec.extractLsb'_extractLsb'_of_le (by decide),
    BitVec.extractLsb'_extractLsb'_of_le (by decide)]

theorem par8Tree_eq (b : Byte) : par8Tree b = par8 b := by
  rw [← par8Fold_eq, par8Fold, foldS3_low, par8Tree, treeT2_eq]
  simp

/-- Settles O10: the definition is the exclusive-or of the bits by its own form, and the count, the fold with its
stages and the tree are each compared with it above. -/
theorem classifierThreeWays : Obligations.ClassifierThreeWays :=
  ⟨fun b => ⟨rfl, par8_toNat b, par8Fold_eq b, foldS1_low b, foldS2_low b, foldS3_low b, par8Tree_eq b,
    treeT4_eq b, treeT2_eq b⟩, by decide, by decide⟩

/-! ### Operation PAR8 (R74) -/

theorem phase_eq_IDLE_iff (e : Encoder) : e.phase = .IDLE ↔ e = .idle := by
  cases e <;> simp [Encoder.phase]

theorem exec_par8 (mk b : Byte) (s : State) : exec (.par8 mk b) s = execPar8 mk b s := rfl

/-- ACCEPT-PAR8 of table 4.1 (R91). -/
theorem exec_par8_idle (mk b : Byte) {s : State} (hs : s.encoder s.caller.enc = .idle) :
    exec (.par8 mk b) s = .next (s.respond s.caller.enc ⟨.ok, par8 b⟩) := by
  rcases execPar8_cases mk b s with ⟨_, e⟩ | ⟨hn, _⟩
  · exact (exec_par8 mk b s).trans e
  · exact absurd hs hn

/-- While the instance is not IDLE the caller waits (R81; log 10). -/
theorem exec_par8_busy (mk b : Byte) {s : State} (hs : s.encoder s.caller.enc ≠ .idle) :
    exec (.par8 mk b) s = .next s := by
  rcases execPar8_cases mk b s with ⟨hi, _⟩ | ⟨_, e⟩
  · exact absurd hi hs
  · exact (exec_par8 mk b s).trans e

/-- `mk` is ignored, whatever the phase (R60, R74). -/
theorem exec_par8_marker (mk mk' b : Byte) (s : State) : exec (.par8 mk b) s = exec (.par8 mk' b) s := rfl

/-- `req_handle` is ignored: with another Handle presented the answer is the same, beside that input (R74). -/
theorem exec_par8_handle {mk b : Byte} {s t : State} (h : Handle) (ht : exec (.par8 mk b) s = .next t) :
    exec (.par8 mk b) { s with caller := ⟨s.caller.enc, h⟩ } = .next { t with caller := ⟨s.caller.enc, h⟩ } := by
  by_cases hs : s.encoder s.caller.enc = .idle
  · rw [exec_par8_idle mk b hs, Host.Outcome.next.injEq] at ht
    subst ht
    exact exec_par8_idle mk b hs
  · rw [exec_par8_busy mk b hs, Host.Outcome.next.injEq] at ht
    subst ht
    exact exec_par8_busy mk b hs

theorem decodeQ_of_op_clear {w : BitVec 17} (hw : w.getLsbD 16 = false) :
    decodeQ w = .par8 (w.extractLsb' 8 8) (w.extractLsb' 0 8) :=
  if_neg (Bool.eq_false_iff.mp hw)

/-- Settles O13: in IDLE the answer is `respond`, whose frame the laws of State give; out of IDLE nothing happens. -/
theorem par8Responds : Obligations.Par8Responds := by
  refine ⟨fun mk b s hs => ?_, fun mk b s hs => ?_, exec_par8_marker, fun b s h t => exec_par8_handle h,
    fun w => decodeQ_of_op_clear, by decide, by decide, par8_single_bit, by decide, by decide, by decide, by decide⟩
  · have hi := (phase_eq_IDLE_iff _).mp hs
    exact ⟨_, exec_par8_idle mk b hi, respond_rsp .., respond_trace .., respond_encs .., respond_trans ..,
      ⟨respond_caller .., respond_tport .., respond_sched .., respond_txqDepth ..⟩, respond_draws ..⟩
  · exact exec_par8_busy mk b fun hi => hs ((phase_eq_IDLE_iff _).mpr hi)

end Sys2Proof.Machine
end

section
/-! The frame sender (41_frame_sender.md R81, R84): what the acceptance of a SEND9 latches and presents, and what the
mode multiplexer reads. -/

namespace Sys2Proof.Machine

/-! ### Acceptance (R81, ACCEPT-SEND9 of R91) -/

theorem exec_send9_idle (mk b : Byte) {s : State} (hs : s.encoder s.caller.enc = .idle) :
    exec (.send9 mk b) s = .next (s.enter s.caller.enc (.rd ⟨s.caller.handle, b, canon mk⟩)) := by
  rcases execSend9_cases mk b s with ⟨_, e⟩ | ⟨hn, _⟩
  · exact (exec_send9 mk b s).trans e
  · exact absurd hs hn

theorem exec_send9_busy (mk b : Byte) {s : State} (hs : s.encoder s.caller.enc ≠ .idle) :
    exec (.send9 mk b) s = .next s := by
  rcases execSend9_cases mk b s with ⟨hi, _⟩ | ⟨_, e⟩
  · exact absurd hi hs
  · exact (exec_send9 mk b s).trans e

/-- `req_ready` is 0 exactly while an operation is under way (R50). -/
theorem reqReady_eq_false_iff (e : Encoder) : e.reqReady = false ↔ e.phase ≠ .IDLE := by
  simp [Encoder.reqReady]

/-- On entering RD the instance presents GETCFG on the latched Handle, with no opaque part (R82). -/
@[simp] theorem issued_rd (k : EncId) (l : Latches) :
    (Encoder.rd l : Encoder).issued k = [.command k 0x400#12 l.h none] := rfl

/-- Settles O14: in IDLE the answer is `enter` into RD, whose frame the laws of State give; out of IDLE neither
request is accepted. -/
theorem sendAccepted : Obligations.SendAccepted := by
  refine ⟨fun mk b s hs => ?_, fun mk b s hs => ?_⟩
  · have hlatched := encoder_enter s s.caller.enc (.rd ⟨s.caller.handle, b, canon mk⟩)
    exact ⟨_, exec_send9_idle mk b ((phase_eq_IDLE_iff _).mp hs), hlatched, congrArg Encoder.phase hlatched,
      by rw [enter_trace, issued_rd], fun k' hk => encoder_enter_other _ _ _ _ hk, enter_trans ..,
      ⟨enter_caller .., enter_tport .., enter_sched .., enter_txqDepth ..⟩, enter_rsp .., enter_draws ..⟩
  · have hbusy : s.encoder s.caller.enc ≠ .idle := fun hi => hs ((phase_eq_IDLE_iff _).mpr hi)
    exact ⟨(reqReady_eq_false_iff _).mpr hs, exec_send9_busy mk b hbusy, exec_par8_busy mk b hbusy⟩

/-! ### The mode multiplexer (R84) -/

theorem muxMode_eq_odd_iff {np m : Bool} : muxMode np m = .odd ↔ np ≠ m := by
  simp [muxMode]

theorem muxMode_eq_even_iff {np m : Bool} : muxMode np m = .even ↔ np = m := by
  simp [muxMode]

/-- `mode = np xor m` under the encoding EVEN = 0, ODD = 1 (R55, R84). -/
theorem bit_muxMode (np m : Bool) : (muxMode np m).bit = (np ^^ m) := by
  by_cases h : np = m
  · rw [muxMode_eq_even_iff.mpr h, h, Bool.xor_self, Polarity.bit]
  · rw [muxMode_eq_odd_iff.mpr h, Bool.xor_iff_ne.mpr h, Polarity.bit]

/-- In AP the word driven depends on the selected mode alone, not on the Handle or on the Config read (R85). -/
theorem cmdWord_ap_congr {l l' : Latches} (hmode : sendMode l = sendMode l') (c c' : Cfg) :
    (Encoder.ap l c).cmdWord = (Encoder.ap l' c').cmdWord := by
  simp only [Encoder.cmdWord, Encoder.command, hmode]

/-- The selection reads `lat.b` and `lat.m` and nothing else of the latches (R83, R84). -/
theorem sendMode_congr {l l' : Latches} (hb : l.b = l'.b) (hm : l.m = l'.m) : sendMode l = sendMode l' := by
  rw [sendMode, sendMode, hb, hm]

/-- Settles O15: the truth table of the multiplexer, the generator's law `pgen_muxMode`, and the word of AP followed
back to the latched Byte and marker. -/
theorem modeMultiplexer : Obligations.ModeMultiplexer :=
  ⟨fun np m => ⟨muxMode_eq_odd_iff, muxMode_eq_even_iff, bit_muxMode np m⟩, pgen_muxMode,
    fun _ _ c c' hb hm => cmdWord_ap_congr (sendMode_congr hb hm) c c'⟩

end Sys2Proof.Machine
end

section
/-! The parity generator (42_transport_interface.md R105): what it computes, and the count of ones in the nine bits
that leave with it. -/

namespace Sys2Proof.Machine

theorem pgen_eq_par8_xor_bit (p : Polarity) (x : Byte) : pgen p x = (par8 x ^^ p.bit) := by
  cases p with
  | even => rw [pgen, Polarity.bit, Bool.xor_false]
  | odd => rw [pgen, Polarity.bit, Bool.xor_true]

theorem getLsbD_w9_of_lt (f : Frame) {i : Nat} (hi : i < 8) : (w9 f).getLsbD i = f.data.getLsbD i := by
  rw [w9, BitVec.getLsbD_append, if_pos hi]

/-- The ninth bit comes on top of the ones of the Byte (R62). -/
theorem popcount_w9 (x : Byte) (b : Bool) : popcount (w9 ⟨x, b⟩) = popcount x + b.toNat := by
  have hlow : (List.range 8).map (fun i => ((w9 ⟨x, b⟩).getLsbD i).toNat) =
      (List.range 8).map fun i => (x.getLsbD i).toNat :=
    List.map_congr_left fun i hi => by rw [getLsbD_w9_of_lt _ (List.mem_range.mp hi)]
  rw [popcount, List.range_succ, List.map_append, List.sum_append, hlow, List.map_singleton,
    List.sum_singleton, getLsbD_w9_eight, popcount]

/-- The generated bit brings the count of ones to the polarity in force: the ones of the Byte are counted twice, once
by themselves and once in the natural parity, and what is left is the bit of the polarity. -/
theorem popcount_w9_pgen (p : Polarity) (x : Byte) : popcount (w9 ⟨x, pgen p x⟩) % 2 = p.bit.toNat := by
  have hbit : p.bit.toNat < 2 := Bool.toNat_lt p.bit
  rw [popcount_w9, pgen_eq_par8_xor_bit, toNat_bxor, par8_toNat]
  omega

/-- Settles O30: the two values are the generator's own equations, and the counts are those of the polarity bits 0
and 1. -/
theorem parityGenerator : Obligations.ParityGenerator :=
  fun x => ⟨rfl, rfl, fun p => pgen_eq_par8_xor_bit p x, popcount_w9_pgen .even x, popcount_w9_pgen .odd x⟩

end Sys2Proof.Machine
end

section
/-! The errors of the block (60_exceptions.md R121, R122, R126): what raising one after a transport effect leaves as it
was, and the Err transitions of GETCFG and SETCFG. -/

namespace Sys2Proof.Machine

/-! ### Raising an error (R126), after an effect that touched the one Handle -/

section Raising
variable {h : Handle} {s u : State} (hu : TouchesOnly h s u) (k : EncId) (x : Status)
include hu

theorem TouchesOnly.raiseError_trace :
    (u.raiseError k x).trace = s.trace ++ [.response k (responseWord ⟨x, false⟩)] := by
  rw [raiseError_eq, finish_trace, hu.trace]

theorem TouchesOnly.raiseError_sameEncodersBut : SameEncodersBut k s (u.raiseError k x) := by
  intro k' hk
  rw [raiseError_eq, encoder_finish_other _ _ _ _ hk, hu.encoder]

theorem TouchesOnly.raiseError_sameTransportsBut : SameTransportsBut h s (u.raiseError k x) := by
  intro h' hh
  rw [raiseError_eq, transport_finish, hu.other h' hh]

theorem TouchesOnly.raiseError_sameInputs : SameInputs s (u.raiseError k x) :=
  ⟨hu.caller, hu.tport, hu.sched, hu.txqDepth⟩

end Raising

/-! ### ConfigReadError (R121) -/

/-- RD-ERR of table 4.1 (R91). -/
theorem exec_getcfg_err {s : State} {k : EncId} {l : Latches} (hk : s.tport.issuer = some k)
    (he : s.encoder k = .rd l) (ha : ansErr s.tport.ans = true) :
    exec .getcfg s = .next ((s.getEffect l.h).raiseError k .configReadError) := by
  simp only [exec, execGetcfg, hk, he, ansErr_getAnswer, ha, if_true]

/-- Settles O17: the answer is `raiseError` after the effect of GETCFG, which on an open Handle is none. -/
theorem readFails : Obligations.ReadFails := by
  intro s k l hk he ha
  have hu := getEffect_touches s l.h
  refine ⟨_, exec_getcfg_err hk he ha, encoder_finish .., finish_rsp .., hu.raiseError_trace k _,
    hu.raiseError_sameEncodersBut k _, hu.raiseError_sameTransportsBut k _, hu.raiseError_sameInputs k _,
    fun ho => ?_⟩
  rw [getEffect_open ho]
  exact ⟨finish_trans .., finish_draws ..⟩

/-! ### ConfigApplyError (R122) -/

/-- Only an answer Ok is held, so an answer Err ends the command whatever is queued (R102). -/
theorem setHeld_of_err (s : State) (h : Handle) {w : BitVec 3} (hw : ansErr w = true) :
    s.setHeld h w = false := by
  rw [← Bool.not_eq_true, setHeld_iff, hw]
  simp

/-- AP-ERR of table 4.1 (R91). -/
theorem exec_setcfg_err {s : State} {k : EncId} {l : Latches} {c : Cfg} (hk : s.tport.issuer = some k)
    (he : s.encoder k = .ap l c) (ha : ansErr s.tport.ans = true) :
    exec (.setcfg (sendMode l)) s =
      .next ((s.setEffect l.h ⟨c.opq, sendMode l⟩).raiseError k .configApplyError) := by
  simp only [exec, execSetcfg, hk, he, bne_self_eq_false, setHeld_of_err s l.h ha, ha, Bool.false_eq_true, if_false,
    if_true]

/-- Settles O19: the answer is `raiseError` after the effect of a failed SETCFG, which on an open Handle writes the
Config alone. -/
theorem applyFails : Obligations.ApplyFails := by
  intro s k l c hk he ha
  have hu := setEffect_touches s l.h ⟨c.opq, sendMode l⟩
  refine ⟨_, exec_setcfg_err hk he ha, encoder_finish .., finish_rsp .., hu.raiseError_trace k _,
    hu.raiseError_sameEncodersBut k _, hu.raiseError_sameTransportsBut k _, hu.raiseError_sameInputs k _,
    fun ho => ⟨Config.drawCfg s.draws, ?_⟩⟩
  rw [setEffect_err ho _ ha, raiseError_eq, transport_finish, transport_drawn, transport_setTransport]

end Sys2Proof.Machine
end

section
/-! The words of the instructions (30_encoding.md R51 to R61): decoding and encoding are inverse to each other on formats
Q and T, the words each phase drives, and the bits of the result words. -/

namespace Sys2Proof.Machine

/-! ### Words from their fields -/

theorem tFields_word_ofWord (w : BitVec 12) : (TFields.ofWord w).word = w := by
  apply BitVec.eq_of_getLsbD_eq
  intro i hi
  rw [tWord_getLsbD]
  by_cases h8 : i < 8
  · simp [TFields.ofWord, h8]
  · by_cases e8 : i = 8
    · simp [TFields.ofWord, e8]
    · by_cases e9 : i = 9
      · simp [TFields.ofWord, e9]
      · have hlt : i - 10 < 2 := by omega
        have hadd : 10 + (i - 10) = i := by omega
        simp [TFields.ofWord, h8, e8, e9, hlt, hadd]

theorem qFields_word_ofWord (w : BitVec 17) : (QFields.ofWord w).word = w := by
  apply BitVec.eq_of_getLsbD_eq
  intro i hi
  rw [qWord_getLsbD]
  by_cases h8 : i < 8
  · simp [QFields.ofWord, h8]
  · by_cases h16 : i < 16
    · have hlt : i - 8 < 8 := by omega
      have hadd : 8 + (i - 8) = i := by omega
      simp [QFields.ofWord, h8, h16, hlt, hadd]
    · obtain rfl : i = 16 := by omega
      simp [QFields.ofWord]

/-! ### Format Q (R51, R60) -/

theorem decodeQ_word (f : QFields) : decodeQ f.word = if f.op then .send9 f.marker f.b else .par8 f.marker f.b := by
  rw [decodeQ, qFields_ofWord_word]

/-- The request a word decodes to has that word again. -/
theorem encode_decodeQ (w : BitVec 17) : encode (decodeQ w) = .q w := by
  rw [← qFields_word_ofWord w, decodeQ_word]
  obtain ⟨op, marker, b⟩ := QFields.ofWord w
  cases op <;> rfl

/-! ### Format T (R53, R61) -/

/-- The word of a command's fields decodes to the command. -/
theorem decodeT_word {i : Instr} {f : TFields} (hf : i.tFields = some f) : decodeT f.word = .ok i := by
  rw [decodeT, tFields_ofWord_word]
  cases i with
  | par8 mk b => cases hf
  | send9 mk b => cases hf
  | getcfg => cases hf; rfl
  | setcfg p => cases hf; cases p <;> rfl
  | write d => cases hf; rfl

/-- Fields that pass the checks are those of the command `cmd` selects: no bit is left unchecked. -/
theorem tFields_of_wf {f : TFields} (hf : f.wf = true) :
    f = ⟨1#2, false, false, 0#8⟩ ∨ (∃ p, f = ⟨2#2, true, p, 0#8⟩) ∨ ∃ d, f = ⟨3#2, false, false, d⟩ := by
  obtain ⟨cmd, timing, par, wdata⟩ := f
  simp only [TFields.wf, Bool.and_eq_true] at hf
  obtain ⟨⟨hcmd, hunused⟩, htiming⟩ := hf
  have hsel : ∀ c : BitVec 2, c = 0#2 ∨ c = 1#2 ∨ c = 2#2 ∨ c = 3#2 := by decide
  rcases hsel cmd with rfl | rfl | rfl | rfl
  · simp [TFields.cmdOk] at hcmd
  · simpa [TFields.unusedOk, and_assoc] using hunused
  · simp_all [TFields.unusedOk, TFields.timingOk]
  · simpa [TFields.unusedOk] using hunused

/-- A word that decodes is made of the fields of the command it decodes to. -/
theorem tFields_of_decodeT {w : BitVec 12} {i : Instr} (h : decodeT w = .ok i) :
    i.tFields = some (TFields.ofWord w) := by
  cases hr : (TFields.ofWord w).rejects with
  | some r => simp [decodeT, hr] at h
  | none =>
    simp only [decodeT, hr] at h
    rcases tFields_of_wf ((rejects_eq_none_iff _).1 hr) with hf | ⟨p, hf⟩ | ⟨d, hf⟩ <;> rw [hf] at h ⊢
    · cases h; rfl
    · cases h; cases p <;> rfl
    · cases h; rfl

/-- A format-T word decodes to i exactly when it is the word of i's fields. -/
theorem decodeT_eq_ok_iff {w : BitVec 12} {i : Instr} :
    decodeT w = .ok i ↔ ∃ f, i.tFields = some f ∧ w = f.word := by
  constructor
  · intro h
    exact ⟨_, tFields_of_decodeT h, (tFields_word_ofWord w).symm⟩
  · rintro ⟨f, hf, rfl⟩
    exact decodeT_word hf

theorem tWord_write (d : Byte) : TFields.word ⟨3#2, false, false, d⟩ = 0xC00#12 ||| d.setWidth 12 := by
  have hmask : ∀ i : Fin 12, (0xC00#12).getLsbD i.val = decide (10 ≤ i.val) := by decide
  have htop : ∀ i : Fin 12, 10 ≤ i.val → (3#2).getLsbD (i.val - 10) = true := by decide
  apply BitVec.eq_of_getLsbD_eq
  intro i hi
  rw [tWord_getLsbD, BitVec.getLsbD_or, BitVec.getLsbD_setWidth, hmask ⟨i, hi⟩]
  by_cases h8 : i < 8
  · have hlow : ¬ 10 ≤ i := by omega
    simp [h8, hi, hlow]
  · by_cases h10 : 10 ≤ i
    · have h1 : i ≠ 8 := by omega
      have h2 : i ≠ 9 := by omega
      simp [h8, h1, h2, h10, htop ⟨i, hi⟩ h10]
    · have h89 : i = 8 ∨ i = 9 := by omega
      rcases h89 with rfl | rfl <;> simp

/-- Settles O1: each instruction's word is the word of its fields, which the decoder reads back. -/
theorem decodeEncodeAgree : Obligations.DecodeEncodeAgree := by
  intro i
  cases i with
  | par8 mk b => exact congrArg Except.ok (decodeQ_word ⟨false, mk, b⟩)
  | send9 mk b => exact congrArg Except.ok (decodeQ_word ⟨true, mk, b⟩)
  | getcfg => exact decodeT_word (i := .getcfg) rfl
  | setcfg p => exact decodeT_word (i := .setcfg p) rfl
  | write d => exact decodeT_word (i := .write d) rfl

/-- Settles O2: the word is rebuilt from the request's fields, and bit 16 selects between the two requests. -/
theorem requestWordsRoundTrip : Obligations.RequestWordsRoundTrip :=
  fun w => ⟨encode_decodeQ w, decodeQ_cases w⟩

/-- Settles O3: the words of the three commands' fields are table 5.1's patterns. -/
theorem commandWordsExact : Obligations.CommandWordsExact := by
  intro w i
  rw [decodeT_eq_ok_iff]
  cases i with
  | par8 mk b => simp [Instr.tFields]
  | send9 mk b => simp [Instr.tFields]
  | getcfg =>
    have hword : TFields.word ⟨1#2, false, false, 0#8⟩ = 0x400#12 := by decide
    simp [Instr.tFields, hword]
  | setcfg p =>
    have heven : TFields.word ⟨2#2, true, Polarity.even.bit, 0#8⟩ = 0xA00#12 := by decide
    have hodd : TFields.word ⟨2#2, true, Polarity.odd.bit, 0#8⟩ = 0xB00#12 := by decide
    cases p <;> simp [Instr.tFields, heven, hodd]
  | write d => simp [Instr.tFields, tWord_write]

/-- Settles O4: the words are literals, which the decoder evaluates. -/
theorem tableWordsDecode : Obligations.TableWordsDecode := by
  refine ⟨?_, ?_, ?_, ?_, ?_, ?_, ?_, ?_, ?_, ?_, ?_⟩ <;> rfl

/-! ### The words each phase drives (R50, R53) -/

theorem cmdWord_of_command {e : Encoder} {i : Instr} {f : TFields} (hi : e.command = some i)
    (hf : i.tFields = some f) : e.cmdWord = some f.word := by
  rw [Encoder.cmdWord, hi]
  cases i <;> cases hf <;> rfl

theorem tWord_setcfg (np m : Bool) :
    TFields.word ⟨2#2, true, (muxMode np m).bit, 0#8⟩ = if np != m then 0xB00#12 else 0xA00#12 := by
  cases np <;> cases m <;> decide

theorem cmdWord_ap (l : Latches) (c : Cfg) :
    (Encoder.ap l c).cmdWord = some (if par8 l.b != l.m then 0xB00#12 else 0xA00#12) := by
  rw [cmdWord_of_command rfl rfl, sendMode, tWord_setcfg]

theorem cmdWord_wr (l : Latches) (c : Cfg) : (Encoder.wr l c).cmdWord = some (0xC00#12 ||| l.b.setWidth 12) := by
  rw [cmdWord_of_command rfl rfl, tWord_write]

/-- On entering AP the instance presents the SETCFG of the selected mode with the opaque part read (R85). -/
theorem issued_ap (k : EncId) (l : Latches) (c : Cfg) :
    (Encoder.ap l c).issued k =
      [.command k (if par8 l.b != l.m then 0xB00#12 else 0xA00#12) l.h (some c.opq)] := by
  simp [Encoder.issued, cmdWord_ap, Encoder.tHandle, Encoder.latches, Encoder.tOpaqueOut]

/-- On entering WR the instance presents the WRITE of the Byte (R86). -/
theorem issued_wr (k : EncId) (l : Latches) (c : Cfg) :
    (Encoder.wr l c).issued k = [.command k (0xC00#12 ||| l.b.setWidth 12) l.h none] := by
  simp [Encoder.issued, cmdWord_wr, Encoder.tHandle, Encoder.latches, Encoder.tOpaqueOut]

/-- Settles O9: the word is that of the command outstanding; Handle and opaque part are the latched ones. -/
theorem drivenWords : Obligations.DrivenWords :=
  ⟨rfl, fun l c => ⟨rfl, cmdWord_ap l c, cmdWord_wr l c, rfl, rfl, rfl, rfl⟩⟩

/-! ### The result words (R52, R54) -/

theorem responseWord_fields (r : Response) :
    (responseWord r).extractLsb' 1 2 = statusCode r.status ∧ (responseWord r).getLsbD 0 = r.val := by
  obtain ⟨status, val⟩ := r
  cases status <;> cases val <;> decide

theorem answerWord_fields (e p c : Bool) :
    ansErr (answerWord e p c) = e ∧ ansPar (answerWord e p c) = p ∧ ansCount (answerWord e p c) = c := by
  revert e p c; decide

/-- Settles O7: the fields of the two formats, and the laws of the generator and the multiplexer in the bit of the
polarity. -/
theorem resultWordLayout : Obligations.ResultWordLayout :=
  ⟨responseWord_fields, answerWord_fields, rfl, rfl, pgen_eq_par8_xor_bit, bit_muxMode⟩

end Sys2Proof.Machine
end

section
/-! The laws of the classifier (40_parity_classifier.md section 3): linearity carries most of them, the count of ones
the order of the bits, and the table the rest. -/

namespace Sys2Proof.Machine

theorem par8_xor (a b : Byte) : par8 (a ^^^ b) = (par8 a ^^ par8 b) := by
  have hcomm : Std.Commutative Bool.xor := ⟨Bool.xor_comm⟩
  simp only [par8, BitVec.getLsbD_xor]
  ac_rfl

/-- The complement is an exclusive-or with eight ones, whose parity is 0. -/
theorem par8_not (b : Byte) : par8 (~~~b) = par8 b := by
  have hones : par8 (BitVec.allOnes 8) = false := by decide
  rw [← BitVec.xor_allOnes, par8_xor, hones, Bool.xor_false]

theorem par8_flip (b : Byte) (i : Fin 8) : par8 (b ^^^ (1#8 <<< i.val)) = !par8 b := by
  rw [par8_xor, par8_single_bit, Bool.xor_true]

theorem popcount_eq_sum {n : Nat} (v : BitVec n) : popcount v = ∑ i : Fin n, (v.getLsbD i.val).toNat :=
  Finset.sum_range fun i => (v.getLsbD i).toNat

/-- The count of ones, and with it the parity, does not see the order of the bits. -/
theorem par8_perm {σ : Equiv.Perm (Fin 8)} {a b : Byte}
    (h : ∀ i : Fin 8, b.getLsbD i.val = a.getLsbD (σ i).val) : par8 b = par8 a := by
  have hcount : popcount b = popcount a := by
    simp only [popcount_eq_sum, h]
    exact Equiv.sum_comp σ fun i => (a.getLsbD i.val).toNat
  have hnat : (par8 b).toNat = (par8 a).toNat := by rw [par8_toNat, par8_toNat, hcount]
  have hinj : Function.Injective Bool.toNat := by decide
  exact hinj hnat

/-- The two nibbles are classified apart (R76). -/
theorem par8_nibbles (hi lo : BitVec 4) : par8 (hi ++ lo) = (par8 (0#4 ++ hi) ^^ par8 (0#4 ++ lo)) := by
  revert hi lo
  decide

/-- Settles O12: the table is evaluated, its symmetry is that of the nibbles. -/
theorem classifierTable : Obligations.ClassifierTable :=
  ⟨by decide +kernel, par8_nibbles⟩

theorem length_filter_eq_count_map (p : Nat → Bool) (l : List Nat) :
    (l.filter p).length = (l.map p).count true := by
  rw [← List.countP_eq_length_filter, List.count, List.countP_map]
  congr 1
  funext n
  simp

/-- Settles O11: the laws above, and the balance counted in the table of R76. -/
theorem classifierLaws : Obligations.ClassifierLaws := by
  refine ⟨par8_xor, par8_not, par8_single_bit, par8_flip, ?_, fun σ a b => par8_perm⟩
  rw [length_filter_eq_count_map, classifierTable.1, List.count_flatten]
  rfl

end Sys2Proof.Machine
end

section
/-! The transport commands (42_transport_interface.md R101 to R103, 41_frame_sender.md table 4.1): one rule per command,
issuer and kind of answer, and the frame of what follows the effect on the transport. -/

namespace Sys2Proof.Machine

/-! ### The frame: an encoder entering a phase, or finishing, after an effect on one Handle -/

theorem TouchesOnly.sameInputs {h : Handle} {s u : State} (hu : TouchesOnly h s u) : SameInputs s u :=
  ⟨hu.caller, hu.tport, hu.sched, hu.txqDepth⟩

section Ending
variable {h : Handle} {s u : State} (hu : TouchesOnly h s u) (k : EncId)
include hu

theorem TouchesOnly.enter_sameEncodersBut (e : Encoder) : SameEncodersBut k s (u.enter k e) := by
  intro k' hk
  rw [encoder_enter_other _ _ _ _ hk, hu.encoder]

theorem TouchesOnly.finish_sameEncodersBut (r : Response) : SameEncodersBut k s (u.finish k r) := by
  intro k' hk
  rw [encoder_finish_other _ _ _ _ hk, hu.encoder]

theorem TouchesOnly.enter_trace_eq (e : Encoder) : (u.enter k e).trace = s.trace ++ e.issued k := by
  rw [enter_trace, hu.trace]

theorem TouchesOnly.finish_trace_eq (r : Response) :
    (u.finish k r).trace = s.trace ++ [.response k (responseWord r)] := by
  rw [finish_trace, hu.trace]

end Ending

/-! ### The block's commands -/

section Issued
variable {s : State} {k : EncId} {l : Latches} {c : Cfg} (hk : s.tport.issuer = some k)
include hk

/-- RD-OK of table 4.1 (R91). -/
theorem exec_getcfg_ok (he : s.encoder k = .rd l) (ha : ansErr s.tport.ans = false) :
    exec .getcfg s = .next ((s.getEffect l.h).enter k (.ap l (ansCfg (s.getAnswer l.h) (s.getOpaque l.h)))) := by
  simp only [exec, execGetcfg, hk, he, ansErr_getAnswer, ha, Bool.false_eq_true, if_false]

/-- RD-OK on an open Handle: the Config in force is latched, the transport untouched (R101, R106). -/
theorem exec_getcfg_open (he : s.encoder k = .rd l) (ha : ansErr s.tport.ans = false)
    (ho : (s.transport l.h).isOpen = true) :
    exec .getcfg s = .next (s.enter k (.ap l (s.transport l.h).cfg)) := by
  rw [exec_getcfg_ok hk he ha, getEffect_open ho, getAnswer_cfg ho ha]

/-- AP-OK of table 4.1 (R91). -/
theorem exec_setcfg_ok (he : s.encoder k = .ap l c) (hh : s.setHeld l.h s.tport.ans = false)
    (ha : ansErr s.tport.ans = false) :
    exec (.setcfg (sendMode l)) s = .next ((s.setEffect l.h ⟨c.opq, sendMode l⟩).enter k (.wr l c)) := by
  simp only [exec, execSetcfg, hk, he, bne_self_eq_false, hh, ha, Bool.false_eq_true, if_false]

/-- WR-1 and WR-0 of table 4.1 (R91). -/
theorem exec_write_ok (he : s.encoder k = .wr l c) (hh : s.writeHeld l.h s.tport.ans = false)
    (ha : ansErr s.tport.ans = false) :
    exec (.write l.b) s = .next ((s.writeEffect l.h l.b).finish k ⟨.ok, ansCount s.tport.ans⟩) := by
  simp only [exec, execWrite, hk, he, bne_self_eq_false, hh, ha, Bool.false_eq_true, if_false]

end Issued

/-- Only an answer Ok is held, so an answer Err ends the WRITE whatever is queued (D17). -/
theorem writeHeld_of_err (s : State) (h : Handle) {w : BitVec 3} (hw : ansErr w = true) :
    s.writeHeld h w = false := by
  rw [← Bool.not_eq_true, writeHeld_iff, hw]
  simp

/-- A WRITE answered Ok(1) that is not held finds room in the queue (R18, D17). -/
theorem not_full_of_not_held {s : State} {h : Handle} {w : BitVec 3} (hh : s.writeHeld h w = false)
    (ho : (s.transport h).isOpen = true) (ha : ansErr w = false) (hc : ansCount w = true) :
    (s.transport h).full s.txqDepth = false := by
  rw [← Bool.not_eq_true]
  intro hf
  exact absurd ((writeHeld_iff ..).2 ⟨ho, ha, hc, hf⟩) (by simp [hh])

/-- WR-ERR of table 4.1 (R91). -/
theorem exec_write_err {s : State} {k : EncId} {l : Latches} {c : Cfg} (hk : s.tport.issuer = some k)
    (he : s.encoder k = .wr l c) (ha : ansErr s.tport.ans = true) :
    exec (.write l.b) s = .next ((s.writeEffect l.h l.b).raiseError k .writeError) := by
  simp only [exec, execWrite, hk, he, bne_self_eq_false, writeHeld_of_err s l.h ha, ha, Bool.false_eq_true, if_false,
    if_true]

/-- A command its issuer has not presented has no effect (log 28). -/
theorem exec_of_not_presented {s : State} {k : EncId} {i : Instr} (hk : s.tport.issuer = some k)
    (hi : (s.encoder k).command ≠ some i) (ht : i.qFields = none) : exec i s = .next s := by
  cases i with
  | par8 mk b => cases ht
  | send9 mk b => cases ht
  | getcfg => cases he : s.encoder k <;> simp_all [exec, execGetcfg, Encoder.command]
  | setcfg p =>
    cases he : s.encoder k with
    | ap l c =>
      have hp : p ≠ sendMode l := fun hp => hi (by rw [he, hp]; rfl)
      simp [exec, execSetcfg, hk, he, hp]
    | _ => simp only [exec, execSetcfg, hk, he]
  | write d =>
    cases he : s.encoder k with
    | wr l c =>
      have hd : d ≠ l.b := fun hd => hi (by rw [he, hd]; rfl)
      simp [exec, execWrite, hk, he, hd]
    | _ => simp only [exec, execWrite, hk, he]

/-- While it is held a SETCFG changes nothing, whichever mode it carries (R91, R134). -/
theorem exec_setcfg_held {s : State} {k : EncId} {l : Latches} {c : Cfg} (hk : s.tport.issuer = some k)
    (he : s.encoder k = .ap l c) (hh : s.setHeld l.h s.tport.ans = true) (p : Polarity) :
    exec (.setcfg p) s = .next s := by
  by_cases hp : p = sendMode l
  · simp only [exec, execSetcfg, hk, he, hp, bne_self_eq_false, hh, Bool.false_eq_true, if_false, if_true]
  · exact exec_of_not_presented hk (by simpa [he, Encoder.command] using Ne.symm hp) rfl

/-- While it is held a WRITE changes nothing, whichever Byte it carries (D17; log 18). -/
theorem exec_write_held {s : State} {k : EncId} {l : Latches} {c : Cfg} (hk : s.tport.issuer = some k)
    (he : s.encoder k = .wr l c) (hh : s.writeHeld l.h s.tport.ans = true) (d : Byte) :
    exec (.write d) s = .next s := by
  by_cases hd : d = l.b
  · simp only [exec, execWrite, hk, he, hd, bne_self_eq_false, hh, Bool.false_eq_true, if_false, if_true]
  · exact exec_of_not_presented hk (by simpa [he, Encoder.command] using Ne.symm hd) rfl

/-! ### Another user's commands (R107) -/

section User
variable {s : State} (hi : s.tport.issuer = none)
include hi

theorem exec_getcfg_user : exec .getcfg s = .next (s.getEffect s.tport.handle) := by
  simp only [exec, execGetcfg, hi]

theorem exec_setcfg_user (p : Polarity) :
    exec (.setcfg p) s = if s.setHeld s.tport.handle s.tport.ans then .next s
      else .next (s.setEffect s.tport.handle ⟨s.tport.opq, p⟩) := by
  simp only [exec, execSetcfg, hi]

theorem exec_write_user (d : Byte) :
    exec (.write d) s = if s.writeHeld s.tport.handle s.tport.ans then .next s
      else .next (s.writeEffect s.tport.handle d) := by
  simp only [exec, execWrite, hi]

end User

/-! ### What a WRITE leaves on an open Handle -/

theorem writeEffect_transport_open {s : State} {h : Handle} (ho : (s.transport h).isOpen = true) (b : Byte) :
    (s.writeEffect h b).transport h = { s.transport h with
      txq := (s.transport h).txq ++ (if !ansErr s.tport.ans && ansCount s.tport.ans then [b] else []) } := by
  cases hn : !ansErr s.tport.ans && ansCount s.tport.ans with
  | false => simp [writeEffect_none ho b hn]
  | true =>
    obtain ⟨ha, hc⟩ := by simpa using hn
    simp [writeEffect_one ho b ha hc]

theorem writeEffect_draws_open {s : State} {h : Handle} (ho : (s.transport h).isOpen = true) (b : Byte) :
    (s.writeEffect h b).draws = s.draws := by
  cases hn : !ansErr s.tport.ans && ansCount s.tport.ans with
  | false => rw [writeEffect_none ho b hn]
  | true =>
    obtain ⟨ha, hc⟩ := by simpa using hn
    rw [writeEffect_one ho b ha hc, setTransport_draws]

theorem responseWord_ok (n : Bool) : responseWord ⟨.ok, n⟩ = if n then 0b001#3 else 0b000#3 := by
  cases n <;> rfl

/-! ### The statements about the block's commands -/

/-- Settles O16: on an open Handle the answer is `enter` into AP with the Config in force. -/
theorem readCompletes : Obligations.ReadCompletes := by
  intro s k l hk he ho ha
  have hu := TouchesOnly.refl l.h s
  exact ⟨_, exec_getcfg_open hk he ha ho, encoder_enter .., by rw [enter_trace, issued_ap],
    hu.enter_sameEncodersBut k _, enter_trans .., hu.sameInputs, enter_rsp .., enter_draws ..⟩

/-- Settles O18: with the queue empty the command is not held, and its effect writes the Config alone. -/
theorem applyCompletes : Obligations.ApplyCompletes := by
  intro s k l c hk he ho ha hq
  have hh : s.setHeld l.h s.tport.ans = false := by simp [State.setHeld, hq]
  have hu := setEffect_touches s l.h ⟨c.opq, sendMode l⟩
  refine ⟨_, exec_setcfg_ok hk he hh ha, encoder_enter .., ?_, by rw [hu.enter_trace_eq, issued_wr],
    hu.enter_sameEncodersBut k _, hu.other, hu.sameInputs, hu.rsp, ?_⟩
  · rw [transport_enter, setEffect_ok ho _ ha, transport_setTransport]
    rfl
  · rw [enter_draws, setEffect_ok ho _ ha, setTransport_draws]

/-- Settles O20: the hypotheses are those of the hold, for the block's command and another user's. -/
theorem applyHeld : Obligations.ApplyHeld := by
  constructor
  · intro s k l c p hk he ho ha hq
    exact exec_setcfg_held hk he ((setHeld_iff ..).2 ⟨ho, ha, hq⟩) p
  · intro s p hi ho ha hq
    rw [exec_setcfg_user hi, if_pos ((setHeld_iff ..).2 ⟨ho, ha, hq⟩)]

/-- Settles O21: with room, or with an answer Ok(0), the WRITE is not held; its effect appends the Bytes counted. -/
theorem writeCompletes : Obligations.WriteCompletes := by
  intro s k l c hk he ho ha hroom
  have hh : s.writeHeld l.h s.tport.ans = false := by
    rw [← Bool.not_eq_true, writeHeld_iff]
    rintro ⟨_, _, hc, hfull⟩
    exact absurd (hroom hc) (by simp [hfull])
  have hu := writeEffect_touches s l.h l.b
  refine ⟨_, exec_write_ok hk he hh ha, encoder_finish .., ?_, ?_, ?_, hu.finish_sameEncodersBut k _, hu.other,
    hu.sameInputs, writeEffect_draws_open ho l.b⟩
  · rw [transport_finish, writeEffect_transport_open ho, ha]
    rfl
  · rw [finish_rsp, responseWord_ok]
  · rw [hu.finish_trace_eq, responseWord_ok]

/-- Settles O22: the hypotheses are those of the hold, and full is at the depth. -/
theorem writeHeld : Obligations.WriteHeld := by
  refine ⟨fun s k l c d hk he ho ha hc hf => ?_, fun s d hi ho ha hc hf => ?_, fun t depth => full_iff t depth⟩
  · exact exec_write_held hk he ((writeHeld_iff ..).2 ⟨ho, ha, hc, hf⟩) d
  · rw [exec_write_user hi, if_pos ((writeHeld_iff ..).2 ⟨ho, ha, hc, hf⟩)]

/-- Settles O23: the answer is `raiseError` after the effect of a failed WRITE, which on an open Handle is none. -/
theorem writeFails : Obligations.WriteFails := by
  intro s k l c hk he ha
  have hu := writeEffect_touches s l.h l.b
  refine ⟨_, exec_write_err hk he ha, encoder_finish .., finish_rsp .., hu.raiseError_trace k _,
    hu.raiseError_sameEncodersBut k _, hu.raiseError_sameTransportsBut k _, hu.raiseError_sameInputs k _,
    fun ho => ?_⟩
  rw [writeEffect_none ho l.b (by rw [ha]; rfl)]
  exact ⟨finish_trans .., finish_draws ..⟩

/-- Settles O24: one rule for the three commands. -/
theorem commandNotPresented : Obligations.CommandNotPresented :=
  fun _ _ hk => ⟨fun h => exec_of_not_presented hk h rfl, fun _ h => exec_of_not_presented hk h rfl,
    fun _ h => exec_of_not_presented hk h rfl⟩

/-- Settles O31: another user's command is its effect on the transport, which the laws of an open Handle give. -/
theorem otherUsersCommands : Obligations.OtherUsersCommands := by
  intro s hi ho
  refine ⟨by rw [exec_getcfg_user hi, getEffect_open ho], fun p ha hq => ?_, fun d hh => ?_⟩
  · have hh : s.setHeld s.tport.handle s.tport.ans = false := by simp [State.setHeld, hq]
    have hu := setEffect_touches s s.tport.handle ⟨s.tport.opq, p⟩
    refine ⟨s.setEffect s.tport.handle ⟨s.tport.opq, p⟩, by simp [exec_setcfg_user hi, hh], ?_, hu.other, hu.encs,
      hu.trace, hu.rsp, hu.sameInputs, ?_⟩ <;> rw [setEffect_ok ho _ ha]
    · rw [transport_setTransport]
    · rw [setTransport_draws]
  · have hu := writeEffect_touches s s.tport.handle d
    exact ⟨s.writeEffect s.tport.handle d, by simp [exec_write_user hi, hh], writeEffect_transport_open ho d, hu.other,
      hu.encs, hu.trace, hu.rsp, hu.sameInputs, writeEffect_draws_open ho d⟩

/-- On a Handle that is not open no command is held (log 4). -/
theorem not_held_of_closed {s : State} {h : Handle} (hc : (s.transport h).isOpen = false) (w : BitVec 3) :
    s.setHeld h w = false ∧ s.writeHeld h w = false := by
  simp [State.setHeld, State.writeHeld, hc]

/-- Settles O32: each command's answer selects its row of table 4.1, after an effect that touches the one Handle. -/
theorem closedHandleFollowsAnswer : Obligations.ClosedHandleFollowsAnswer := by
  intro s k l c hk hcl
  have hheld := not_held_of_closed hcl s.tport.ans
  refine ⟨fun he => ?_, fun he => ?_, fun he => ?_⟩
  · have hu := getEffect_touches s l.h
    cases ha : ansErr s.tport.ans with
    | true => exact ⟨_, exec_getcfg_err hk he ha, hu.wire, hu.other, by simp⟩
    | false =>
      refine ⟨_, exec_getcfg_ok hk he ha, hu.wire, hu.other, ?_⟩
      simp [State.getAnswer, State.getOpaque, hcl, ansCfg]
  · have hu := setEffect_touches s l.h ⟨c.opq, sendMode l⟩
    cases ha : ansErr s.tport.ans with
    | true => exact ⟨_, exec_setcfg_err hk he ha, hu.wire, hu.other, by simp⟩
    | false => exact ⟨_, exec_setcfg_ok hk he hheld.1 ha, hu.wire, hu.other, by simp⟩
  · have hu := writeEffect_touches s l.h l.b
    cases ha : ansErr s.tport.ans with
    | true => exact ⟨_, exec_write_err hk he ha, hu.wire, hu.other, by simp⟩
    | false => exact ⟨_, exec_write_ok hk he hheld.2 ha, hu.wire, hu.other, by simp⟩

end Sys2Proof.Machine
end

section
/-! What holds of every instruction (10_state.md R21, 41_frame_sender.md R90, 30_encoding.md R54): it answers a next state,
touches only what it addresses, and a command's outcome depends only on the answer bits its phase reads. -/

namespace Sys2Proof.Machine

/-! ### Every instruction answers a next state -/

/-- The command an instance presents runs to a next state: held, or a transition of table 4.1. -/
theorem exec_command_total {s : State} {k : EncId} {i : Instr} (hk : s.tport.issuer = some k)
    (hi : (s.encoder k).command = some i) : ∃ t, exec i s = .next t := by
  rcases command_cases hi with ⟨l, he, rfl⟩ | ⟨l, c, he, rfl⟩ | ⟨l, c, he, rfl⟩
  · cases ha : ansErr s.tport.ans with
    | true => exact ⟨_, exec_getcfg_err hk he ha⟩
    | false => exact ⟨_, exec_getcfg_ok hk he ha⟩
  · cases ha : ansErr s.tport.ans with
    | true => exact ⟨_, exec_setcfg_err hk he ha⟩
    | false =>
      cases hh : s.setHeld l.h s.tport.ans with
      | true => exact ⟨_, exec_setcfg_held hk he hh _⟩
      | false => exact ⟨_, exec_setcfg_ok hk he hh ha⟩
  · cases ha : ansErr s.tport.ans with
    | true => exact ⟨_, exec_write_err hk he ha⟩
    | false =>
      cases hh : s.writeHeld l.h s.tport.ans with
      | true => exact ⟨_, exec_write_held hk he hh _⟩
      | false => exact ⟨_, exec_write_ok hk he hh ha⟩

/-- Another user's command runs to a next state. -/
theorem exec_user_total {s : State} {i : Instr} (hi : s.tport.issuer = none) (hq : i.qFields = none) :
    ∃ t, exec i s = .next t := by
  cases i with
  | par8 mk b => cases hq
  | send9 mk b => cases hq
  | getcfg => exact ⟨_, exec_getcfg_user hi⟩
  | setcfg p => rw [exec_setcfg_user hi]; split <;> exact ⟨_, rfl⟩
  | write d => rw [exec_write_user hi]; split <;> exact ⟨_, rfl⟩

theorem exec_transport_total {i : Instr} (hq : i.qFields = none) (s : State) : ∃ t, exec i s = .next t := by
  cases hk : s.tport.issuer with
  | none => exact exec_user_total hk hq
  | some k =>
    by_cases hi : (s.encoder k).command = some i
    · exact exec_command_total hk hi
    · exact ⟨_, exec_of_not_presented hk hi hq⟩

theorem exec_total (i : Instr) (s : State) : ∃ t, exec i s = .next t := by
  by_cases hs : s.encoder s.caller.enc = .idle
  · cases i with
    | par8 mk b => exact ⟨_, exec_par8_idle mk b hs⟩
    | send9 mk b => exact ⟨_, exec_send9_idle mk b hs⟩
    | _ => exact exec_transport_total rfl s
  · cases i with
    | par8 mk b => exact ⟨_, exec_par8_busy mk b hs⟩
    | send9 mk b => exact ⟨_, exec_send9_busy mk b hs⟩
    | _ => exact exec_transport_total rfl s

/-- An instruction leaves the inputs: its effect touches a transport, and a transition the encoder and the record. -/
theorem exec_sameInputs {i : Instr} {s t : State} (h : exec i s = .next t) : SameInputs s t := by
  obtain ⟨g, u, hu, rfl | ⟨k, r, rfl⟩ | ⟨k, r, rfl⟩ | ⟨k, e, rfl⟩⟩ := exec_touches h
  · exact hu.sameInputs
  · exact hu.sameInputs
  · exact hu.sameInputs
  · exact hu.sameInputs

/-- Settles O48: every case of every instruction ends in a next state with the same inputs. -/
theorem execNeverStops : Obligations.ExecNeverStops := by
  intro i s
  obtain ⟨t, ht⟩ := exec_total i s
  exact ⟨t, ht, exec_sameInputs ht⟩

/-! ### What an instruction leaves alone (R21) -/

/-- A command of the block touches the Handle latched, and moves the encoder of its issuer. -/
theorem isolated_of_issuer {i : Instr} {s u t : State} {k : EncId} {g : Handle} (hu : TouchesOnly g s u)
    (ha : s.addressed i = some g) (hk : s.actor i = some k)
    (ht : (∃ r, t = u.finish k r) ∨ ∃ e, t = u.enter k e) :
    (∀ h, s.addressed i ≠ some h → t.transport h = s.transport h) ∧
      (∀ k', s.actor i ≠ some k' → t.encoder k' = s.encoder k') := by
  rw [ha, hk]
  have hne {α : Type} {x y : α} (h : some x ≠ some y) : y ≠ x := fun e => h (e ▸ rfl)
  rcases ht with ⟨r, rfl⟩ | ⟨e, rfl⟩
  · exact ⟨fun h hh => hu.other h (hne hh), fun k' hk' => hu.finish_sameEncodersBut k r k' (hne hk')⟩
  · exact ⟨fun h hh => hu.other h (hne hh), fun k' hk' => hu.enter_sameEncodersBut k e k' (hne hk')⟩

/-- Another user's command touches the Handle on the interface, and moves no encoder. -/
theorem isolated_of_user {i : Instr} {s t : State} {g : Handle} (hu : TouchesOnly g s t)
    (ha : s.addressed i = some g) :
    (∀ h, s.addressed i ≠ some h → t.transport h = s.transport h) ∧
      (∀ k, s.actor i ≠ some k → t.encoder k = s.encoder k) := by
  rw [ha]
  exact ⟨fun h hh => hu.other h fun e => hh (e ▸ rfl), fun k _ => hu.encoder k⟩

theorem addressed_command {i : Instr} {s : State} {k : EncId} (hk : s.tport.issuer = some k)
    (hi : (s.encoder k).command = some i) : s.addressed i = (s.encoder k).tHandle ∧ s.actor i = some k := by
  rcases command_cases hi with ⟨l, _, rfl⟩ | ⟨l, c, _, rfl⟩ | ⟨l, c, _, rfl⟩ <;>
    simp [State.addressed, State.actor, hk]

/-- Settles O39: the cases of an instruction, each with the Handle it addresses and the instance that acts. -/
theorem handlesIsolated : Obligations.HandlesIsolated := by
  intro i s t h
  rcases exec_cases h with rfl | ⟨mk, b, rfl, _, rfl⟩ | ⟨mk, b, rfl, _, rfl⟩ |
    ⟨hn, ⟨rfl, rfl⟩ | ⟨p, rfl, _, rfl⟩ | ⟨d, rfl, _, rfl⟩⟩ | ⟨k, l, hk, he, rfl, ht⟩ |
    ⟨k, l, c, hk, he, rfl, _, ht⟩ | ⟨k, l, c, hk, he, rfl, _, ht⟩
  · exact ⟨fun _ _ => rfl, fun _ _ => rfl⟩
  · exact ⟨fun _ _ => rfl, fun _ _ => rfl⟩
  · exact ⟨fun _ _ => rfl, fun k hk => encoder_enter_other _ _ _ _ fun e => hk (e ▸ rfl)⟩
  · exact isolated_of_user (getEffect_touches ..) (by simp [State.addressed, hn])
  · exact isolated_of_user (setEffect_touches ..) (by simp [State.addressed, hn])
  · exact isolated_of_user (writeEffect_touches ..) (by simp [State.addressed, hn])
  all_goals obtain ⟨ha, hx⟩ := addressed_command hk (by rw [he]; rfl)
  all_goals rw [he] at ha
  · exact isolated_of_issuer (getEffect_touches ..) ha hx
      (ht.imp (fun ⟨_, e⟩ => ⟨_, e⟩) fun ⟨_, e⟩ => ⟨_, e⟩)
  · exact isolated_of_issuer (setEffect_touches ..) ha hx
      (ht.imp (fun ⟨_, e⟩ => ⟨_, e⟩) fun ⟨_, e⟩ => ⟨_, e⟩)
  · exact isolated_of_issuer (writeEffect_touches ..) ha hx
      (.inl (ht.elim (fun ⟨_, e⟩ => ⟨_, e⟩) fun ⟨_, e⟩ => ⟨_, e⟩))

/-! ### A command on a Handle that is not open (log 4) -/

section Closed
variable {s : State} {h : Handle} (hc : (s.transport h).isOpen = false)
include hc

theorem getEffect_closed : s.getEffect h = s.closedEffect h := by simp [State.getEffect, hc]

theorem setEffect_closed (c : Cfg) : s.setEffect h c = s.closedEffect h := by simp [State.setEffect, hc]

theorem writeEffect_closed (b : Byte) : s.writeEffect h b = s.closedEffect h := by simp [State.writeEffect, hc]

theorem flushNow_closed (c : Cfg) : s.flushNow h c = s.closedEffect h := by simp [State.flushNow, hc]

end Closed

/-! ### What an effect reads of the transport interface (R54) -/

/-- s with the signals p on the transport interface. -/
def State.onPort (s : State) (p : TransPort) : State := { s with tport := p }

section Port
variable (s : State) (p p' : TransPort)

@[simp] theorem encoder_onPort (k : EncId) : (s.onPort p).encoder k = s.encoder k := rfl
@[simp] theorem transport_onPort (h : Handle) : (s.onPort p).transport h = s.transport h := rfl
@[simp] theorem onPort_tport : (s.onPort p).tport = p := rfl
@[simp] theorem onPort_onPort : (s.onPort p).onPort p' = s.onPort p' := rfl
@[simp] theorem onPort_draws : (s.onPort p).draws = s.draws := rfl
@[simp] theorem onPort_txqDepth : (s.onPort p).txqDepth = s.txqDepth := rfl

theorem enter_onPort (k : EncId) (e : Encoder) : (s.onPort p).enter k e = (s.enter k e).onPort p := rfl

theorem finish_onPort (k : EncId) (r : Response) : (s.onPort p).finish k r = (s.finish k r).onPort p := rfl

theorem getEffect_onPort (h : Handle) : (s.onPort p).getEffect h = (s.getEffect h).onPort p := by
  cases ho : (s.transport h).isOpen with
  | false => rw [getEffect_closed (s := s.onPort p) ho, getEffect_closed ho]; rfl
  | true => rw [getEffect_open (s := s.onPort p) ho, getEffect_open ho]

/-- The effect of a SETCFG reads the `err` bit alone. -/
theorem setEffect_onPort {p p' : TransPort} (hp : ansErr p.ans = ansErr p'.ans) (h : Handle) (c : Cfg) :
    (s.onPort p).setEffect h c = ((s.onPort p').setEffect h c).onPort p := by
  cases ho : (s.transport h).isOpen with
  | false => rw [setEffect_closed (s := s.onPort p) ho, setEffect_closed (s := s.onPort p') ho]; rfl
  | true =>
    cases ha : ansErr p.ans with
    | false =>
      rw [setEffect_ok (s := s.onPort p) ho c ha, setEffect_ok (s := s.onPort p') ho c (hp ▸ ha)]
      rfl
    | true =>
      rw [setEffect_err (s := s.onPort p) ho c ha, setEffect_err (s := s.onPort p') ho c (hp ▸ ha)]
      rfl

/-- The effect of a WRITE reads whether the answer is Ok(1) alone. -/
theorem writeEffect_onPort {p p' : TransPort}
    (hp : (!ansErr p.ans && ansCount p.ans) = (!ansErr p'.ans && ansCount p'.ans)) (h : Handle) (b : Byte) :
    (s.onPort p).writeEffect h b = ((s.onPort p').writeEffect h b).onPort p := by
  cases ho : (s.transport h).isOpen with
  | false => rw [writeEffect_closed (s := s.onPort p) ho, writeEffect_closed (s := s.onPort p') ho]; rfl
  | true =>
    cases hn : !ansErr p.ans && ansCount p.ans with
    | false =>
      rw [writeEffect_none (s := s.onPort p) ho b hn, writeEffect_none (s := s.onPort p') ho b (hp ▸ hn)]
      rfl
    | true =>
      obtain ⟨ha, hc⟩ := by simpa using hn
      have hn' : (!ansErr p'.ans && ansCount p'.ans) = true := hp ▸ hn
      obtain ⟨ha', hc'⟩ := by simpa using hn'
      rw [writeEffect_one (s := s.onPort p) ho b ha hc, writeEffect_one (s := s.onPort p') ho b ha' hc']
      rfl

end Port

/-- The Config read: of an open Handle the one in force, else `par` and the opaque part of the answer. -/
theorem ansCfg_onPort_congr {s : State} {h : Handle} {p p' : TransPort} (hp : ansErr p.ans = false)
    (hp' : ansErr p'.ans = false)
    (hr : (s.transport h).isOpen = true ∨ (p.opq = p'.opq ∧ ansPar p.ans = ansPar p'.ans)) :
    ansCfg ((s.onPort p).getAnswer h) ((s.onPort p).getOpaque h) =
      ansCfg ((s.onPort p').getAnswer h) ((s.onPort p').getOpaque h) := by
  cases ho : (s.transport h).isOpen with
  | true => rw [getAnswer_cfg (by exact ho) hp, getAnswer_cfg (by exact ho) hp']; rfl
  | false =>
    obtain ⟨hopq, hpar⟩ := hr.resolve_left (by simp [ho])
    simp [State.getAnswer, State.getOpaque, ho, ansCfg, hopq, hpar]

/-! ### Answers that differ in ignored bits -/

section Ignored
variable {s : State} {k : EncId} {l : Latches} {c : Cfg} {p p' : TransPort} {t t' : State}
  (hk : p.issuer = some k) (hk' : p'.issuer = some k) (herr : ansErr p.ans = ansErr p'.ans)
include hk hk' herr

theorem exec_getcfg_onPort (he : s.encoder k = .rd l)
    (hr : (s.transport l.h).isOpen = true ∨ ansErr p.ans = true ∨ (p.opq = p'.opq ∧ ansPar p.ans = ansPar p'.ans))
    (ht : exec .getcfg (s.onPort p) = .next t) (ht' : exec .getcfg (s.onPort p') = .next t') :
    t = t'.onPort p := by
  cases ha : ansErr p.ans with
  | true =>
    rw [exec_getcfg_err (s := s.onPort p) hk he ha, Host.Outcome.next.injEq] at ht
    rw [exec_getcfg_err (s := s.onPort p') hk' he (herr ▸ ha), Host.Outcome.next.injEq] at ht'
    rw [← ht, ← ht', getEffect_onPort, getEffect_onPort]
    rfl
  | false =>
    have hread := ansCfg_onPort_congr ha (herr ▸ ha) (hr.imp_right (·.resolve_left (by simp [ha])))
    rw [exec_getcfg_ok (s := s.onPort p) hk he ha, Host.Outcome.next.injEq] at ht
    rw [exec_getcfg_ok (s := s.onPort p') hk' he (herr ▸ ha), Host.Outcome.next.injEq] at ht'
    rw [← ht, ← ht', hread, getEffect_onPort, getEffect_onPort]
    rfl

theorem exec_setcfg_onPort (he : s.encoder k = .ap l c)
    (ht : exec (.setcfg (sendMode l)) (s.onPort p) = .next t)
    (ht' : exec (.setcfg (sendMode l)) (s.onPort p') = .next t') : t = t'.onPort p := by
  have hheld : (s.onPort p).setHeld l.h p.ans = (s.onPort p').setHeld l.h p'.ans := by
    simp only [State.setHeld, transport_onPort, herr]
  cases hh : (s.onPort p).setHeld l.h p.ans with
  | true =>
    rw [exec_setcfg_held (s := s.onPort p) hk he hh, Host.Outcome.next.injEq] at ht
    rw [exec_setcfg_held (s := s.onPort p') hk' he (hheld ▸ hh), Host.Outcome.next.injEq] at ht'
    rw [← ht, ← ht', onPort_onPort]
  | false =>
    have heff := setEffect_onPort s herr l.h ⟨c.opq, sendMode l⟩
    cases ha : ansErr p.ans with
    | true =>
      rw [exec_setcfg_err (s := s.onPort p) hk he ha, Host.Outcome.next.injEq] at ht
      rw [exec_setcfg_err (s := s.onPort p') hk' he (herr ▸ ha), Host.Outcome.next.injEq] at ht'
      rw [← ht, ← ht', heff]
      rfl
    | false =>
      rw [exec_setcfg_ok (s := s.onPort p) hk he hh ha, Host.Outcome.next.injEq] at ht
      rw [exec_setcfg_ok (s := s.onPort p') hk' he (hheld ▸ hh) (herr ▸ ha), Host.Outcome.next.injEq] at ht'
      rw [← ht, ← ht', heff]
      rfl

theorem exec_write_onPort (he : s.encoder k = .wr l c) (hc : ansErr p.ans = true ∨ ansCount p.ans = ansCount p'.ans)
    (ht : exec (.write l.b) (s.onPort p) = .next t)
    (ht' : exec (.write l.b) (s.onPort p') = .next t') : t = t'.onPort p := by
  have hcount : (!ansErr p.ans && ansCount p.ans) = (!ansErr p'.ans && ansCount p'.ans) := by
    rcases hc with ha | hc
    · rw [← herr, ha]; rfl
    · rw [herr, hc]
  have heff := writeEffect_onPort s hcount l.h l.b
  cases ha : ansErr p.ans with
  | true =>
    rw [exec_write_err (s := s.onPort p) hk he ha, Host.Outcome.next.injEq] at ht
    rw [exec_write_err (s := s.onPort p') hk' he (herr ▸ ha), Host.Outcome.next.injEq] at ht'
    rw [← ht, ← ht', heff]
    rfl
  | false =>
    have hcnt : ansCount p.ans = ansCount p'.ans := hc.resolve_left (by simp [ha])
    have hheld : (s.onPort p).writeHeld l.h p.ans = (s.onPort p').writeHeld l.h p'.ans := by
      simp only [State.writeHeld, transport_onPort, herr, hcnt, onPort_txqDepth]
    cases hh : (s.onPort p).writeHeld l.h p.ans with
    | true =>
      rw [exec_write_held (s := s.onPort p) hk he hh, Host.Outcome.next.injEq] at ht
      rw [exec_write_held (s := s.onPort p') hk' he (hheld ▸ hh), Host.Outcome.next.injEq] at ht'
      rw [← ht, ← ht', onPort_onPort]
    | false =>
      rw [exec_write_ok (s := s.onPort p) hk he hh ha, Host.Outcome.next.injEq] at ht
      rw [exec_write_ok (s := s.onPort p') hk' he (hheld ▸ hh) (herr ▸ ha), Host.Outcome.next.injEq] at ht'
      rw [← ht, ← ht', heff, onPort_tport, onPort_tport, hcnt]
      rfl

end Ignored

/-- Settles O33: in each phase the two outcomes are one state but for the signals on the interface. -/
theorem answerBitsIgnored : Obligations.AnswerBitsIgnored := by
  intro s k l c a a' o o' i t t' herr hphase hi ht ht'
  have hsame : t = t'.onPort ⟨some k, s.tport.handle, o, a⟩ := by
    rcases hphase with ⟨he, hr⟩ | he | ⟨he, hc⟩ <;> rw [he] at hi <;> cases hi
    · exact exec_getcfg_onPort rfl rfl herr he hr ht ht'
    · exact exec_setcfg_onPort rfl rfl herr he ht ht'
    · exact exec_write_onPort rfl rfl herr he hc ht ht'
  subst hsame
  exact ⟨rfl, rfl, rfl, rfl, rfl⟩

end Sys2Proof.Machine
end

section
/-! One step by the next event (41_frame_sender.md R91, 42_transport_interface.md R102, R104, R107, R108,
70_reset_and_hazards.md R140): frame emission, the other users' reconfigurations, opening and closing, reset, what a
held event waits for, and when a step stops. -/

namespace Sys2Proof.Machine

/-! ### The three kinds of step -/

theorem step_nil {s : State} (hs : s.sched = []) : step s = .next (s.quiet.autoDrain Config.p2) := by
  simp only [step, runStep, hs]

theorem step_held {s : State} {e : Event} {rest : List Event} {h : Handle} (hs : s.sched = e :: rest)
    (hb : s.blockedOn e = some h) : step s = .next (s.quiet.drain Config.p2 h) := by
  simp only [step, runStep, hs, hb]

theorem step_event {s : State} {e : Event} {rest : List Event} (hs : s.sched = e :: rest)
    (hb : s.blockedOn e = none) : step s = runEvent exec Config.p2 e (s.take rest) := by
  simp only [step, runStep, hs, hb]

/-! ### Frame emission (R104) -/

/-- Settles O34: under premise P2 the emission is a write of `T[h]`; on an empty queue it is nothing. -/
theorem drainEmits : Obligations.DrainEmits := by
  refine ⟨fun s h x r hq hf => ?_, fun s h hq => drain_nil hq⟩
  have hu := drain_touches Config.p2 s h
  refine ⟨?_, hu.other, hu.encs, hu.sameInputs, hu.rsp, hu.trace, ?_⟩ <;> rw [drain_cons hq hf]
  · rw [transport_setTransport]
  · rw [setTransport_draws]

/-- Under the mode selected for b and m another Byte goes out with its own parity against theirs (R145). -/
theorem pgen_muxMode_other (b x : Byte) (m : Bool) :
    pgen (muxMode (par8 b) m) x = ((par8 x ^^ par8 b) ^^ m) := by
  rw [pgen_eq_par8_xor_bit, bit_muxMode, Bool.xor_assoc]

/-- Settles O42: the emission generates the bit from the polarity in force, which is the one selected. -/
theorem inheritedNinthBit : Obligations.InheritedNinthBit := by
  intro s h b mk x r hp hq hf
  rw [drain_cons hq hf, transport_setTransport, hp, pgen_muxMode_other]

/-! ### The other users' reconfigurations, opening and closing (R107, R108) -/

theorem flushNow_open {s : State} {h : Handle} (ho : (s.transport h).isOpen = true) (c : Cfg) :
    s.flushNow h c = s.setTransport h { s.transport h with cfg := c, txq := [] } := by
  simp [State.flushNow, ho]

/-- The words of a change at once (U9; log 20). -/
theorem decodeT_now (p : Polarity) :
    decodeT (if p.bit then 0x900#12 else 0x800#12) = .error .timingZero ∧
      Polarity.ofBit (TFields.ofWord (if p.bit then 0x900#12 else 0x800#12)).par = p := by
  cases p <;> exact ⟨rfl, rfl⟩

/-- A change at once is not held; it is the effect of the SETCFG. -/
theorem step_command_now {s : State} {h : Handle} {o : Opaque} {p : Polarity} {a : BitVec 3} {rest : List Event}
    (hs : s.sched = .command (if p.bit then 0x900#12 else 0x800#12) h o a :: rest) :
    step s = .next ((s.used rest h o a).setEffect h ⟨o, p⟩) := by
  obtain ⟨hd, hp⟩ := decodeT_now p
  rw [step_event hs (by simp only [State.blockedOn, hd]), runEvent_command, hd]
  simp only [State.rejected, hp]
  rfl

/-- Settles O41: on an open Handle each of the two is one write of `T[h]`, and a failed change at once a drawn
Config. -/
theorem otherUsersReconfigure : Obligations.OtherUsersReconfigure := by
  refine ⟨fun s h c rest hs ho => ?_, fun s h o p a rest hs ho => ?_⟩
  · have hu := flushNow_touches (s.take rest) h c
    refine ⟨(s.take rest).flushNow h c, step_event hs rfl, ?_, hu.other, hu.encs, hu.caller, hu.tport, hu.rsp, hu.trace,
      hu.sched, ?_, hu.txqDepth⟩ <;> rw [flushNow_open (s := s.take rest) ho]
    · rw [transport_setTransport]; rfl
    · rw [setTransport_draws]; rfl
  · have hu := setEffect_touches (s.used rest h o a) h ⟨o, p⟩
    cases ha : ansErr a with
    | false =>
      have he := setEffect_ok (s := s.used rest h o a) ho ⟨o, p⟩ ha
      refine ⟨_, ⟨o, p⟩, step_command_now hs, ?_, fun _ => ⟨rfl, ?_⟩, nofun, hu.other, hu.encs, hu.caller,
        hu.tport, hu.rsp, hu.trace, hu.sched, hu.txqDepth⟩ <;> rw [he]
      · rw [transport_setTransport]; rfl
      · rw [setTransport_draws]; rfl
    | true =>
      have he := setEffect_err (s := s.used rest h o a) ho ⟨o, p⟩ ha
      refine ⟨_, Config.drawCfg s.draws, step_command_now hs, ?_, nofun, fun _ => ?_, hu.other, hu.encs,
        hu.caller, hu.tport, hu.rsp, hu.trace, hu.sched, hu.txqDepth⟩ <;> rw [he]
      · rw [transport_drawn, transport_setTransport]; rfl
      · rw [drawn_draws, setTransport_draws]; rfl

/-- Settles O43: each of the two is one write of `T[h]`. -/
theorem openingAndClosing : Obligations.OpeningAndClosing := by
  refine ⟨fun s h c rest hs => ?_, fun s h rest hs => ?_⟩
  · have hu := connect_touches (s.take rest) h c
    exact ⟨(s.take rest).connect h c, step_event hs rfl, transport_setTransport .., hu.other, hu.encs, hu.caller,
      hu.tport, hu.rsp, hu.trace, hu.sched, rfl, hu.txqDepth⟩
  · have hu := disconnect_touches (s.take rest) h
    exact ⟨(s.take rest).disconnect h, step_event hs rfl, transport_setTransport .., hu.other, hu.encs, hu.caller,
      hu.tport, hu.rsp, hu.trace, hu.sched, rfl, hu.txqDepth⟩

/-! ### Reset of an instance (R140, R141) -/

section Reset
variable (s : State) (k : EncId)

@[simp] theorem encoder_resetEncoder : (s.resetEncoder k).encoder k = .idle := encoder_setEncoder s k .idle

@[simp] theorem encoder_resetEncoder_other {k' : EncId} (hk : k' ≠ k) :
    (s.resetEncoder k).encoder k' = s.encoder k' := encoder_setEncoder_other s k k' .idle hk

@[simp] theorem transport_resetEncoder (h : Handle) : (s.resetEncoder k).transport h = s.transport h := rfl
@[simp] theorem resetEncoder_encs : (s.resetEncoder k).encs = (s.setEncoder k .idle).encs := rfl
@[simp] theorem resetEncoder_trans : (s.resetEncoder k).trans = s.trans := rfl
@[simp] theorem resetEncoder_rsp : (s.resetEncoder k).rsp = s.rsp := rfl
@[simp] theorem resetEncoder_trace : (s.resetEncoder k).trace = s.trace ++ [.reset k] := rfl
@[simp] theorem resetEncoder_sched : (s.resetEncoder k).sched = s.sched := rfl
@[simp] theorem resetEncoder_draws : (s.resetEncoder k).draws = s.draws := rfl
@[simp] theorem resetEncoder_txqDepth : (s.resetEncoder k).txqDepth = s.txqDepth := rfl

theorem resetEvent_none : s.resetEvent k none = s.resetEncoder k := rfl

theorem resetEvent_some (w : BitVec 3) :
    s.resetEvent k (some w) = ((s.onPort { s.tport with ans := w }).outstandingEffect k).resetEncoder k := rfl

end Reset

/-- The effect of the command in flight touches no Handle, or the one latched. -/
theorem outstandingEffect_touches_latched (s : State) (k : EncId) :
    ∃ g, TouchesOnly g s (s.outstandingEffect k) ∧
      ∀ h, (s.encoder k).tHandle ≠ some h → (s.outstandingEffect k).transport h = s.transport h := by
  rcases outstandingEffect_touches s k with e | ⟨g, hg, hu⟩
  · rw [e]
    exact ⟨0, .refl 0 s, fun _ _ => rfl⟩
  · exact ⟨g, hu, fun h hh => hu.other h fun e => hh (e ▸ hg)⟩

/-- Settles O55: the reset itself is one write of the encoder, after the effect of the command in flight, if any. -/
theorem resetEvent : Obligations.ResetEvent := by
  refine ⟨fun s k rest hs => ?_, fun s k w rest hs hb => ?_⟩
  · exact ⟨(s.take rest).resetEncoder k, step_event hs rfl, encoder_resetEncoder .., fun k' hk =>
      encoder_resetEncoder_other _ _ hk, rfl, rfl, rfl, rfl, rfl⟩
  · obtain ⟨g, hu, hother⟩ := outstandingEffect_touches_latched
      ((s.take rest).onPort { s.tport with ans := w }) k
    refine ⟨(s.take rest).resetEvent k (some w), step_event hs hb, ?_⟩
    rw [resetEvent_some]
    refine ⟨encoder_resetEncoder .., fun k' hk => ?_, hother, hu.rsp, ?_, hu.sched, hu.txqDepth⟩
    · exact (encoder_resetEncoder_other _ _ hk).trans (hu.encoder k')
    · exact (resetEncoder_trace ..).trans (congrArg (· ++ _) hu.trace)

/-! ### The decoded word (00_scope.md section 5) -/

theorem fetchWord_take (s : State) (rest : List Event) (e : Event) :
    (s.take rest).fetchWord e = s.fetchWord e := by cases e <;> rfl

theorem runWord_of_decode {s : State} {iw : IfWord} {i : Instr} (hd : decode iw = .ok i) :
    runWord exec s iw = exec i s := by
  cases iw with
  | q w => cases hd; rfl
  | t w =>
    have hd' : decodeT w = .ok i := hd
    simp only [runWord, hd']

theorem decode_of_decodeTableWord {nbits n : Nat} {iw : IfWord} {i : Instr} (hw : wordOfTable nbits n = some iw)
    (hd : decodeTableWord nbits n = some i) : decode iw = .ok i := by
  simp only [decodeTableWord, hw] at hd
  split at hd
  · next j hj => rw [hj, Option.some.inj hd]
  · cases hd

/-- Settles O46: the step runs the next event, and the event its word. -/
theorem stepRunsDecoded : Obligations.StepRunsDecoded := by
  intro s e rest iw nbits n i hs hb hf hw hd
  rw [step_event hs hb, runEvent, fetchWord_take, hf]
  exact runWord_of_decode (decode_of_decodeTableWord hw hd)

/-! ### Held events (log 9, log 12, log 18) -/

/-- The command instance k has outstanding is held for the Handle latched (R102, D17). -/
theorem heldFor_eq_some_iff {s : State} {k : EncId} {w : BitVec 3} {h : Handle} :
    s.heldFor k w = some h ↔ (∃ l c, s.encoder k = .ap l c ∧ l.h = h ∧ s.setHeld h w = true) ∨
      ∃ l c, s.encoder k = .wr l c ∧ l.h = h ∧ s.writeHeld h w = true := by
  cases he : s.encoder k with
  | idle => simp [State.heldFor, he]
  | rd l => simp [State.heldFor, he]
  | ap l c =>
    simp only [State.heldFor, he, Option.ite_none_right_eq_some, Option.some.injEq]
    constructor
    · rintro ⟨hh, rfl⟩
      exact .inl ⟨l, c, rfl, rfl, hh⟩
    · rintro (⟨_, _, ⟨⟩, rfl, hh⟩ | ⟨_, _, ⟨⟩, _⟩)
      exact ⟨hh, rfl⟩
  | wr l c =>
    simp only [State.heldFor, he, Option.ite_none_right_eq_some, Option.some.injEq]
    constructor
    · rintro ⟨hh, rfl⟩
      exact .inr ⟨l, c, rfl, rfl, hh⟩
    · rintro (⟨_, _, ⟨⟩, _⟩ | ⟨_, _, ⟨⟩, rfl, hh⟩)
      exact ⟨hh, rfl⟩

/-- Another user's SETCFG or WRITE is held for the Handle it is for. -/
theorem blockedOn_command_iff {s : State} {w : BitVec 12} {g h : Handle} {o : Opaque} {a : BitVec 3} :
    s.blockedOn (.command w g o a) = some h ↔ g = h ∧
      ((∃ p, decodeT w = .ok (.setcfg p) ∧ s.setHeld h a = true) ∨
        ∃ d, decodeT w = .ok (.write d) ∧ s.writeHeld h a = true) := by
  unfold State.blockedOn
  dsimp only
  split
  · next p hd =>
    simp only [Option.ite_none_right_eq_some, Option.some.injEq, hd]
    constructor
    · rintro ⟨hh, rfl⟩
      exact ⟨rfl, .inl ⟨p, rfl, hh⟩⟩
    · rintro ⟨rfl, ⟨_, _, hh⟩ | ⟨_, ⟨⟩, _⟩⟩
      exact ⟨hh, rfl⟩
  · next d hd =>
    simp only [Option.ite_none_right_eq_some, Option.some.injEq, hd]
    constructor
    · rintro ⟨hh, rfl⟩
      exact ⟨rfl, .inr ⟨d, rfl, hh⟩⟩
    · rintro ⟨rfl, ⟨_, ⟨⟩, _⟩ | ⟨_, _, hh⟩⟩
      exact ⟨hh, rfl⟩
  · next hset hwrite =>
    constructor
    · nofun
    · rintro ⟨_, ⟨p, hd, _⟩ | ⟨d, hd, _⟩⟩
      · exact absurd hd (hset p)
      · exact absurd hd (hwrite d)

end Sys2Proof.Machine
end

section
/-! Held events and stops (log 9, log 12, log 18; 30_encoding.md R61): which events wait, and that only another user's
word without meaning stops a step. -/

namespace Sys2Proof.Machine

/-! ### Held events -/

/-- The command in flight of instance k is held: SETCFG by a queued Byte, WRITE by a full queue. -/
theorem heldFor_iff_queue {s : State} {k : EncId} {w : BitVec 3} {h : Handle} :
    s.heldFor k w = some h ↔ (s.transport h).isOpen = true ∧
      (((s.transport h).txq ≠ [] ∧ ∃ l c, s.encoder k = .ap l c ∧ l.h = h ∧ ansErr w = false) ∨
       ((s.transport h).full s.txqDepth = true ∧
          ∃ l c, s.encoder k = .wr l c ∧ l.h = h ∧ ansErr w = false ∧ ansCount w = true)) := by
  rw [heldFor_eq_some_iff]
  simp only [setHeld_iff, writeHeld_iff]
  constructor
  · rintro (⟨l, c, he, hl, ho, ha, hq⟩ | ⟨l, c, he, hl, ho, ha, hc, hf⟩)
    · exact ⟨ho, .inl ⟨hq, l, c, he, hl, ha⟩⟩
    · exact ⟨ho, .inr ⟨hf, l, c, he, hl, ha, hc⟩⟩
  · rintro ⟨ho, ⟨hq, l, c, he, hl, ha⟩ | ⟨hf, l, c, he, hl, ha, hc⟩⟩
    · exact .inl ⟨l, c, he, hl, ho, ha, hq⟩
    · exact .inr ⟨l, c, he, hl, ho, ha, hc, hf⟩

/-- Another user's command is held: SETCFG by a queued Byte, WRITE by a full queue. -/
theorem blockedOn_command_iff_queue {s : State} {w : BitVec 12} {g h : Handle} {o : Opaque} {a : BitVec 3} :
    s.blockedOn (.command w g o a) = some h ↔ (s.transport h).isOpen = true ∧
      (((s.transport h).txq ≠ [] ∧ g = h ∧ (∃ p, decodeT w = .ok (.setcfg p)) ∧ ansErr a = false) ∨
       ((s.transport h).full s.txqDepth = true ∧
          g = h ∧ (∃ d, decodeT w = .ok (.write d)) ∧ ansErr a = false ∧ ansCount a = true)) := by
  rw [blockedOn_command_iff]
  simp only [setHeld_iff, writeHeld_iff]
  constructor
  · rintro ⟨hg, ⟨p, hd, ho, ha, hq⟩ | ⟨d, hd, ho, ha, hc, hf⟩⟩
    · exact ⟨ho, .inl ⟨hq, hg, ⟨p, hd⟩, ha⟩⟩
    · exact ⟨ho, .inr ⟨hf, hg, ⟨d, hd⟩, ha, hc⟩⟩
  · rintro ⟨ho, ⟨hq, hg, ⟨p, hd⟩, ha⟩ | ⟨hf, hg, ⟨d, hd⟩, ha, hc⟩⟩
    · exact ⟨hg, .inl ⟨p, hd, ho, ha, hq⟩⟩
    · exact ⟨hg, .inr ⟨d, hd, ho, ha, hc, hf⟩⟩

/-- A hold has a Byte to drain, unless the queue can hold none. -/
theorem queue_of_blockedOn {s : State} {e : Event} {h : Handle} (hb : s.blockedOn e = some h) :
    (s.transport h).txq ≠ [] ∨ s.txqDepth = some 0 := by
  have hold : (s.transport h).txq ≠ [] ∨ (s.transport h).full s.txqDepth = true := by
    cases e with
    | answer k w o => exact (heldFor_iff_queue.1 hb).2.imp And.left And.left
    | command w g o a => exact (blockedOn_command_iff_queue.1 hb).2.imp And.left And.left
    | reset k fate =>
      cases fate with
      | none => cases hb
      | some w => exact (heldFor_iff_queue.1 hb).2.imp And.left And.left
    | _ => cases hb
  rcases hold with hq | hf
  · exact .inl hq
  · obtain ⟨n, hn, hle⟩ := (full_iff _ _).1 hf
    by_cases hq : (s.transport h).txq = []
    · rw [hq, List.length_nil, Nat.le_zero] at hle
      exact .inr (hle ▸ hn)
    · exact .inl hq

/-- Settles O47: the step of a held event, and the events held one by one. -/
theorem heldEventWaits : Obligations.HeldEventWaits := by
  refine ⟨fun s e rest h hs hb => ⟨step_held hs hb, (drain_touches ..).sched.trans hs, queue_of_blockedOn hb⟩,
    fun s e h => ?_⟩
  cases e with
  | answer k w o => exact heldFor_iff_queue.trans (by simp)
  | command w g o a => exact blockedOn_command_iff_queue.trans (by simp)
  | reset k fate =>
    cases fate with
    | none => simp [State.blockedOn]
    | some w => exact heldFor_iff_queue.trans (by simp)
  | _ => simp [State.blockedOn]

/-! ### When a step stops -/

/-- An event goes to a next state, or it is another user's word that no check but the timing's lets pass. -/
theorem runEvent_total (e : Event) (s : State) :
    (∃ t, runEvent exec Config.p2 e s = .next t) ∨
      ∃ w h o a, e = .command w h o a ∧ (decodeT w = .error .cmdZero ∨ decodeT w = .error .unusedBits) ∧
        runEvent exec Config.p2 e s = .refused (.illegalCommandWord w) := by
  cases e with
  | request k w g => exact .inl (exec_total (decodeQ w) _)
  | answer k w o =>
    rw [runEvent_answer]
    cases hc : (s.encoder k).command with
    | none => exact .inl ⟨s, rfl⟩
    | some i => exact .inl (exec_total i _)
  | command w g o a =>
    rw [runEvent_command]
    cases hd : decodeT w with
    | ok i => exact .inl (exec_total i _)
    | error r =>
      cases r with
      | cmdZero => exact .inr ⟨w, g, o, a, rfl, .inl hd, rfl⟩
      | unusedBits => exact .inr ⟨w, g, o, a, rfl, .inr hd, rfl⟩
      | timingZero => exact .inl ⟨_, rfl⟩
  | _ => exact .inl ⟨_, rfl⟩

/-- Settles O49: a drain step never stops, and an event stops only as `runEvent_total` says. -/
theorem stepStopsOnlyOnIllegalWord : Obligations.StepStopsOnlyOnIllegalWord := by
  intro s
  cases hs : s.sched with
  | nil => exact .inl ⟨_, step_nil hs⟩
  | cons e rest =>
    cases hb : s.blockedOn e with
    | some h => exact .inl ⟨_, step_held hs hb⟩
    | none =>
      rw [step_event hs hb]
      rcases runEvent_total e (s.take rest) with ht | ⟨w, h, o, a, rfl, hd, hr⟩
      · exact .inl ht
      · exact .inr ⟨w, h, o, a, rest, rfl, hd, hr⟩

end Sys2Proof.Machine
end

section
/-! A step in its three parts: the signals loaded, an effect on one transport, and a transition of one encoder
(41_frame_sender.md table 4.1, 70_reset_and_hazards.md R140). What a transition adds to the observer's record, and the statements about the
record, the wire and the state after reset. -/

namespace Sys2Proof.Machine

/-! ### The three parts of a step -/

/-- v is s in all but the interface signals, the events to come and the response, which is withdrawn. -/
structure Loaded (s v : State) : Prop where
  encs : v.encs = s.encs
  trans : v.trans = s.trans
  trace : v.trace = s.trace
  rsp : v.rsp = none
  txqDepth : v.txqDepth = s.txqDepth

theorem Loaded.transport {s v : State} (hv : Loaded s v) (h : Handle) : v.transport h = s.transport h := by
  rw [State.transport, hv.trans, State.transport]

theorem Loaded.encoder {s v : State} (hv : Loaded s v) (k : EncId) : v.encoder k = s.encoder k := by
  rw [State.encoder, hv.encs, State.encoder]

theorem loaded_quiet (s : State) : Loaded s s.quiet := ⟨rfl, rfl, rfl, rfl, rfl⟩
theorem loaded_take (s : State) (rest : List Event) : Loaded s (s.take rest) := ⟨rfl, rfl, rfl, rfl, rfl⟩

theorem loaded_requested (s : State) (rest : List Event) (k : EncId) (g : Handle) :
    Loaded s (s.requested rest k g) := ⟨rfl, rfl, rfl, rfl, rfl⟩

theorem loaded_answered (s : State) (rest : List Event) (k : EncId) (w : BitVec 3) (o : Opaque) :
    Loaded s (s.answered rest k w o) := ⟨rfl, rfl, rfl, rfl, rfl⟩

theorem loaded_used (s : State) (rest : List Event) (g : Handle) (o : Opaque) (a : BitVec 3) :
    Loaded s (s.used rest g o a) := ⟨rfl, rfl, rfl, rfl, rfl⟩

/-- The end of a step from s, after its effect has led to u: no transition, one of table 4.1 (R91), or a reset. -/
inductive Transition (s u : State) : State → Prop
  | none : Transition s u u
  | acceptPar8 (k : EncId) (n : Bool) : s.encoder k = .idle → Transition s u (u.respond k ⟨.ok, n⟩)
  | acceptSend9 (k : EncId) (l : Latches) : s.encoder k = .idle → Transition s u (u.enter k (.rd l))
  | readOk (k : EncId) (l : Latches) (c : Cfg) : s.encoder k = .rd l → Transition s u (u.enter k (.ap l c))
  | readErr (k : EncId) (l : Latches) : s.encoder k = .rd l →
      Transition s u (u.finish k ⟨.configReadError, false⟩)
  | applyOk (k : EncId) (l : Latches) (c : Cfg) : s.encoder k = .ap l c → Transition s u (u.enter k (.wr l c))
  | applyErr (k : EncId) (l : Latches) (c : Cfg) : s.encoder k = .ap l c →
      Transition s u (u.finish k ⟨.configApplyError, false⟩)
  | writeOk (k : EncId) (l : Latches) (c : Cfg) (n : Bool) : s.encoder k = .wr l c →
      Transition s u (u.finish k ⟨.ok, n⟩)
  | writeErr (k : EncId) (l : Latches) (c : Cfg) : s.encoder k = .wr l c →
      Transition s u (u.finish k ⟨.writeError, false⟩)
  | reset (k : EncId) (fate : Option (BitVec 3)) (rest : List Event) : s.sched = .reset k fate :: rest →
      s.blockedOn (.reset k fate) = none → Transition s u (u.resetEncoder k)

/-- Every step loads signals, touches one transport at most, and ends in one transition at most. -/
theorem step_splits {s t : State} (h : step s = .next t) :
    ∃ g v u, Loaded s v ∧ TouchesOnly g v u ∧ Transition s u t := by
  cases step_moves h with
  | still => exact ⟨0, _, _, loaded_quiet s, .refl 0 _, .none⟩
  | drainSelf g => exact ⟨g, _, _, loaded_quiet s, drain_touches .., .none⟩
  | drainHeld e rest g => exact ⟨g, _, _, loaded_quiet s, drain_touches .., .none⟩
  | requestWaits k w g rest => exact ⟨0, _, _, loaded_requested s rest k g, .refl 0 _, .none⟩
  | acceptPar8 k w g rest mk b _ he =>
    exact ⟨0, _, _, loaded_requested s rest k g, .refl 0 _, .acceptPar8 k _ he⟩
  | acceptSend9 k w g rest mk b _ he =>
    exact ⟨0, _, _, loaded_requested s rest k g, .refl 0 _, .acceptSend9 k _ he⟩
  | answerStray k w o rest => exact ⟨0, _, _, loaded_take s rest, .refl 0 _, .none⟩
  | readErr k w o rest l _ he =>
    exact ⟨l.h, _, _, loaded_answered s rest k w o, getEffect_touches .., .readErr k l he⟩
  | readOk k w o rest l _ he =>
    exact ⟨l.h, _, _, loaded_answered s rest k w o, getEffect_touches .., .readOk k l _ he⟩
  | applyErr k w o rest l c _ he =>
    exact ⟨l.h, _, _, loaded_answered s rest k w o, setEffect_touches .., .applyErr k l c he⟩
  | applyOk k w o rest l c _ he =>
    exact ⟨l.h, _, _, loaded_answered s rest k w o, setEffect_touches .., .applyOk k l c he⟩
  | writeErr k w o rest l c _ he =>
    exact ⟨l.h, _, _, loaded_answered s rest k w o, writeEffect_touches .., .writeErr k l c he⟩
  | writeOk k w o rest l c _ he =>
    exact ⟨l.h, _, _, loaded_answered s rest k w o, writeEffect_touches .., .writeOk k l c _ he⟩
  | userGet w g o a rest => exact ⟨g, _, _, loaded_used s rest g o a, getEffect_touches .., .none⟩
  | userSet w g o a rest p => exact ⟨g, _, _, loaded_used s rest g o a, setEffect_touches .., .none⟩
  | userSetNow w g o a rest => exact ⟨g, _, _, loaded_used s rest g o a, setEffect_touches .., .none⟩
  | userWrite w g o a rest d => exact ⟨g, _, _, loaded_used s rest g o a, writeEffect_touches .., .none⟩
  | drainEvent g rest => exact ⟨g, _, _, loaded_take s rest, drain_touches .., .none⟩
  | flush g c rest => exact ⟨g, _, _, loaded_take s rest, flushNow_touches .., .none⟩
  | connect g c rest => exact ⟨g, _, _, loaded_take s rest, connect_touches .., .none⟩
  | disconnect g rest => exact ⟨g, _, _, loaded_take s rest, disconnect_touches .., .none⟩
  | reset k fate rest hs hb =>
    cases fate with
    | none => exact ⟨0, _, _, loaded_take s rest, .refl 0 _, .reset k _ rest hs hb⟩
    | some w =>
      obtain ⟨g, hu, _⟩ := outstandingEffect_touches_latched ((s.take rest).onPort { s.tport with ans := w }) k
      have hv : Loaded s ((s.take rest).onPort { s.tport with ans := w }) := ⟨rfl, rfl, rfl, rfl, rfl⟩
      exact ⟨g, _, _, hv, hu, .reset k _ rest hs hb⟩

/-! ### What a transition leaves alone -/

theorem Transition.trans_eq {s u t : State} (ht : Transition s u t) : t.trans = u.trans := by
  cases ht <;> rfl

theorem Transition.txqDepth_eq {s u t : State} (ht : Transition s u t) : t.txqDepth = u.txqDepth := by
  cases ht <;> rfl

theorem Transition.transport_eq {s u t : State} (ht : Transition s u t) (h : Handle) :
    t.transport h = u.transport h := by
  rw [State.transport, ht.trans_eq, State.transport]

/-- Every move of an encoder is a write of the table of encoders. -/
theorem Transition.encs_eq {s u t : State} (ht : Transition s u t) :
    t.encs = u.encs ∨ ∃ k e, t.encs = (u.setEncoder k e).encs := by
  cases ht with
  | none => exact .inl rfl
  | acceptPar8 => exact .inl rfl
  | _ => exact .inr ⟨_, _, rfl⟩

/-- Settles O36: the effect extends the wire of one Handle, and no transition touches one. -/
theorem wireAppendOnly : Obligations.WireAppendOnly := by
  intro s t h hst
  obtain ⟨g, v, u, hv, hu, ht⟩ := step_splits hst
  rw [ht.transport_eq, ← hv.transport]
  exact hu.wire_prefix h

/-- A transition that responds ends in IDLE; without one there is no response. -/
theorem Transition.response {s u t : State} (ht : Transition s u t) (henc : ∀ k, u.encoder k = s.encoder k)
    (hrsp : u.rsp = .none) {k : EncId} {w : BitVec 3} (hw : t.rsp = some (k, w)) :
    t.encoder k = .idle ∧ t.trace = u.trace ++ [.response k w] := by
  have hno {α : Prop} (h : u.rsp = some (k, w)) : α := by rw [hrsp] at h; cases h
  cases ht with
  | acceptPar8 k' n he => cases hw; exact ⟨(henc k).trans he, rfl⟩
  | readErr k' | applyErr k' | writeOk k' | writeErr k' => cases hw; exact ⟨encoder_finish .., rfl⟩
  | none | acceptSend9 | readOk | applyOk | reset => exact hno hw

/-- Settles O26: only a transition responds, and those that do are the answer to a PAR8 and the ends of a SEND9. -/
theorem responseEndsOperation : Obligations.ResponseEndsOperation := by
  intro s t k w hst hw
  obtain ⟨g, v, u, hv, hu, ht⟩ := step_splits hst
  have henc (k : EncId) : u.encoder k = s.encoder k := (hu.encoder k).trans (hv.encoder k)
  have htrace : u.trace = s.trace := hu.trace.trans hv.trace
  exact htrace ▸ ht.response henc (hu.rsp.trans hv.rsp) hw

/-! ### What a transition adds to the record (R37, R96, R125) -/

/-- The record stands where the encoder does: in its phase, on the Handle latched. -/
def Seen.agrees (v : Seen) (e : Encoder) : Prop := v.phase = e.phase ∧ ∀ h, e.tHandle = some h → h = v.h

theorem mask_setcfg (np m : Bool) : (if np != m then 0xB00#12 else 0xA00#12) &&& 0xEFF#12 = 0xA00#12 := by
  cases np <;> cases m <;> rfl

theorem mask_write (d : Byte) : (0xC00#12 ||| d.setWidth 12) &&& 0xF00#12 = 0xC00#12 := by
  rw [← tWord_write]
  exact (Laws.InRow.write d).2

/-- One entry o about an instance that moves from e to e' is legal and in order. -/
structure Recorded (o : Obs) (e e' : Encoder) : Prop where
  legal : o.legal = true
  inOrder : ∀ v : Seen, v.agrees e → ∃ v', v.next o = some v' ∧ v'.agrees e'

theorem recorded_getcfg (k : EncId) (l : Latches) : Recorded (.command k 0x400#12 l.h none) .idle (.rd l) := by
  refine ⟨by rfl, ?_⟩
  rintro ⟨_, g⟩ ⟨rfl, _⟩
  exact ⟨⟨.RD, l.h⟩, rfl, rfl, fun h hh => (Option.some.inj hh).symm⟩

theorem recorded_setcfg (k : EncId) (l : Latches) (c : Cfg) :
    Recorded (.command k (if par8 l.b != l.m then 0xB00#12 else 0xA00#12) l.h (some c.opq)) (.rd l) (.ap l c) := by
  have hmask := mask_setcfg (par8 l.b) l.m
  refine ⟨by simp only [Obs.legal, commandLegal, hmask, beq_self_eq_true, Bool.or_true, Bool.true_or], ?_⟩
  rintro ⟨_, g⟩ ⟨rfl, hg⟩
  obtain rfl := hg l.h rfl
  exact ⟨⟨.AP, l.h⟩, if_pos ⟨hmask, rfl⟩, rfl, fun h hh => (Option.some.inj hh).symm⟩

theorem recorded_write (k : EncId) (l : Latches) (c : Cfg) :
    Recorded (.command k (0xC00#12 ||| l.b.setWidth 12) l.h none) (.ap l c) (.wr l c) := by
  have hmask := mask_write l.b
  refine ⟨by simp only [Obs.legal, commandLegal, hmask, beq_self_eq_true, Bool.or_true], ?_⟩
  rintro ⟨_, g⟩ ⟨rfl, hg⟩
  obtain rfl := hg l.h rfl
  exact ⟨⟨.WR, l.h⟩, if_pos ⟨hmask, rfl⟩, rfl, fun h hh => (Option.some.inj hh).symm⟩

/-- The response (OK, n) in IDLE, of a PAR8, or in WR. -/
theorem recorded_ok (k : EncId) (n : Bool) {e : Encoder} (he : e.phase = .IDLE ∨ e.phase = .WR) :
    Recorded (.response k (responseWord ⟨.ok, n⟩)) e .idle := by
  refine ⟨by cases n <;> rfl, ?_⟩
  rintro ⟨_, g⟩ ⟨rfl, _⟩
  refine ⟨⟨.IDLE, g⟩, ?_, rfl, nofun⟩
  rcases he with he | he <;> rw [he] <;> cases n <;> rfl

/-- An error response in the phase it belongs to. -/
theorem recorded_error (k : EncId) {e : Encoder} {x : Status}
    (he : e.phase = .RD ∧ x = .configReadError ∨ e.phase = .AP ∧ x = .configApplyError ∨
      e.phase = .WR ∧ x = .writeError) :
    Recorded (.response k (responseWord ⟨x, false⟩)) e .idle := by
  refine ⟨by cases x <;> rfl, ?_⟩
  rintro ⟨_, g⟩ ⟨rfl, _⟩
  refine ⟨⟨.IDLE, g⟩, ?_, rfl, nofun⟩
  rcases he with ⟨he, rfl⟩ | ⟨he, rfl⟩ | ⟨he, rfl⟩ <;> rw [he] <;> rfl

theorem recorded_reset (k : EncId) (e : Encoder) : Recorded (.reset k) e .idle :=
  ⟨rfl, fun v _ => ⟨⟨.IDLE, v.h⟩, rfl, rfl, nofun⟩⟩

/-- From u to t one entry is added, about the one instance that moves, legal and in order; s holds the encoders as they
were. -/
def AddsEntry (s u t : State) : Prop :=
  ∃ k o, o.enc = k ∧ t.trace = u.trace ++ [o] ∧ (∀ k', k' ≠ k → t.encoder k' = s.encoder k') ∧
    Recorded o (s.encoder k) (t.encoder k)

section Adding
variable {s u : State} (henc : ∀ k, u.encoder k = s.encoder k) {k : EncId} {e : Encoder} (he : s.encoder k = e)
include henc he

theorem addsEntry_enter {e' : Encoder} {o : Obs} (ho : o.enc = k) (hi : e'.issued k = [o]) (hr : Recorded o e e') :
    AddsEntry s u (u.enter k e') := by
  refine ⟨k, o, ho, by rw [enter_trace, hi], fun k' hk => (encoder_enter_other _ _ _ _ hk).trans (henc k'), ?_⟩
  rwa [he, encoder_enter]

theorem addsEntry_finish {r : Response} (hr : Recorded (.response k (responseWord r)) e .idle) :
    AddsEntry s u (u.finish k r) := by
  refine ⟨k, _, rfl, finish_trace .., fun k' hk => (encoder_finish_other _ _ _ _ hk).trans (henc k'), ?_⟩
  rwa [he, encoder_finish]

end Adding

/-- A transition adds one entry to the record. -/
theorem Transition.addsEntry {s u t : State} (ht : Transition s u t) (henc : ∀ k, u.encoder k = s.encoder k) :
    t = u ∨ AddsEntry s u t := by
  cases ht with
  | none => exact .inl rfl
  | acceptPar8 k n he =>
    refine .inr ⟨k, _, rfl, respond_trace .., fun k' _ => henc k', ?_⟩
    rw [encoder_respond, henc, he]
    exact recorded_ok k n (.inl rfl)
  | acceptSend9 k l he => exact .inr (addsEntry_enter henc he rfl (issued_rd k l) (recorded_getcfg k l))
  | readOk k l c he => exact .inr (addsEntry_enter henc he rfl (issued_ap k l c) (recorded_setcfg k l c))
  | applyOk k l c he => exact .inr (addsEntry_enter henc he rfl (issued_wr k l c) (recorded_write k l c))
  | readErr k l he => exact .inr (addsEntry_finish henc he (recorded_error k (.inl ⟨rfl, rfl⟩)))
  | applyErr k l c he => exact .inr (addsEntry_finish henc he (recorded_error k (.inr (.inl ⟨rfl, rfl⟩))))
  | writeOk k l c n he => exact .inr (addsEntry_finish henc he (recorded_ok k n (.inr rfl)))
  | writeErr k l c he => exact .inr (addsEntry_finish henc he (recorded_error k (.inr (.inr ⟨rfl, rfl⟩))))
  | reset k =>
    refine .inr ⟨k, _, rfl, resetEncoder_trace .., fun k' hk =>
      (encoder_resetEncoder_other _ _ hk).trans (henc k'), ?_⟩
    rw [encoder_resetEncoder]
    exact recorded_reset k _

/-- A step leaves record and encoders, or adds one entry to the record. -/
theorem step_record {s t : State} (h : step s = .next t) :
    (t.trace = s.trace ∧ ∀ k, t.encoder k = s.encoder k) ∨ AddsEntry s s t := by
  obtain ⟨g, v, u, hv, hu, ht⟩ := step_splits h
  have henc (k : EncId) : u.encoder k = s.encoder k := (hu.encoder k).trans (hv.encoder k)
  have htrace : u.trace = s.trace := hu.trace.trans hv.trace
  rcases ht.addsEntry henc with rfl | ⟨k, o, ho, hadd, hr⟩
  · exact .inl ⟨htrace, henc⟩
  · exact .inr ⟨k, o, ho, htrace ▸ hadd, hr⟩

/-! ### The record in order -/

theorem traceFollows_iff {s : State} {k : EncId} :
    s.traceFollows k = true ↔ ∃ v, watch k ⟨.IDLE, 0⟩ s.trace = some v ∧ v.agrees (s.encoder k) := by
  unfold State.traceFollows Seen.agrees
  cases watch k ⟨.IDLE, 0⟩ s.trace with
  | none => simp
  | some v => simp [Option.all_eq_true]

theorem watch_append (k : EncId) (v : Seen) (a b : List Obs) :
    watch k v (a ++ b) = (watch k v a).bind fun v' => watch k v' b := by
  induction a generalizing v with
  | nil => rfl
  | cons o a ih =>
    by_cases ho : o.enc = k
    · cases hn : v.next o with
      | none => simp [watch, ho, hn]
      | some v' => simp [watch, ho, hn, ih]
    · simp [watch, ho, ih]

theorem watch_other {k : EncId} (v : Seen) {o : Obs} (ho : o.enc ≠ k) : watch k v [o] = some v := by
  simp [watch, ho]

theorem watch_self {k : EncId} {v v' : Seen} {o : Obs} (ho : o.enc = k) (hn : v.next o = some v') :
    watch k v [o] = some v' := by
  simp [watch, ho, hn]

/-- Settles O52: an entry about another instance is not watched, one about k is in order by `Recorded`. -/
theorem recordInOrder : Obligations.RecordInOrder := by
  intro s t k hs hst
  obtain ⟨v, hw, hv⟩ := traceFollows_iff.1 hs
  rw [traceFollows_iff]
  rcases step_record hst with ⟨htrace, henc⟩ | ⟨j, o, ho, htrace, hother, hr⟩
  · exact ⟨v, htrace ▸ hw, henc k ▸ hv⟩
  · rw [htrace, watch_append, hw, Option.bind_some]
    by_cases hj : k = j
    · subst hj
      obtain ⟨v', hn, hv'⟩ := hr.inOrder v hv
      exact ⟨v', watch_self ho hn, hv'⟩
    · exact ⟨v, watch_other v fun e => hj (e.symm.trans ho), hother k hj ▸ hv⟩

/-! ### The state after reset (R22 to R24) -/

theorem encoder_reset (k : EncId) : State.reset.encoder k = .idle := rfl

/-- Settles O53: an empty record stands in IDLE, and so does every encoder. -/
theorem resetRecordInOrder : Obligations.ResetRecordInOrder :=
  fun k => traceFollows_iff.2 ⟨⟨.IDLE, 0⟩, rfl, congrArg Encoder.phase (encoder_reset k).symm, nofun⟩

/-- Settles O54: an unlisted instance reads as idle, and no instance is listed. -/
theorem resetState : Obligations.ResetState :=
  ⟨fun k => encoder_reset k ▸ ⟨rfl, rfl, rfl, rfl, rfl⟩, rfl, rfl⟩

end Sys2Proof.Machine
end

section
/-! The invariant (10_state.md R18, 30_encoding.md R52, R61): canonical tables, queues within `TXQ_DEPTH`, legal words in the
record. The queues are followed through each effect; the rest through the three parts of a step. -/

namespace Sys2Proof.Machine

/-! ### Queues within their capacity -/

/-- Every listed queue holds at most `TXQ_DEPTH` Bytes. -/
def State.queuesFit (s : State) : Prop := ∀ e ∈ s.trans, e.2.fits s.txqDepth = true

theorem fits_of_length_le {t t' : Transport} {depth : Option Nat} (ht : t.fits depth = true)
    (hle : t'.txq.length ≤ t.txq.length) : t'.fits depth = true :=
  (fits_iff t' depth).2 fun n hn => hle.trans ((fits_iff t depth).1 ht n hn)

theorem tableGet_mem_or_default {κ α : Type} [DecidableEq κ] (d : α) (m : List (κ × α)) (k : κ) :
    (k, tableGet d m k) ∈ m ∨ tableGet d m k = d := by
  induction m with
  | nil => exact .inr rfl
  | cons e rest ih =>
    obtain ⟨j, v⟩ := e
    by_cases hk : k = j
    · simp [tableGet, hk]
    · simpa [tableGet, hk] using ih

/-- The queue of an unlisted Handle is empty, so every Handle's queue fits. -/
theorem State.queuesFit.transport {s : State} (hs : s.queuesFit) (h : Handle) :
    (s.transport h).fits s.txqDepth = true := by
  rcases tableGet_mem_or_default Transport.absent s.trans h with hmem | hd
  · exact hs _ hmem
  · rw [State.transport, hd]
    cases s.txqDepth <;> rfl

theorem State.queuesFit.congr {s t : State} (hs : s.queuesFit) (htrans : t.trans = s.trans)
    (hdepth : t.txqDepth = s.txqDepth) : t.queuesFit := by
  rwa [State.queuesFit, htrans, hdepth]

section Fits
variable {s : State} (hs : s.queuesFit) (h : Handle)
include hs

/-- A write of `T[h]` that does not lengthen its queue keeps the queues within their capacity. -/
theorem State.queuesFit.setTransport {r : Transport} (hle : r.txq.length ≤ (s.transport h).txq.length) :
    (s.setTransport h r).queuesFit :=
  setTransport_fits s h r hs (fits_of_length_le (hs.transport h) hle)

theorem State.queuesFit.closedEffect : (s.closedEffect h).queuesFit :=
  setTransport_fits s h _ hs (capped_fits ⟨_, Config.drawCfg s.draws, [], _⟩ s.txqDepth _)

theorem State.queuesFit.getEffect : (s.getEffect h).queuesFit := by
  cases ho : (s.transport h).isOpen with
  | true => rwa [getEffect_open ho]
  | false => exact getEffect_closed ho ▸ hs.closedEffect h

theorem State.queuesFit.setEffect (c : Cfg) : (s.setEffect h c).queuesFit := by
  cases ho : (s.transport h).isOpen with
  | false => exact setEffect_closed ho c ▸ hs.closedEffect h
  | true =>
    cases ha : ansErr s.tport.ans with
    | false => exact setEffect_ok ho c ha ▸ hs.setTransport h le_rfl
    | true =>
      rw [setEffect_err ho c ha]
      exact (hs.setTransport h (r := { s.transport h with cfg := Config.drawCfg s.draws }) le_rfl).congr rfl rfl

/-- A WRITE that is not held appends where there is room (R18, D17). -/
theorem State.queuesFit.writeEffect (hh : s.writeHeld h s.tport.ans = false) (b : Byte) :
    (s.writeEffect h b).queuesFit := by
  cases ho : (s.transport h).isOpen with
  | false => exact writeEffect_closed ho b ▸ hs.closedEffect h
  | true =>
    cases hn : !ansErr s.tport.ans && ansCount s.tport.ans with
    | false => rwa [writeEffect_none ho b hn]
    | true =>
      obtain ⟨ha, hc⟩ := by simpa using hn
      rw [writeEffect_one ho b ha hc]
      exact setTransport_fits s h _ hs (append_fits _ _ b (not_full_of_not_held hh ho ha hc))

theorem State.queuesFit.drain : (s.drain Config.p2 h).queuesFit := by
  unfold State.drain
  split
  · exact hs
  · next x r hq =>
    have hle : r.length ≤ (s.transport h).txq.length := by simp [hq]
    split
    · exact hs.setTransport h hle
    · exact (hs.setTransport h (r := ⟨_, _, r, _⟩) hle).congr rfl rfl

theorem State.queuesFit.flushNow (c : Cfg) : (s.flushNow h c).queuesFit := by
  cases ho : (s.transport h).isOpen with
  | false => exact flushNow_closed ho c ▸ hs.closedEffect h
  | true => exact flushNow_open ho c ▸ hs.setTransport h (Nat.zero_le _)

end Fits

/-- The command in flight, where it is not held, keeps the queues within their capacity (R141). -/
theorem State.queuesFit.outstandingEffect {s : State} (hs : s.queuesFit) {k : EncId}
    (hb : s.heldFor k s.tport.ans = none) : (s.outstandingEffect k).queuesFit := by
  cases he : s.encoder k with
  | idle => simpa only [State.outstandingEffect, he]
  | rd l => simpa only [State.outstandingEffect, he] using hs.getEffect l.h
  | ap l c => simpa only [State.outstandingEffect, he] using hs.setEffect l.h _
  | wr l c =>
    have hh : s.writeHeld l.h s.tport.ans = false := by simpa [State.heldFor, he] using hb
    simpa only [State.outstandingEffect, he] using hs.writeEffect l.h hh l.b

/-- Every step keeps the queues within their capacity. -/
theorem step_queuesFit {s t : State} (hs : s.queuesFit) (h : step s = .next t) : t.queuesFit := by
  have hload {v : State} (hv : Loaded s v) : v.queuesFit := hs.congr hv.trans hv.txqDepth
  cases step_moves h with
  | still => exact hs
  | drainSelf g | drainHeld _ _ g => exact (hload (loaded_quiet s)).drain g
  | requestWaits | acceptPar8 | acceptSend9 | answerStray => exact hs
  | readErr k w o rest l => exact ((hload (loaded_answered s rest k w o)).getEffect l.h).congr rfl rfl
  | readOk k w o rest l => exact ((hload (loaded_answered s rest k w o)).getEffect l.h).congr rfl rfl
  | applyErr k w o rest l c => exact ((hload (loaded_answered s rest k w o)).setEffect l.h _).congr rfl rfl
  | applyOk k w o rest l c => exact ((hload (loaded_answered s rest k w o)).setEffect l.h _).congr rfl rfl
  | writeErr k w o rest l c _ _ ha =>
    have hh := writeHeld_of_err (s.answered rest k w o) l.h ha
    exact ((hload (loaded_answered s rest k w o)).writeEffect l.h hh l.b).congr rfl rfl
  | writeOk k w o rest l c _ _ _ hh =>
    exact ((hload (loaded_answered s rest k w o)).writeEffect l.h hh l.b).congr rfl rfl
  | userGet w g o a rest => exact (hload (loaded_used s rest g o a)).getEffect g
  | userSet w g o a rest | userSetNow w g o a rest => exact (hload (loaded_used s rest g o a)).setEffect g _
  | userWrite w g o a rest d _ _ hh => exact (hload (loaded_used s rest g o a)).writeEffect g hh d
  | drainEvent g rest => exact (hload (loaded_take s rest)).drain g
  | flush g c rest => exact (hload (loaded_take s rest)).flushNow g c
  | connect g c rest => exact (hload (loaded_take s rest)).setTransport g le_rfl
  | disconnect g rest => exact (hload (loaded_take s rest)).setTransport g le_rfl
  | reset k fate rest _ hb =>
    cases fate with
    | none => exact hs
    | some w =>
      have hv : ((s.take rest).onPort { s.tport with ans := w }).queuesFit := hs
      exact (hv.outstandingEffect hb).congr rfl rfl

/-! ### The invariant -/

theorem inv_iff {s : State} :
    s.inv = true ↔ tableWf Encoder.reset s.encs = true ∧ tableWf Transport.absent s.trans = true ∧ s.queuesFit ∧
      ∀ o ∈ s.trace, o.legal = true := by
  simp [State.inv, State.queuesFit, and_assoc]

theorem step_record_legal {s t : State} (hs : ∀ o ∈ s.trace, o.legal = true) (h : step s = .next t) :
    ∀ o ∈ t.trace, o.legal = true := by
  rcases step_record h with ⟨htrace, _⟩ | ⟨_, o, _, htrace, _, hr⟩ <;> rw [htrace]
  · exact hs
  · intro o' ho'
    rcases List.mem_append.1 ho' with hold | hnew
    · exact hs o' hold
    · rw [List.mem_singleton.1 hnew]
      exact hr.legal

/-- Settles O50: encoders, transports and depth through the three parts of a step, queues and record by their own
lemmas. -/
theorem invariantKept : Obligations.InvariantKept := by
  intro s t hs hst
  obtain ⟨hencs, htrans, hfit, hlegal⟩ := inv_iff.1 hs
  obtain ⟨g, v, u, hv, hu, ht⟩ := step_splits hst
  have hdepth : t.txqDepth = s.txqDepth := ht.txqDepth_eq.trans (hu.txqDepth.trans hv.txqDepth)
  have hencs' : tableWf Encoder.reset u.encs = true := by rw [hu.encs, hv.encs, hencs]
  refine ⟨inv_iff.2 ⟨?_, ?_, step_queuesFit hfit hst, step_record_legal hlegal hst⟩, hdepth⟩
  · rcases ht.encs_eq with e | ⟨k, e', e⟩ <;> rw [e]
    · exact hencs'
    · exact tableWf_put _ _ _ _ hencs'
  · rw [ht.trans_eq]
    exact hu.wf (hv.trans ▸ htrans)

/-- Settles O51: both tables and the record are empty after reset. -/
theorem resetMeetsInvariant : Obligations.ResetMeetsInvariant :=
  ⟨fun _ _ => ⟨inv_iff.2 ⟨rfl, rfl, nofun, nofun⟩, rfl⟩, rfl⟩

end Sys2Proof.Machine
end

section
/-! What a step does to one transport (10_state.md R18, R19, 20_memory.md R39, 42_transport_interface.md R104, R107): one
inversion for a Handle that is open, one for who may open a Handle, and the moves of the encoders with their effects. -/

namespace Sys2Proof.Machine

/-! ### An effect seen from an open Handle -/

section OpenHandle
variable {s : State} {h : Handle} (ho : (s.transport h).isOpen = true) (g : Handle)
include ho

theorem getEffect_seen : (s.getEffect g).transport h = s.transport h := by
  by_cases hg : h = g
  · subst hg; rw [getEffect_open ho]
  · exact (getEffect_touches s g).other h hg

theorem setEffect_seen (c : Cfg) :
    (s.setEffect g c).transport h = s.transport h ∨
      g = h ∧ ∃ c', (s.setEffect g c).transport h = { s.transport h with cfg := c' } := by
  by_cases hg : h = g
  · subst hg
    cases ha : ansErr s.tport.ans with
    | false => exact .inr ⟨rfl, c, by rw [setEffect_ok ho c ha, transport_setTransport]⟩
    | true =>
      exact .inr ⟨rfl, Config.drawCfg s.draws, by rw [setEffect_err ho c ha, transport_drawn, transport_setTransport]⟩
  · exact .inl ((setEffect_touches s g c).other h hg)

/-- Where a WRITE that is not held shows, it has appended its Byte to a queue with room. -/
theorem writeEffect_seen (b : Byte) (hh : s.writeHeld g s.tport.ans = false) :
    (s.writeEffect g b).transport h = s.transport h ∨
      g = h ∧ (s.transport h).full s.txqDepth = false ∧
        (s.writeEffect g b).transport h = { s.transport h with txq := (s.transport h).txq ++ [b] } := by
  by_cases hg : h = g
  · subst hg
    cases hn : !ansErr s.tport.ans && ansCount s.tport.ans with
    | false => exact .inl (by rw [writeEffect_none ho b hn])
    | true =>
      obtain ⟨ha, hc⟩ := by simpa using hn
      exact .inr ⟨rfl, not_full_of_not_held hh ho ha hc, by rw [writeEffect_one ho b ha hc, transport_setTransport]⟩
  · exact .inl ((writeEffect_touches s g b).other h hg)

theorem flushNow_seen (c : Cfg) :
    (s.flushNow g c).transport h = s.transport h ∨
      g = h ∧ (s.flushNow g c).transport h = { s.transport h with cfg := c, txq := [] } := by
  by_cases hg : h = g
  · subst hg; exact .inr ⟨rfl, by rw [flushNow_open ho, transport_setTransport]⟩
  · exact .inl ((flushNow_touches s g c).other h hg)

end OpenHandle

/-- A drain step seen from any Handle: nothing, or the oldest Byte becomes a frame (R104). -/
theorem drain_seen (s : State) (g h : Handle) :
    (s.drain Config.p2 g).transport h = s.transport h ∨
      ∃ x r f, (s.transport h).txq = x :: r ∧
        ((s.transport h).framed Config.p2 = true → f = ⟨x, pgen (s.transport h).cfg.parity x⟩) ∧
        (s.drain Config.p2 g).transport h =
          { s.transport h with txq := r, wire := (s.transport h).wire ++ [f] } := by
  by_cases hg : h = g
  · subst hg
    cases hq : (s.transport h).txq with
    | nil => exact .inl (by rw [drain_nil hq])
    | cons x r =>
      by_cases hf : (s.transport h).framed Config.p2 = true
      · exact .inr ⟨x, r, _, rfl, fun _ => rfl, by rw [drain_cons hq hf, transport_setTransport]⟩
      · exact .inr ⟨x, r, Config.drawFrame s.draws, rfl, fun hp => absurd hp hf, by simp [State.drain, hq, hf]⟩
  · exact .inl ((drain_touches Config.p2 s g).other h hg)

/-! ### A step seen from an open Handle -/

/-- What `T[h]` can be after a step from s in which h is open, and by which event. -/
inductive OpenChange (s : State) (h : Handle) : Transport → Prop
  | same : OpenChange s h (s.transport h)
  | emit (x : Byte) (r : List Byte) (f : Frame) : (s.transport h).txq = x :: r →
      ((s.transport h).framed Config.p2 = true → f = ⟨x, pgen (s.transport h).cfg.parity x⟩) →
      OpenChange s h { s.transport h with txq := r, wire := (s.transport h).wire ++ [f] }
  | append (b : Byte) : (s.transport h).full s.txqDepth = false →
      OpenChange s h { s.transport h with txq := (s.transport h).txq ++ [b] }
  | apply (k : EncId) (w : BitVec 3) (o : Opaque) (rest : List Event) (l : Latches) (c c' : Cfg) :
      s.sched = .answer k w o :: rest → s.encoder k = .ap l c → l.h = h →
      (ansErr w = false → (s.transport h).txq = []) → OpenChange s h { s.transport h with cfg := c' }
  | applyAtReset (k : EncId) (w : BitVec 3) (rest : List Event) (c' : Cfg) :
      s.sched = .reset k (some w) :: rest → (s.encoder k).tHandle = some h →
      OpenChange s h { s.transport h with cfg := c' }
  | command (w : BitVec 12) (o : Opaque) (a : BitVec 3) (rest : List Event) (c' : Cfg) :
      s.sched = .command w h o a :: rest → OpenChange s h { s.transport h with cfg := c' }
  | flush (c : Cfg) (rest : List Event) : s.sched = .flush h c :: rest →
      OpenChange s h { s.transport h with cfg := c, txq := [] }
  | connect (c : Cfg) (rest : List Event) : s.sched = .connect h c :: rest →
      OpenChange s h { s.transport h with isOpen := true, cfg := c }
  | disconnect (rest : List Event) : s.sched = .disconnect h :: rest →
      OpenChange s h { s.transport h with isOpen := false }

section Effects
variable {s v : State} {h g : Handle} {T : Transport}

theorem openChange_same (hT : T = v.transport h) (hv : Loaded s v) : OpenChange s h T := by
  rw [hT, hv.transport]; exact .same

theorem openChange_drain (hv : Loaded s v) (g : Handle) : OpenChange s h ((v.drain Config.p2 g).transport h) := by
  rcases drain_seen v g h with e | ⟨x, r, f, hq, hf, e⟩
  · exact openChange_same e hv
  · rw [e, hv.transport]
    rw [hv.transport] at hq hf
    exact .emit x r f hq hf

theorem openChange_write (hv : Loaded s v) (ho : (s.transport h).isOpen = true) (b : Byte)
    (hh : v.writeHeld g v.tport.ans = false) : OpenChange s h ((v.writeEffect g b).transport h) := by
  rcases writeEffect_seen (hv.transport h ▸ ho) g b hh with e | ⟨_, hroom, e⟩
  · exact openChange_same e hv
  · rw [e, hv.transport]
    rw [hv.transport, hv.txqDepth] at hroom
    exact .append b hroom

/-- A SETCFG changes the Config at most; `hset` says which event it is where it is for h. -/
theorem openChange_set (hv : Loaded s v) (ho : (s.transport h).isOpen = true) (c : Cfg)
    (hset : g = h → ∀ c', OpenChange s h { s.transport h with cfg := c' }) :
    OpenChange s h ((v.setEffect g c).transport h) := by
  rcases setEffect_seen (hv.transport h ▸ ho) g c with e | ⟨hg, c', e⟩
  · exact openChange_same e hv
  · rw [e, hv.transport]
    exact hset hg c'

end Effects

theorem openChange_reset {s : State} {h : Handle} {k : EncId} {w : BitVec 3} {rest : List Event}
    (hs : s.sched = .reset k (some w) :: rest) (ho : (s.transport h).isOpen = true)
    (hb : s.blockedOn (.reset k (some w)) = none) :
    OpenChange s h (((s.take rest).resetEvent k (some w)).transport h) := by
  rw [resetEvent_some, transport_resetEncoder]
  have hv : Loaded s ((s.take rest).onPort { s.tport with ans := w }) := ⟨rfl, rfl, rfl, rfl, rfl⟩
  have hlatched {l : Latches} (he : (s.encoder k).tHandle = some l.h) (hl : l.h = h) (c' : Cfg) :
      OpenChange s h { s.transport h with cfg := c' } := .applyAtReset k w rest c' hs (hl ▸ he)
  unfold State.outstandingEffect
  split
  · exact openChange_same rfl hv
  · next l he => exact openChange_same (getEffect_seen (hv.transport h ▸ ho) l.h) hv
  · next l c he =>
    have he' : s.encoder k = .ap l c := he
    exact openChange_set hv ho _ (hlatched (by rw [he']; rfl))
  · next l c he =>
    have he' : s.encoder k = .wr l c := he
    have hh : s.writeHeld l.h w = false := by simpa [State.blockedOn, State.heldFor, he'] using hb
    exact openChange_write hv ho l.b hh

theorem step_open {s t : State} {h : Handle} (hst : step s = .next t) (ho : (s.transport h).isOpen = true) :
    OpenChange s h (t.transport h) := by
  cases step_moves hst with
  | still => exact .same
  | drainSelf g | drainHeld _ _ g => exact openChange_drain (loaded_quiet s) g
  | requestWaits | acceptPar8 | acceptSend9 | answerStray => exact .same
  | readErr k w o rest l | readOk k w o rest l =>
    exact openChange_same (getEffect_seen (s := s.answered rest k w o) ho l.h) (loaded_answered s rest k w o)
  | applyErr k w o rest l c hs he ha =>
    exact openChange_set (loaded_answered s rest k w o) ho _ fun hl c' =>
      .apply k w o rest l c c' hs he hl (by simp [ha])
  | applyOk k w o rest l c hs he ha hq =>
    exact openChange_set (loaded_answered s rest k w o) ho _ fun hl c' =>
      .apply k w o rest l c c' hs he hl fun _ => hl ▸ hq (hl.symm ▸ ho)
  | writeErr k w o rest l c _ _ ha =>
    exact openChange_write (loaded_answered s rest k w o) ho l.b (writeHeld_of_err _ _ ha)
  | writeOk k w o rest l c _ _ _ hh => exact openChange_write (loaded_answered s rest k w o) ho l.b hh
  | userGet w g o a rest =>
    exact openChange_same (getEffect_seen (s := s.used rest g o a) ho g) (loaded_used s rest g o a)
  | userSet w g o a rest _ hs | userSetNow w g o a rest hs =>
    exact openChange_set (loaded_used s rest g o a) ho _ fun hg c' => .command w o a rest c' (hg ▸ hs)
  | userWrite w g o a rest d _ _ hh => exact openChange_write (loaded_used s rest g o a) ho d hh
  | drainEvent g rest => exact openChange_drain (loaded_take s rest) g
  | flush g c rest hs =>
    rcases flushNow_seen (s := s.take rest) ho g c with e | ⟨rfl, e⟩
    · exact openChange_same e (loaded_take s rest)
    · exact e ▸ .flush c rest hs
  | connect g c rest hs =>
    by_cases hg : h = g
    · subst hg
      rw [State.connect, transport_setTransport]
      exact .connect c rest hs
    · exact openChange_same ((connect_touches (s.take rest) g c).other h hg) (loaded_take s rest)
  | disconnect g rest hs =>
    by_cases hg : h = g
    · subst hg
      rw [State.disconnect, transport_setTransport]
      exact .disconnect rest hs
    · exact openChange_same ((disconnect_touches (s.take rest) g).other h hg) (loaded_take s rest)
  | reset k fate rest hs hb =>
    cases fate with
    | none => exact .same
    | some w => exact openChange_reset hs ho hb

/-- Settles O35: of the changes of an open Handle one appends, one emits, one discards, and the others leave queue and
wire. -/
theorem queueFirstInFirstOut : Obligations.QueueFirstInFirstOut := by
  intro s t h hst ho
  generalize hT : t.transport h = T
  have hc : OpenChange s h T := hT ▸ step_open hst ho
  cases hc with
  | emit x r f hq hf => exact .inr (.inr (.inl ⟨x, r, f, hq, rfl, rfl, hf⟩))
  | append b hroom => exact .inr (.inl ⟨b, rfl, rfl, hroom⟩)
  | flush c rest hs => exact .inr (.inr (.inr ⟨c, rest, hs, rfl, rfl⟩))
  | _ => exact .inl ⟨rfl, rfl⟩

/-- Settles O37: the changes of an open Handle that write its Config name their event. -/
theorem configWrittenOnlyBy : Obligations.ConfigWrittenOnlyBy := by
  intro s t h hst ho hne
  generalize hT : t.transport h = T at hne
  have hc : OpenChange s h T := hT ▸ step_open hst ho
  cases hc with
  | same | emit | append | disconnect => exact absurd rfl hne
  | apply k w o rest l c c' hs he hl hq => exact .inl ⟨k, w, o, rest, l, c, hs, he, hl, hq⟩
  | command w o a rest c' hs => exact .inr (.inl ⟨w, o, a, rest, hs⟩)
  | flush c rest hs => exact .inr (.inr (.inl ⟨c, rest, hs⟩))
  | connect c rest hs => exact .inr (.inr (.inr (.inl ⟨c, rest, hs⟩)))
  | applyAtReset k w rest c' hs he => exact .inr (.inr (.inr (.inr ⟨k, w, rest, hs, he⟩)))

end Sys2Proof.Machine
end

section
/-! Who opens and closes a Handle (41_frame_sender.md R96, 42_transport_interface.md R108), and which steps move an encoder
(41_frame_sender.md table 4.1, 70_reset_and_hazards.md R140). -/

namespace Sys2Proof.Machine

/-! ### Opening and closing -/

/-- Event e, in state s, is an opening of h or a command on h: what may leave open a Handle that was not (log 4). -/
def State.mayOpen (s : State) (h : Handle) : Event → Prop
  | .request _ _ _ => False
  | .answer k _ _ => (s.encoder k).tHandle = some h
  | .drain _ => False
  | .command _ g _ _ => g = h
  | .flush g _ => g = h
  | .connect g _ => g = h
  | .disconnect _ => False
  | .reset k fate => fate.isSome ∧ (s.encoder k).tHandle = some h

/-- An effect on another Handle opens nothing; so one that opens h is on h. -/
theorem TouchesOnly.eq_of_opens {s v u : State} {g h : Handle} (hu : TouchesOnly g v u) (hv : Loaded s v)
    (hc : (s.transport h).isOpen = false) (ho : (u.transport h).isOpen = true) : g = h := by
  by_contra hg
  rw [hu.other h (Ne.symm hg), hv.transport, hc] at ho
  cases ho

theorem drain_isOpen (s : State) (g h : Handle) :
    ((s.drain Config.p2 g).transport h).isOpen = (s.transport h).isOpen := by
  rcases drain_seen s g h with e | ⟨x, r, f, _, _, e⟩ <;> rw [e]

theorem step_opens {s t : State} {h : Handle} (hst : step s = .next t) (hc : (s.transport h).isOpen = false)
    (ho : (t.transport h).isOpen = true) : ∃ e rest, s.sched = e :: rest ∧ s.mayOpen h e := by
  have hclosed {α : Prop} {T : Transport} (hT : T.isOpen = (s.transport h).isOpen) (hT' : T.isOpen = true) : α := by
    rw [hT, hc] at hT'; cases hT'
  cases step_moves hst with
  | still | requestWaits | acceptPar8 | acceptSend9 | answerStray => exact hclosed rfl ho
  | drainSelf g | drainHeld _ _ g => exact hclosed (drain_isOpen s.quiet g h) ho
  | drainEvent g rest => exact hclosed (drain_isOpen (s.take rest) g h) ho
  | readErr k w o rest l hs he | readOk k w o rest l hs he =>
    have hl := (getEffect_touches _ l.h).eq_of_opens (loaded_answered s rest k w o) hc ho
    exact ⟨_, rest, hs, show _ = _ by rw [he, ← hl]; rfl⟩
  | applyErr k w o rest l c hs he | applyOk k w o rest l c hs he =>
    have hl := (setEffect_touches _ l.h _).eq_of_opens (loaded_answered s rest k w o) hc ho
    exact ⟨_, rest, hs, show _ = _ by rw [he, ← hl]; rfl⟩
  | writeErr k w o rest l c hs he | writeOk k w o rest l c hs he =>
    have hl := (writeEffect_touches _ l.h l.b).eq_of_opens (loaded_answered s rest k w o) hc ho
    exact ⟨_, rest, hs, show _ = _ by rw [he, ← hl]; rfl⟩
  | userGet w g o a rest hs =>
    exact ⟨_, rest, hs, (getEffect_touches _ g).eq_of_opens (loaded_used s rest g o a) hc ho⟩
  | userSet w g o a rest p hs =>
    exact ⟨_, rest, hs, (setEffect_touches _ g _).eq_of_opens (loaded_used s rest g o a) hc ho⟩
  | userSetNow w g o a rest hs =>
    exact ⟨_, rest, hs, (setEffect_touches _ g _).eq_of_opens (loaded_used s rest g o a) hc ho⟩
  | userWrite w g o a rest d hs =>
    exact ⟨_, rest, hs, (writeEffect_touches _ g d).eq_of_opens (loaded_used s rest g o a) hc ho⟩
  | flush g c rest hs =>
    exact ⟨_, rest, hs, (flushNow_touches _ g c).eq_of_opens (loaded_take s rest) hc ho⟩
  | connect g c rest hs =>
    exact ⟨_, rest, hs, (connect_touches _ g c).eq_of_opens (loaded_take s rest) hc ho⟩
  | disconnect g rest hs =>
    have hg := (disconnect_touches _ g).eq_of_opens (loaded_take s rest) hc ho
    subst hg
    rw [State.disconnect, transport_setTransport] at ho
    cases ho
  | reset k fate rest hs =>
    cases fate with
    | none => exact hclosed rfl ho
    | some w =>
      refine ⟨_, rest, hs, rfl, by_contra fun hh => ?_⟩
      obtain ⟨_, _, hother⟩ := outstandingEffect_touches_latched ((s.take rest).onPort { s.tport with ans := w }) k
      exact hclosed (congrArg Transport.isOpen (hother h hh)) ho

/-- Settles O44: of the changes of an open Handle only the closing clears the bit, and `step_opens` says what may
set it. -/
theorem openChangesOnlyBy : Obligations.OpenChangesOnlyBy := by
  intro s t h hst
  refine ⟨fun ho hc => ?_, fun hc ho => ?_⟩
  · generalize hT : t.transport h = T at hc
    have hch : OpenChange s h T := hT ▸ step_open hst ho
    cases hch with
    | disconnect rest hs => exact ⟨rest, hs⟩
    | connect => cases hc
    | _ => exact absurd (ho.symm.trans hc) (by decide)
  · obtain ⟨e, rest, hs, hm⟩ := step_opens hst hc ho
    cases e with
    | request | drain | disconnect => exact hm.elim
    | connect g c => exact .inl ⟨c, rest, hm ▸ hs⟩
    | answer k w o => exact .inr (.inl ⟨k, w, o, rest, hs, hm⟩)
    | command w g o a => exact .inr (.inr (.inl ⟨w, o, a, rest, hm ▸ hs⟩))
    | flush g c => exact .inr (.inr (.inr (.inl ⟨c, rest, hm ▸ hs⟩)))
    | reset k fate =>
      obtain ⟨hsome, hh⟩ := hm
      obtain ⟨w, rfl⟩ := Option.isSome_iff_exists.1 hsome
      exact .inr (.inr (.inr (.inr ⟨k, w, rest, hs, hh⟩)))

/-! ### Which steps move an encoder -/

/-- Where the transition is the write of instance j's encoder, an encoder that moves is that of j. -/
theorem eq_of_encoder_moves {s u : State} (henc : ∀ k, u.encoder k = s.encoder k) {j k : EncId} {e : Encoder}
    (hne : (u.setEncoder j e).encoder k ≠ s.encoder k) : k = j := by
  by_contra hk
  exact hne ((encoder_setEncoder_other u j k e hk).trans (henc k))

/-- Settles O25: the moves of a step that write an encoder, each with its row of table 4.1; the others leave every
encoder. -/
theorem encoderMovesOnlyByTable : Obligations.EncoderMovesOnlyByTable := by
  intro s t k hst hne
  cases step_moves hst with
  | still | requestWaits | acceptPar8 | answerStray => exact absurd rfl hne
  | drainSelf g | drainHeld _ _ g | drainEvent g => exact absurd ((drain_touches _ _ g).encoder k) hne
  | userGet _ g => exact absurd ((getEffect_touches _ g).encoder k) hne
  | userSet _ g | userSetNow _ g => exact absurd ((setEffect_touches _ g _).encoder k) hne
  | userWrite _ g _ _ _ d => exact absurd ((writeEffect_touches _ g d).encoder k) hne
  | flush g c => exact absurd ((flushNow_touches _ g c).encoder k) hne
  | connect g c => exact absurd ((connect_touches _ g c).encoder k) hne
  | disconnect g => exact absurd ((disconnect_touches _ g).encoder k) hne
  | acceptSend9 j w g rest mk b hs he hd =>
    obtain rfl : k = j := eq_of_encoder_moves (fun _ => rfl) hne
    exact .inr (.inl ⟨w, g, rest, mk, b, he, hs, hd, encoder_enter .., rfl, rfl⟩)
  | readErr j w o rest l hs he ha =>
    have hu := getEffect_touches (s.answered rest j w o) l.h
    obtain rfl : k = j := eq_of_encoder_moves hu.encoder hne
    refine .inr (.inr ⟨w, o, rest, hs, .inl ⟨l, he, .inr ⟨ha, encoder_finish .., rfl, fun ho => ?_⟩⟩⟩)
    rw [finish_trans, getEffect_open (s := s.answered rest k w o) ho, answered_trans]
  | readOk j w o rest l hs he ha =>
    have hu := getEffect_touches (s.answered rest j w o) l.h
    obtain rfl : k = j := eq_of_encoder_moves hu.encoder hne
    refine .inr (.inr ⟨w, o, rest, hs, .inl ⟨l, he, .inl ⟨_, ha, encoder_enter .., hu.rsp, fun ho => ⟨?_, ?_⟩⟩⟩⟩)
    · exact getAnswer_cfg (s := s.answered rest k w o) ho ha
    · rw [enter_trans, getEffect_open (s := s.answered rest k w o) ho, answered_trans]
  | applyErr j w o rest l c hs he ha =>
    have hu := setEffect_touches (s.answered rest j w o) l.h ⟨c.opq, sendMode l⟩
    obtain rfl : k = j := eq_of_encoder_moves hu.encoder hne
    refine .inr (.inr ⟨w, o, rest, hs, .inr (.inl ⟨l, c, he, .inr ⟨ha, encoder_finish .., rfl, fun ho =>
      ⟨Config.drawCfg s.draws, ?_⟩⟩⟩)⟩)
    rw [transport_finish, setEffect_err (s := s.answered rest k w o) ho _ ha, transport_drawn, transport_setTransport]
    rfl
  | applyOk j w o rest l c hs he ha hq =>
    have hu := setEffect_touches (s.answered rest j w o) l.h ⟨c.opq, sendMode l⟩
    obtain rfl : k = j := eq_of_encoder_moves hu.encoder hne
    refine .inr (.inr ⟨w, o, rest, hs, .inr (.inl ⟨l, c, he, .inl ⟨ha, encoder_enter .., hu.rsp, fun ho =>
      ⟨hq ho, ?_⟩⟩⟩)⟩)
    rw [transport_enter, setEffect_ok (s := s.answered rest k w o) ho _ ha, transport_setTransport]
    rfl
  | writeErr j w o rest l c hs he ha =>
    have hu := writeEffect_touches (s.answered rest j w o) l.h l.b
    obtain rfl : k = j := eq_of_encoder_moves hu.encoder hne
    refine .inr (.inr ⟨w, o, rest, hs, .inr (.inr ⟨l, c, he, encoder_finish .., .inr (.inr ⟨ha, rfl, fun ho => ?_⟩)⟩)⟩)
    rw [finish_trans, writeEffect_none (s := s.answered rest k w o) ho l.b (by simp [ha]), answered_trans]
  | writeOk j w o rest l c hs he ha hh =>
    have hu := writeEffect_touches (s.answered rest j w o) l.h l.b
    obtain rfl : k = j := eq_of_encoder_moves hu.encoder hne
    refine .inr (.inr ⟨w, o, rest, hs, .inr (.inr ⟨l, c, he, encoder_finish .., ?_⟩)⟩)
    cases hc : ansCount w with
    | true =>
      refine .inl ⟨ha, rfl, rfl, fun ho => ⟨not_full_of_not_held hh ho ha hc, ?_⟩⟩
      rw [transport_finish, writeEffect_one (s := s.answered rest k w o) ho l.b ha hc, transport_setTransport]
      rfl
    | false =>
      refine .inr (.inl ⟨ha, rfl, rfl, fun ho => ?_⟩)
      rw [finish_trans, writeEffect_none (s := s.answered rest k w o) ho l.b (by simp [hc]), answered_trans]
  | reset j fate rest hs =>
    cases fate with
    | none =>
      obtain rfl : k = j := eq_of_encoder_moves (fun _ => rfl) hne
      exact .inl ⟨_, rest, hs, encoder_resetEncoder .., rfl⟩
    | some w =>
      obtain ⟨_, hu, _⟩ := outstandingEffect_touches_latched ((s.take rest).onPort { s.tport with ans := w }) j
      obtain rfl : k = j := eq_of_encoder_moves hu.encoder hne
      exact .inl ⟨_, rest, hs, encoder_resetEncoder .., hu.rsp⟩

end Sys2Proof.Machine
end

section
/-! What the peer of a Handle is owed (20_memory.md R40 to R43, 70_reset_and_hazards.md R143): one step under exclusivity keeps
every frame owed, and adds the accepted one. -/

namespace Sys2Proof.Machine

/-! ### The premises and the guarantee, taken apart -/

/-- What an instance in e has ensured about `T[h]`: in AP the opaque part, in WR the empty queue and the mode (R85, R86). -/
def Encoder.readyFor (e : Encoder) (h : Handle) (T : Transport) : Prop :=
  (∀ l c, e = .ap l c → l.h = h → c.opq = T.cfg.opq) ∧
    ∀ l c, e = .wr l c → l.h = h → T.txq = [] ∧ T.cfg.parity = sendMode l

theorem sendReady_iff {s : State} {k : EncId} {h : Handle} :
    s.sendReady k h = true ↔ s.premises h = true ∧ (s.encoder k).readyFor h (s.transport h) := by
  unfold State.sendReady Encoder.readyFor
  cases s.encoder k with
  | idle => simp
  | rd l => simp
  | ap l c => simp [← imp_iff_not_or]
  | wr l c => simp [← imp_iff_not_or]

theorem premises_iff {s : State} {h : Handle} :
    s.premises h = true ↔ (s.transport h).isOpen = true ∧ (s.transport h).framed Config.p2 = true := by
  simp [State.premises]

/-- An instance with no operation on h has nothing to ensure about it. -/
theorem readyFor_of_tHandle_ne {e : Encoder} {h : Handle} (he : e.tHandle ≠ some h) (T : Transport) :
    e.readyFor h T :=
  ⟨fun _ _ hl hh => absurd (by rw [hl, ← hh]; rfl) he, fun _ _ hl hh => absurd (by rw [hl, ← hh]; rfl) he⟩

theorem readyFor_idle (h : Handle) (T : Transport) : (Encoder.idle : Encoder).readyFor h T :=
  readyFor_of_tHandle_ne (by simp [Encoder.tHandle, Encoder.latches]) T

theorem readyFor_rd (l : Latches) (h : Handle) (T : Transport) : (Encoder.rd l : Encoder).readyFor h T := by
  simp [Encoder.readyFor]

theorem acceptedFrames_of_tHandle_ne {s : State} {k : EncId} {h : Handle} (he : (s.encoder k).tHandle ≠ some h)
    (t : State) : acceptedFrames k h s t = [] := by
  unfold acceptedFrames
  split
  · next l c hl =>
    have hh : l.h ≠ h := fun hh => he (by rw [hl, ← hh]; rfl)
    exact if_neg fun hc => hh hc.1
  · rfl

theorem acceptedFrames_of_rsp_ne {s t : State} {k : EncId} (hr : t.rsp ≠ some (k, 1#3)) (h : Handle) :
    acceptedFrames k h s t = [] := by
  unfold acceptedFrames
  split
  · exact if_neg fun hc => hr hc.2
  · rfl

theorem acceptedFrames_of_not_wr {s : State} {k : EncId} (he : ∀ l c, s.encoder k ≠ .wr l c) (h : Handle)
    (t : State) : acceptedFrames k h s t = [] := by
  unfold acceptedFrames
  split
  · next l c hl => exact absurd hl (he l c)
  · rfl

/-- An instance that stays where it is in WR has not responded. -/
theorem acceptedFrames_of_same {s t : State} {k : EncId} (hst : step s = .next t)
    (he : t.encoder k = s.encoder k) (h : Handle) : acceptedFrames k h s t = [] := by
  by_cases hw : ∃ l c, s.encoder k = .wr l c
  · obtain ⟨l, c, hw⟩ := hw
    refine acceptedFrames_of_rsp_ne (fun hr => ?_) h
    have hidle := (responseEndsOperation s t k _ hst hr).1
    rw [he, hw] at hidle
    cases hidle
  · exact acceptedFrames_of_not_wr (fun l c hl => hw ⟨l, c, hl⟩) h t

theorem encoder_resetEvent (s : State) (k : EncId) (fate : Option (BitVec 3)) :
    (s.resetEvent k fate).encoder k = .idle := by
  cases fate <;> exact encoder_resetEncoder ..

theorem encoder_resetEvent_other (s : State) {j k : EncId} (fate : Option (BitVec 3)) (hk : k ≠ j) :
    (s.resetEvent j fate).encoder k = s.encoder k := by
  cases fate with
  | none => exact encoder_resetEncoder_other _ _ hk
  | some w =>
    obtain ⟨_, hu, _⟩ := outstandingEffect_touches_latched (s.onPort { s.tport with ans := w }) j
    exact (encoder_resetEncoder_other _ _ hk).trans (hu.encoder k)

/-! ### What one step keeps -/

/-- From s to t instance k stays ready on h, and the frames owed grow by the accepted one alone. -/
def Keeps (k : EncId) (h : Handle) (s t : State) : Prop :=
  t.sendReady k h = true ∧ t.pending h = s.pending h ++ acceptedFrames k h s t

section Kept
variable {s t : State} {k : EncId} {h : Handle} (hp : s.premises h = true)
include hp

/-- `T[h]` as it was, and the instance still ready for it. -/
theorem keeps_of_transport_eq (hT : t.transport h = s.transport h)
    (hr : (t.encoder k).readyFor h (s.transport h)) (ha : acceptedFrames k h s t = []) : Keeps k h s t := by
  refine ⟨sendReady_iff.2 ⟨?_, hT ▸ hr⟩, ?_⟩
  · rw [State.premises, hT]
    exact hp
  · rw [ha, List.append_nil, State.pending, hT, State.pending]

variable (hr : (s.encoder k).readyFor h (s.transport h))
include hr

theorem keeps_of_same (hst : step s = .next t) (hT : t.transport h = s.transport h)
    (he : t.encoder k = s.encoder k) : Keeps k h s t :=
  keeps_of_transport_eq hp hT (he ▸ hr) (acceptedFrames_of_same hst he h)

/-- A frame emission turns the oldest Byte queued into the frame it was owed as (R104). -/
theorem keeps_of_drain {v : State} {g : Handle} (hv : Loaded s v) (ht : t = v.drain Config.p2 g)
    (hst : step s = .next t) : Keeps k h s t := by
  have he : t.encoder k = s.encoder k := by
    rw [ht, (drain_touches Config.p2 v g).encoder, hv.encoder]
  rcases drain_seen v g h with hT | ⟨x, r, f, hq, hf, hT⟩ <;> rw [← ht, hv.transport] at hT
  · exact keeps_of_same hp hr hst hT he
  · rw [hv.transport] at hq hf
    obtain rfl := hf (premises_iff.1 hp).2
    refine ⟨sendReady_iff.2 ⟨?_, ?_⟩, ?_⟩
    · rw [State.premises, hT]
      exact hp
    · rw [he, hT]
      exact ⟨hr.1, fun l c hl hh => absurd (hr.2 l c hl hh).1 (by simp [hq])⟩
    · rw [acceptedFrames_of_same hst he, State.pending, State.pending, hT, hq, framesUnder_cons]
      simp

/-- The answer to a command of instance j on another Handle. -/
theorem keeps_of_answer_elsewhere {v u : State} {j : EncId} {g : Handle} (hst : step s = .next t)
    (hv : Loaded s v) (hu : TouchesOnly g v u) (hj : (s.encoder j).tHandle = some g) (hg : g ≠ h)
    (hT : t.transport h = u.transport h) (htj : (t.encoder j).tHandle ≠ some h)
    (hother : ∀ i, i ≠ j → t.encoder i = u.encoder i) : Keeps k h s t := by
  have hsame : t.transport h = s.transport h := by rw [hT, hu.other h (Ne.symm hg), hv.transport]
  by_cases hk : k = j
  · subst hk
    have hsj : (s.encoder k).tHandle ≠ some h := by
      rw [hj]
      exact fun e => hg (Option.some.inj e)
    exact keeps_of_transport_eq hp hsame (readyFor_of_tHandle_ne htj _) (acceptedFrames_of_tHandle_ne hsj t)
  · exact keeps_of_same hp hr hst hsame ((hother k hk).trans ((hu.encoder k).trans (hv.encoder k)))

/-- The command of another user on another Handle, or an agent there. -/
theorem keeps_of_elsewhere {v : State} {g : Handle} (hst : step s = .next t) (hv : Loaded s v)
    (hu : TouchesOnly g v t) (hg : g ≠ h) : Keeps k h s t :=
  keeps_of_same hp hr hst ((hu.other h (Ne.symm hg)).trans (hv.transport h)) ((hu.encoder k).trans (hv.encoder k))

/-- A reset abandons no operation of k on h, and no command on h takes effect (R141, R143). -/
theorem keeps_of_reset {j : EncId} {fate : Option (BitVec 3)} {rest : List Event} (hst : step s = .next t)
    (ht : t = (s.take rest).resetEvent j fate) (hu : s.otherUse k h (.reset j fate) = false) : Keeps k h s t := by
  have hT : t.transport h = s.transport h := by
    cases fate with
    | none => rw [ht]; rfl
    | some w =>
      obtain ⟨_, _, hother⟩ := outstandingEffect_touches_latched ((s.take rest).onPort { s.tport with ans := w }) j
      rw [ht]
      exact hother h (by simpa [State.otherUse] using hu)
  by_cases hk : k = j
  · subst hk
    have hidle : t.encoder k = .idle := by rw [ht, encoder_resetEvent]
    have hsk : (s.encoder k).tHandle ≠ some h := by simpa [State.otherUse] using hu
    exact keeps_of_transport_eq hp hT (hidle ▸ readyFor_idle h _) (acceptedFrames_of_tHandle_ne hsk t)
  · exact keeps_of_same hp hr hst hT (by rw [ht, encoder_resetEvent_other _ _ hk, encoder_take])

end Kept

/-! ### The steps of instance k itself on h -/

section Own
variable {s : State} {k : EncId} {l : Latches} {c : Cfg} (hp : s.premises l.h = true)
include hp

/-- The instance is back in IDLE and `T[h]` as it was, without an Ok(1). -/
theorem keeps_of_own_finish {u : State} {r : Response} (hT : u.transport l.h = s.transport l.h)
    (hrsp : responseWord r ≠ 1#3) : Keeps k l.h s (u.finish k r) := by
  refine keeps_of_transport_eq hp hT ?_ (acceptedFrames_of_rsp_ne ?_ _)
  · rw [encoder_finish]
    exact readyFor_idle _ _
  · rw [finish_rsp]
    exact fun e => hrsp (congrArg Prod.snd (Option.some.inj e))

theorem keeps_of_own_readOk {v : State} (hv : Loaded s v) (he : s.encoder k = .rd l)
    (ha : ansErr v.tport.ans = false) :
    Keeps k l.h s ((v.getEffect l.h).enter k (.ap l (ansCfg (v.getAnswer l.h) (v.getOpaque l.h)))) := by
  have ho : (v.transport l.h).isOpen = true := hv.transport l.h ▸ (premises_iff.1 hp).1
  rw [getEffect_open ho, getAnswer_cfg ho ha, hv.transport]
  refine keeps_of_transport_eq hp (hv.transport l.h) ?_ (acceptedFrames_of_not_wr (fun l' c' hw => ?_) _ _)
  · rw [encoder_enter]
    exact ⟨fun l' c' hl _ => by cases hl; rfl, nofun⟩
  · rw [he] at hw
    cases hw

theorem keeps_of_own_applyOk {v : State} (hv : Loaded s v) (he : s.encoder k = .ap l c)
    (hr : (s.encoder k).readyFor l.h (s.transport l.h)) (ha : ansErr v.tport.ans = false)
    (hq : (s.transport l.h).txq = []) :
    Keeps k l.h s ((v.setEffect l.h ⟨c.opq, sendMode l⟩).enter k (.wr l c)) := by
  obtain ⟨ho, hf⟩ := premises_iff.1 hp
  have hT := setEffect_ok (hv.transport l.h ▸ ho) ⟨c.opq, sendMode l⟩ ha
  rw [hv.transport] at hT
  rw [hT]
  have hopq : c.opq = (s.transport l.h).cfg.opq := hr.1 l c he rfl
  have hacc := acceptedFrames_of_not_wr (s := s) (k := k) (fun l' c' hw => by rw [he] at hw; cases hw) l.h
  refine ⟨sendReady_iff.2 ⟨premises_iff.2 ?_, ?_⟩, ?_⟩
  · rw [transport_enter, transport_setTransport]
    exact ⟨ho, by rw [Transport.framed, hopq]; exact hf⟩
  · rw [transport_enter, transport_setTransport, encoder_enter]
    exact ⟨nofun, fun l' c' hl _ => by cases hl; exact ⟨hq, rfl⟩⟩
  · rw [hacc, State.pending, State.pending, transport_enter, transport_setTransport, hq]
    simp

/-- WR-1 adds the Byte, queued under the mode that gives it its marker (R84, R92). -/
theorem keeps_of_own_writeOne {v : State} (hv : Loaded s v) (he : s.encoder k = .wr l c)
    (hr : (s.encoder k).readyFor l.h (s.transport l.h)) (ha : ansErr v.tport.ans = false)
    (hc : ansCount v.tport.ans = true) :
    Keeps k l.h s ((v.writeEffect l.h l.b).finish k ⟨.ok, true⟩) := by
  have ho := (premises_iff.1 hp).1
  obtain ⟨hq, hmode⟩ := hr.2 l c he rfl
  have hT := writeEffect_one (hv.transport l.h ▸ ho) l.b ha hc
  rw [hv.transport] at hT
  rw [hT]
  refine ⟨sendReady_iff.2 ⟨?_, ?_⟩, ?_⟩
  · rw [State.premises, transport_finish, transport_setTransport]
    exact hp
  · rw [encoder_finish]
    exact readyFor_idle _ _
  · have hmark : pgen (sendMode l) l.b = l.m := pgen_muxMode l.b l.m
    have hacc : ∀ u : State, acceptedFrames k l.h s (u.finish k ⟨.ok, true⟩) = [⟨l.b, l.m⟩] := by
      intro u
      unfold acceptedFrames
      rw [he]
      exact if_pos ⟨rfl, rfl⟩
    rw [hacc, State.pending, State.pending, transport_finish, transport_setTransport, hq, hmode, ← hmark]
    simp [framesUnder]

end Own

/-! ### One step under exclusivity -/

/-- The next event is no step of another agent on h, and no failed apply there, unless it is held. -/
theorem exclusive_event {s : State} {k : EncId} {h : Handle} {e : Event} {rest : List Event}
    (hx : s.exclusiveNext k h = true) (hs : s.sched = e :: rest) (hb : s.blockedOn e = none) :
    s.otherUse k h e = false ∧ s.failedApply h e = false := by
  simpa [State.exclusiveNext, hs, hb] using hx

/-- An answer on h is to instance k's own command. -/
theorem eq_of_otherUse_answer {s : State} {j k : EncId} {h : Handle} {w : BitVec 3} {o : Opaque}
    (hu : s.otherUse k h (.answer j w o) = false) (hj : (s.encoder j).tHandle = some h) : j = k := by
  simpa [State.otherUse, hj] using hu

theorem keeps_of_event {s t : State} {k : EncId} {h : Handle} (hp : s.premises h = true)
    (hr : (s.encoder k).readyFor h (s.transport h)) (hst : step s = .next t)
    (hx : ∀ e rest, s.sched = e :: rest → s.otherUse k h e = false ∧ s.failedApply h e = false) :
    Keeps k h s t := by
  have hlatched {j : EncId} {e : Encoder} (he : s.encoder j = e) : (s.encoder j).tHandle = e.tHandle := he ▸ rfl
  have hne {g : Handle} (hg : g ≠ h) : some g ≠ some h := fun e => hg (Option.some.inj e)
  cases step_moves hst with
  | still | requestWaits | answerStray => exact keeps_of_same hp hr hst rfl rfl
  | acceptPar8 => exact keeps_of_same hp hr hst rfl rfl
  | drainSelf | drainHeld => exact keeps_of_drain hp hr (loaded_quiet s) rfl hst
  | drainEvent g rest => exact keeps_of_drain hp hr (loaded_take s rest) rfl hst
  | acceptSend9 j w g rest mk b _ he =>
    by_cases hk : k = j
    · subst hk
      refine keeps_of_transport_eq hp rfl ?_ (acceptedFrames_of_not_wr (fun l c hw => ?_) h _)
      · rw [encoder_enter]
        exact readyFor_rd _ _ _
      · rw [he] at hw
        cases hw
    · exact keeps_of_same hp hr hst rfl (encoder_enter_other _ _ _ _ hk)
  | readErr j w o rest l hs he ha =>
    have hu := getEffect_touches (s.answered rest j w o) l.h
    by_cases hl : l.h = h
    · subst hl
      obtain rfl := eq_of_otherUse_answer (hx _ _ hs).1 (hlatched he)
      exact keeps_of_own_finish hp (getEffect_seen (s := s.answered rest j w o) (premises_iff.1 hp).1 l.h) (by decide)
    · exact keeps_of_answer_elsewhere hp hr hst (loaded_answered s rest j w o) hu (hlatched he) hl rfl
        (by rw [encoder_finish]; nofun) fun i hi => encoder_finish_other _ _ _ _ hi
  | readOk j w o rest l hs he ha =>
    have hu := getEffect_touches (s.answered rest j w o) l.h
    by_cases hl : l.h = h
    · subst hl
      obtain rfl := eq_of_otherUse_answer (hx _ _ hs).1 (hlatched he)
      exact keeps_of_own_readOk hp (loaded_answered s rest j w o) he ha
    · exact keeps_of_answer_elsewhere hp hr hst (loaded_answered s rest j w o) hu (hlatched he) hl rfl
        (by rw [encoder_enter]; exact hne hl) fun i hi => encoder_enter_other _ _ _ _ hi
  | applyErr j w o rest l c hs he ha =>
    have hu := setEffect_touches (s.answered rest j w o) l.h ⟨c.opq, sendMode l⟩
    have hl : l.h ≠ h := by simpa [State.failedApply, he, ha] using (hx _ _ hs).2
    exact keeps_of_answer_elsewhere hp hr hst (loaded_answered s rest j w o) hu (hlatched he) hl rfl
      (by rw [encoder_finish]; nofun) fun i hi => encoder_finish_other _ _ _ _ hi
  | applyOk j w o rest l c hs he ha hq =>
    have hu := setEffect_touches (s.answered rest j w o) l.h ⟨c.opq, sendMode l⟩
    by_cases hl : l.h = h
    · subst hl
      obtain rfl := eq_of_otherUse_answer (hx _ _ hs).1 (hlatched he)
      exact keeps_of_own_applyOk hp (loaded_answered s rest j w o) he hr ha (hq (premises_iff.1 hp).1)
    · exact keeps_of_answer_elsewhere hp hr hst (loaded_answered s rest j w o) hu (hlatched he) hl rfl
        (by rw [encoder_enter]; exact hne hl) fun i hi => encoder_enter_other _ _ _ _ hi
  | writeErr j w o rest l c hs he ha =>
    have hu := writeEffect_touches (s.answered rest j w o) l.h l.b
    by_cases hl : l.h = h
    · subst hl
      obtain rfl := eq_of_otherUse_answer (hx _ _ hs).1 (hlatched he)
      have hT := writeEffect_none (s := s.answered rest j w o) (premises_iff.1 hp).1 l.b (by simp [ha])
      exact keeps_of_own_finish hp (by rw [hT]; rfl) (by decide)
    · exact keeps_of_answer_elsewhere hp hr hst (loaded_answered s rest j w o) hu (hlatched he) hl rfl
        (by rw [encoder_finish]; nofun) fun i hi => encoder_finish_other _ _ _ _ hi
  | writeOk j w o rest l c hs he ha hh =>
    have hu := writeEffect_touches (s.answered rest j w o) l.h l.b
    by_cases hl : l.h = h
    · subst hl
      obtain rfl := eq_of_otherUse_answer (hx _ _ hs).1 (hlatched he)
      cases hc : ansCount w with
      | true => exact keeps_of_own_writeOne hp (loaded_answered s rest j w o) he hr ha hc
      | false =>
        have hT := writeEffect_none (s := s.answered rest j w o) (premises_iff.1 hp).1 l.b (by simp [hc])
        exact keeps_of_own_finish hp (by rw [hT]; rfl) (by decide)
    · exact keeps_of_answer_elsewhere hp hr hst (loaded_answered s rest j w o) hu (hlatched he) hl rfl
        (by rw [encoder_finish]; nofun) fun i hi => encoder_finish_other _ _ _ _ hi
  | userGet w g o a rest hs =>
    exact keeps_of_elsewhere hp hr hst (loaded_used s rest g o a) (getEffect_touches _ g)
      (by simpa [State.otherUse] using (hx _ _ hs).1)
  | userSet w g o a rest p hs | userSetNow w g o a rest hs =>
    exact keeps_of_elsewhere hp hr hst (loaded_used s rest g o a) (setEffect_touches _ g _)
      (by simpa [State.otherUse] using (hx _ _ hs).1)
  | userWrite w g o a rest d hs =>
    exact keeps_of_elsewhere hp hr hst (loaded_used s rest g o a) (writeEffect_touches _ g d)
      (by simpa [State.otherUse] using (hx _ _ hs).1)
  | flush g c rest hs =>
    exact keeps_of_elsewhere hp hr hst (loaded_take s rest) (flushNow_touches _ g c)
      (by simpa [State.otherUse] using (hx _ _ hs).1)
  | connect g c rest hs =>
    exact keeps_of_elsewhere hp hr hst (loaded_take s rest) (connect_touches _ g c)
      (by simpa [State.otherUse] using (hx _ _ hs).1)
  | disconnect g rest hs =>
    exact keeps_of_elsewhere hp hr hst (loaded_take s rest) (disconnect_touches _ g)
      (by simpa [State.otherUse] using (hx _ _ hs).1)
  | reset j fate rest hs hb => exact keeps_of_reset hp hr hst rfl (hx _ _ hs).1

/-- Settles O38: a drain step emits what was owed; an event is one of instance k's own steps on h, or elsewhere. -/
theorem oneStepKeepsPendingFrames : Obligations.OneStepKeepsPendingFrames := by
  intro s t k h hready hx hst
  obtain ⟨hp, hr⟩ := sendReady_iff.1 hready
  rcases step_cases hst with ⟨hs, rfl⟩ | ⟨e, rest, g, hs, hb, rfl⟩ | ⟨e, rest, hs, hb, _⟩
  · rcases autoDrain_cases s.quiet with e | ⟨g, e⟩
    · exact keeps_of_same hp hr hst (by rw [e]; rfl) (by rw [e]; rfl)
    · exact keeps_of_drain hp hr (loaded_quiet s) e hst
  · exact keeps_of_drain hp hr (loaded_quiet s) rfl hst
  · exact keeps_of_event hp hr hst fun e' rest' hs' => by
      obtain ⟨rfl, rfl⟩ := List.cons.inj (hs.symm.trans hs')
      exact exclusive_event hx hs hb

end Sys2Proof.Machine
end

section
/-! The block's guarantee (41_frame_sender.md R92) over a whole run: the frames owed only grow, and the response (OK, 1) of the
SEND9 comes with its frame. -/

namespace Sys2Proof.Machine

/-! ### Runs -/

theorem runSteps_succ {n : Nat} {s t : State} (h : step s = .next t) : runSteps (n + 1) s = runSteps n t := by
  rw [runSteps, h]

/-- What every step that keeps the premise keeps, a run that keeps it keeps. -/
theorem exclusiveRun_keeps {I : State → Prop} {k : EncId} {h : Handle}
    (hstep : ∀ u u', I u → u.exclusiveNext k h = true → step u = .next u' → I u') (n : Nat) {s t : State}
    (hs : I s) (hx : exclusiveRun k h n s = true) (hr : runSteps n s = .next t) : I t := by
  induction n generalizing s with
  | zero => exact Host.Outcome.next.inj hr ▸ hs
  | succ n ih =>
    obtain ⟨hnext, hrest⟩ := (Bool.and_eq_true _ _).mp hx
    rw [runSteps] at hr
    cases hst : step s with
    | next u =>
      rw [hst] at hr hrest
      exact ih (hstep s u hs hnext hst) hrest hr
    | fault r => rw [hst] at hr; cases hr
    | refused r => rw [hst] at hr; cases hr

/-! ### The first response in a record -/

theorem firstResponse_append (k : EncId) (a b : List Obs) :
    firstResponse k (a ++ b) = (firstResponse k a).or (firstResponse k b) := by
  induction a with
  | nil => rfl
  | cons o a ih =>
    cases o with
    | response j w => by_cases hj : j = k <;> simp [firstResponse, hj, ih]
    | command | reset => simpa [firstResponse] using ih

theorem firstResponse_other {k : EncId} {o : Obs} (ho : o.enc ≠ k) : firstResponse k [o] = none := by
  cases o with
  | response j w => simpa [firstResponse, Obs.enc] using ho
  | command | reset => rfl

/-! ### One step of an operation in flight -/

/-- How a step can leave the operation of instance k with latches l: in flight without a response; ended by its response,
in WR if that is (OK, 1); abandoned by a reset. -/
inductive FlightStep (s t : State) (k : EncId) (l : Latches) : Prop
  | goesOn (tr : List Obs) : t.trace = s.trace ++ tr → firstResponse k tr = none →
      (t.encoder k).latches = some l → FlightStep s t k l
  | responds (w : BitVec 3) : t.trace = s.trace ++ [.response k w] → t.rsp = some (k, w) →
      (w = 1#3 → ∃ c, s.encoder k = .wr l c) → FlightStep s t k l
  | isReset (fate : Option (BitVec 3)) (rest : List Event) : s.sched = .reset k fate :: rest →
      s.blockedOn (.reset k fate) = none → FlightStep s t k l

section Flight
variable {s u : State} {k j : EncId} {l : Latches} (hu : u.trace = s.trace) (hl : (u.encoder k).latches = some l)
include hu hl

theorem flightStep_enter {e : Encoder} {w : BitVec 12} {g : Handle} {o : Option Opaque}
    (hi : e.issued j = [.command j w g o]) (he : k = j → e.latches = some l) : FlightStep s (u.enter j e) k l := by
  refine .goesOn [.command j w g o] (by rw [enter_trace, hu, hi]) rfl ?_
  by_cases hj : k = j
  · rw [hj, encoder_enter, he hj]
  · rw [encoder_enter_other _ _ _ _ hj, hl]

theorem flightStep_finish {r : Response} (hr : k = j → responseWord r = 1#3 → ∃ c, s.encoder k = .wr l c) :
    FlightStep s (u.finish j r) k l := by
  by_cases hj : k = j
  · subst hj
    exact .responds _ (by rw [finish_trace, hu]) (finish_rsp ..) (hr rfl)
  · refine .goesOn [.response j (responseWord r)] (by rw [finish_trace, hu]) ?_ ?_
    · exact firstResponse_other fun e => hj e.symm
    · rw [encoder_finish_other _ _ _ _ hj, hl]

end Flight

theorem step_inFlight {s t : State} {k : EncId} {l : Latches} (hst : step s = .next t)
    (hl : (s.encoder k).latches = some l) : FlightStep s t k l := by
  obtain ⟨g, v, u, hv, hu, ht⟩ := step_splits hst
  have htrace : u.trace = s.trace := hu.trace.trans hv.trace
  have hlu : (u.encoder k).latches = some l := by rw [hu.encoder, hv.encoder, hl]
  have hlatched {j : EncId} {e : Encoder} (he : s.encoder j = e) (hj : k = j) : e.latches = some l := by
    rw [← he, ← hj, hl]
  cases ht with
  | none => exact .goesOn [] (by rw [htrace, List.append_nil]) rfl hlu
  | acceptPar8 j n he =>
    refine .goesOn [.response j _] (by rw [respond_trace, htrace]) ?_ hlu
    exact firstResponse_other fun hj => nomatch hlatched he hj.symm
  | acceptSend9 j l' he => exact flightStep_enter htrace hlu (issued_rd j l') fun hj => nomatch hlatched he hj
  | readOk j l' c he => exact flightStep_enter htrace hlu (issued_ap j l' c) fun hj => (hlatched he hj : some l' = some l)
  | applyOk j l' c he => exact flightStep_enter htrace hlu (issued_wr j l' c) fun hj => (hlatched he hj : some l' = some l)
  | readErr | applyErr | writeErr => exact flightStep_finish htrace hlu fun _ hw => absurd hw (by decide)
  | writeOk j l' c n he =>
    refine flightStep_finish htrace hlu fun hj _ => ⟨c, ?_⟩
    obtain rfl : l' = l := Option.some.inj (hlatched he hj)
    exact hj ▸ he
  | reset j fate rest hs hb =>
    by_cases hj : k = j
    · exact .isReset fate rest (hj ▸ hs) (hj ▸ hb)
    · refine .goesOn [.reset j] (by rw [resetEncoder_trace, htrace]) rfl ?_
      rw [encoder_resetEncoder_other _ _ hj, hlu]

/-! ### The run from the acceptance on -/

/-- With P the frames owed and a the record before the SEND9 with latches l was accepted: instance k is ready on its
Handle and P still owed; in flight nothing else is owed, and once the response is (OK, 1) the Byte with its marker is
owed next. -/
structure Owed (k : EncId) (l : Latches) (P : List Frame) (a : List Obs) (u : State) : Prop where
  ready : u.sendReady k l.h = true
  earlier : P <+: u.pending l.h
  answered : ∃ tr, u.trace = a ++ tr ∧
    ((firstResponse k tr = none ∧ (u.encoder k).latches = some l ∧ u.pending l.h = P) ∨
      ∃ w, firstResponse k tr = some w ∧ (w = 1#3 → P ++ [⟨l.b, l.m⟩] <+: u.pending l.h))

theorem acceptedFrames_of_wr {s t : State} {k : EncId} {l : Latches} {c : Cfg} (he : s.encoder k = .wr l c)
    (hr : t.rsp = some (k, 1#3)) : acceptedFrames k l.h s t = [⟨l.b, l.m⟩] := by
  unfold acceptedFrames
  rw [he]
  exact if_pos ⟨rfl, hr⟩

/-- While the operation is in flight no frame of its own is owed yet. -/
theorem acceptedFrames_of_inFlight {s t : State} {k : EncId} {l : Latches} (hst : step s = .next t)
    (hl : (t.encoder k).latches = some l) (h : Handle) : acceptedFrames k h s t = [] := by
  refine acceptedFrames_of_rsp_ne (fun hr => ?_) h
  rw [(responseEndsOperation s t k _ hst hr).1] at hl
  cases hl

/-- An operation in flight on its Handle is not abandoned under exclusivity (R143). -/
theorem not_reset_of_exclusive {s : State} {k : EncId} {l : Latches} {fate : Option (BitVec 3)} {rest : List Event}
    (hx : s.exclusiveNext k l.h = true) (hl : (s.encoder k).latches = some l) (hs : s.sched = .reset k fate :: rest)
    (hb : s.blockedOn (.reset k fate) = none) : False := by
  have hu := (exclusive_event hx hs hb).1
  simp [State.otherUse, Encoder.tHandle, hl] at hu

theorem Owed.step {k : EncId} {l : Latches} {P : List Frame} {a : List Obs} {u u' : State} (h : Owed k l P a u)
    (hx : u.exclusiveNext k l.h = true) (hst : step u = .next u') : Owed k l P a u' := by
  obtain ⟨hready, hP, tr, htr, hans⟩ := h
  obtain ⟨hready', hpend⟩ := oneStepKeepsPendingFrames u u' k l.h hready hx hst
  have hgrow : u.pending l.h <+: u'.pending l.h := hpend ▸ List.prefix_append ..
  refine ⟨hready', hP.trans hgrow, ?_⟩
  rcases hans with ⟨hnone, hl, hall⟩ | ⟨w, hw, hframe⟩
  · cases step_inFlight hst hl with
    | goesOn tr' htr' hno hl' =>
      refine ⟨tr ++ tr', by rw [htr', htr, List.append_assoc], .inl ⟨?_, hl', ?_⟩⟩
      · rw [firstResponse_append, hnone, hno, Option.none_or]
      · rw [hpend, acceptedFrames_of_inFlight hst hl', List.append_nil, hall]
    | responds w htr' hrsp hwr =>
      refine ⟨tr ++ [.response k w], by rw [htr', htr, List.append_assoc], .inr ⟨w, ?_, ?_⟩⟩
      · simp [firstResponse_append, hnone, firstResponse]
      · rintro rfl
        obtain ⟨c, he⟩ := hwr rfl
        rw [hpend, acceptedFrames_of_wr he hrsp, hall]
    | isReset fate rest hs hb => exact (not_reset_of_exclusive hx hl hs hb).elim
  · obtain ⟨tr', htr'⟩ : ∃ tr', u'.trace = u.trace ++ tr' := by
      rcases step_record hst with ⟨e, _⟩ | ⟨_, o, _, e, _⟩
      · exact ⟨[], by rw [e, List.append_nil]⟩
      · exact ⟨[o], e⟩
    refine ⟨tr ++ tr', by rw [htr', htr, List.append_assoc], .inr ⟨w, ?_, fun h1 => (hframe h1).trans hgrow⟩⟩
    rw [firstResponse_append, hw, Option.some_or]

/-- The state in which a SEND9 has been accepted. -/
def State.accepted (s : State) (rest : List Event) (k : EncId) (h : Handle) (b mk : Byte) : State :=
  (s.requested rest k h).enter k (.rd ⟨h, b, canon mk⟩)

section Accepting
variable {s : State} {k : EncId} {h : Handle} {w : BitVec 17} {mk b : Byte} {rest : List Event}

theorem step_accept (hd : decodeQ w = .send9 mk b) (hs : s.sched = .request k w h :: rest)
    (he : s.encoder k = .idle) : step s = .next (s.accepted rest k h b mk) := by
  rw [step_event hs rfl, runEvent_request, hd]
  exact exec_send9_idle (s := s.requested rest k h) mk b he

theorem encoder_accepted : (s.accepted rest k h b mk).encoder k = .rd ⟨h, b, canon mk⟩ := encoder_enter ..

/-- At the acceptance nothing is on the record but the GETCFG presented. -/
theorem owed_of_accepted (hp : s.premises h = true) :
    Owed k ⟨h, b, canon mk⟩ (s.pending h) s.trace (s.accepted rest k h b mk) := by
  refine ⟨sendReady_iff.2 ⟨hp, ?_⟩, List.prefix_rfl, [.command k 0x400#12 h none], ?_, .inl ⟨rfl, ?_, rfl⟩⟩
  · rw [encoder_accepted]
    exact readyFor_rd _ _ _
  · exact congrArg (s.trace ++ ·) (issued_rd k ⟨h, b, canon mk⟩)
  · rw [encoder_accepted]
    rfl

end Accepting

/-- Settles O27: the frames owed are followed from the acceptance through the rest of the run. -/
theorem frameCarriesMarker : Obligations.FrameCarriesMarker := by
  intro n s t k h w mk b rest hd hs he hp hx hrun
  cases n with
  | zero =>
    obtain rfl := Host.Outcome.next.inj hrun
    rw [List.drop_length]
    exact ⟨List.prefix_rfl, nofun⟩
  | succ n =>
    have hu := step_accept hd hs he
    obtain ⟨_, hxu⟩ := (Bool.and_eq_true _ _).mp hx
    rw [hu] at hxu
    rw [runSteps_succ hu] at hrun
    obtain ⟨_, hearlier, tr, htr, hans⟩ :=
      exclusiveRun_keeps (fun _ _ => Owed.step) n (owed_of_accepted hp) hxu hrun
    refine ⟨hearlier, fun hfirst => ?_⟩
    rw [htr, List.drop_left] at hfirst
    have hframe : s.pending h ++ [⟨b, canon mk⟩] <+: t.pending h := by
      rcases hans with ⟨hnone, _⟩ | ⟨w', hw', hframe⟩
      · rw [hfirst] at hnone
        cases hnone
      · exact hframe (Option.some.inj (hw'.symm.trans hfirst))
    refine ⟨hframe, fun hq => ?_⟩
    have hwire : t.pending h = (t.transport h).wire := by
      rw [State.pending, hq, framesUnder_nil, List.append_nil]
    rwa [hwire] at hframe

end Sys2Proof.Machine
end

section
/-! Whole runs (41_frame_sender.md R93, 70_reset_and_hazards.md R145): a SEND9 from its acceptance to its response, and another
user's ordinary send after it, followed as stages of instance k and of `T[h]`. -/

namespace Sys2Proof.Machine

theorem runSteps_add {m : Nat} {s t : State} (h : runSteps m s = .next t) (n : Nat) :
    runSteps (m + n) s = runSteps n t := by
  induction m generalizing s with
  | zero => rw [Nat.zero_add, Host.Outcome.next.inj h]
  | succ m ih =>
    rw [runSteps] at h
    rw [Nat.succ_add, runSteps]
    cases hst : step s with
    | next u => rw [hst] at h; exact ih h
    | fault r => rw [hst] at h; cases h
    | refused r => rw [hst] at h; cases h

theorem runSteps_one {s t : State} (h : step s = .next t) : runSteps 1 s = .next t := runSteps_succ h

/-! ### Frame emission under premise P2 (R104) -/

/-- `T[h]` after a frame emission under premise P2. -/
def Transport.emitted (T : Transport) : Transport :=
  match T.txq with
  | [] => T
  | x :: r => { T with txq := r, wire := T.wire ++ [⟨x, pgen T.cfg.parity x⟩] }

/-- `T[h]` when the whole queue has been emitted under premise P2. -/
def Transport.drained (T : Transport) : Transport :=
  { T with txq := [], wire := T.wire ++ framesUnder T.cfg.parity T.txq }

theorem emitted_nil {T : Transport} (hq : T.txq = []) : T.emitted = T := by
  rw [Transport.emitted, hq]

theorem emitted_cons {T : Transport} {x : Byte} {r : List Byte} (hq : T.txq = x :: r) :
    T.emitted = { T with txq := r, wire := T.wire ++ [⟨x, pgen T.cfg.parity x⟩] } := by
  rw [Transport.emitted, hq]

theorem drained_nil {T : Transport} (hq : T.txq = []) : T.drained = T := by
  obtain ⟨o, c, q, w⟩ := T
  obtain rfl : q = [] := hq
  simp [Transport.drained]

theorem drained_emitted (T : Transport) : T.emitted.drained = T.drained := by
  cases hq : T.txq with
  | nil => rw [emitted_nil hq]
  | cons x r => simp [emitted_cons hq, Transport.drained, hq, framesUnder_cons]

theorem emitted_length (T : Transport) : T.emitted.txq.length = T.txq.length - 1 := by
  cases hq : T.txq with
  | nil => rw [emitted_nil hq, hq]; rfl
  | cons x r => rw [emitted_cons hq]; rfl

theorem emitted_isOpen (T : Transport) : T.emitted.isOpen = T.isOpen ∧ T.emitted.cfg = T.cfg := by
  cases hq : T.txq with
  | nil => rw [emitted_nil hq]; exact ⟨rfl, rfl⟩
  | cons x r => rw [emitted_cons hq]; exact ⟨rfl, rfl⟩

theorem drain_transport_framed {s : State} {h : Handle} (hf : (s.transport h).framed Config.p2 = true) :
    (s.drain Config.p2 h).transport h = (s.transport h).emitted := by
  cases hq : (s.transport h).txq with
  | nil => rw [drain_nil hq, emitted_nil hq]
  | cons x r => rw [drain_cons hq hf, transport_setTransport, emitted_cons hq]

/-! ### Stages of a run -/

/-- A state of a run from s: instance k is in e, `T[h]` is T, the events to come are es; every other instance and
transport, and the depth, are as in s. -/
structure Stage (s : State) (k : EncId) (h : Handle) (e : Encoder) (T : Transport) (es : List Event) (u : State) :
    Prop where
  encoder : u.encoder k = e
  transport : u.transport h = T
  sched : u.sched = es
  txqDepth : u.txqDepth = s.txqDepth
  encoders : SameEncodersBut k s u
  transports : SameTransportsBut h s u

section Staged
variable {s u : State} {k : EncId} {h : Handle} {e : Encoder} {T : Transport} {es : List Event}

/-- The next stage of an effect on h with the encoders untouched. -/
theorem Stage.of_touches {v u' : State} {es' : List Event} (hu : Stage s k h e T es u) (hv : Loaded u v)
    (ht : TouchesOnly h v u') (hs : v.sched = es') : Stage s k h e (u'.transport h) es' u' where
  encoder := (ht.encoder k).trans ((hv.encoder k).trans hu.encoder)
  transport := rfl
  sched := ht.sched.trans hs
  txqDepth := ht.txqDepth.trans (hv.txqDepth.trans hu.txqDepth)
  encoders := fun k' hk => (ht.encoder k').trans ((hv.encoder k').trans (hu.encoders k' hk))
  transports := fun h' hh => (ht.other h' hh).trans ((hv.transport h').trans (hu.transports h' hh))

theorem Stage.enter (hu : Stage s k h e T es u) (e' : Encoder) : Stage s k h e' T es (u.enter k e') where
  encoder := encoder_enter ..
  transport := hu.transport
  sched := hu.sched
  txqDepth := hu.txqDepth
  encoders := fun k' hk => (encoder_enter_other _ _ _ _ hk).trans (hu.encoders k' hk)
  transports := hu.transports

theorem Stage.finish (hu : Stage s k h e T es u) (r : Response) : Stage s k h .idle T es (u.finish k r) where
  encoder := encoder_finish ..
  transport := hu.transport
  sched := hu.sched
  txqDepth := hu.txqDepth
  encoders := fun k' hk => (encoder_finish_other _ _ _ _ hk).trans (hu.encoders k' hk)
  transports := hu.transports

/-- While the next event is held for h a step emits a frame of h (R102, R104; log 9). -/
theorem Stage.step_held {ev : Event} (hu : Stage s k h e T (ev :: es) u) (hf : T.framed Config.p2 = true)
    (hb : u.blockedOn ev = some h) :
    ∃ u', step u = .next u' ∧ Stage s k h e T.emitted (ev :: es) u' := by
  obtain rfl := hu.transport
  have hnext := hu.of_touches (loaded_quiet u) (drain_touches Config.p2 _ h) hu.sched
  rw [drain_transport_framed (s := u.quiet) hf] at hnext
  exact ⟨_, Sys2Proof.Machine.step_held hu.sched hb, hnext⟩

/-- The drain agent's own event (R104). -/
theorem Stage.step_drain (hu : Stage s k h e T (.drain h :: es) u) (hf : T.framed Config.p2 = true) :
    ∃ u', step u = .next u' ∧ Stage s k h e T.emitted es u' := by
  obtain rfl := hu.transport
  have hnext := hu.of_touches (loaded_take u es) (drain_touches Config.p2 _ h) rfl
  rw [drain_transport_framed (s := u.take es) hf] at hnext
  exact ⟨_, step_event hu.sched rfl, hnext⟩

end Staged

/-! ### The stages of a SEND9 on h -/

section Sending
variable {s u : State} {k : EncId} {l : Latches} {c : Cfg} {T : Transport} {es : List Event} {a : BitVec 3} {o : Opaque}

/-- The next event, if it is not held, answers the command instance k presents. -/
theorem step_answer {i : Instr} (hs : u.sched = .answer k a o :: es) (hb : u.heldFor k a = none)
    (hi : (u.encoder k).command = some i) : step u = exec i (u.answered es k a o) := by
  rw [step_event hs hb, runEvent_answer, encoder_take, hi]
  rfl

theorem Stage.step_read (hu : Stage s k l.h (.rd l) T (.answer k a o :: es) u) (ho : T.isOpen = true)
    (ha : ansErr a = false) : ∃ u', step u = .next u' ∧ Stage s k l.h (.ap l T.cfg) T es u' := by
  obtain rfl := hu.transport
  have hnext := (hu.of_touches (loaded_answered u es k a o) (.refl l.h _) rfl).enter (.ap l (u.transport l.h).cfg)
  refine ⟨_, ?_, hnext⟩
  rw [step_answer hu.sched (by simp [State.heldFor, hu.encoder]) (by rw [hu.encoder]; rfl)]
  exact exec_getcfg_open (s := u.answered es k a o) rfl hu.encoder ha ho

/-- While a Byte is queued the SETCFG answered Ok is held: the queue goes out under the old polarity (R102). -/
theorem Stage.run_hold (hu : Stage s k l.h (.ap l c) T (.answer k a o :: es) u) (ho : T.isOpen = true)
    (hf : T.framed Config.p2 = true) (ha : ansErr a = false) :
    ∃ u', runSteps T.txq.length u = .next u' ∧ Stage s k l.h (.ap l c) T.drained (.answer k a o :: es) u' := by
  generalize hn : T.txq.length = n
  induction n generalizing T u with
  | zero => exact ⟨u, rfl, by rwa [drained_nil (List.eq_nil_of_length_eq_zero hn)]⟩
  | succ n ih =>
    have hq : T.txq ≠ [] := fun hq => by simp [hq] at hn
    have hheld : u.heldFor k a = some l.h :=
      heldFor_eq_some_iff.2 (.inl ⟨l, c, hu.encoder, rfl, (setHeld_iff ..).2 (hu.transport ▸ ⟨ho, ha, hq⟩)⟩)
    obtain ⟨u', hst, hu'⟩ := hu.step_held hf hheld
    obtain ⟨hopen, hcfg⟩ := emitted_isOpen T
    obtain ⟨t, hrun, ht⟩ := ih hu' (hopen.trans ho) (by rw [Transport.framed, hcfg]; exact hf)
      (by rw [emitted_length, hn]; rfl)
    exact ⟨t, (runSteps_succ hst).trans hrun, drained_emitted T ▸ ht⟩

theorem Stage.step_apply (hu : Stage s k l.h (.ap l c) T (.answer k a o :: es) u) (ho : T.isOpen = true)
    (ha : ansErr a = false) (hq : T.txq = []) :
    ∃ u', step u = .next u' ∧ Stage s k l.h (.wr l c) { T with cfg := ⟨c.opq, sendMode l⟩ } es u' := by
  obtain rfl := hu.transport
  have hh : u.setHeld l.h a = false := by simp [State.setHeld, hq]
  have heff := setEffect_ok (s := u.answered es k a o) ho ⟨c.opq, sendMode l⟩ ha
  have hnext := (hu.of_touches (loaded_answered u es k a o)
    (setEffect_touches _ l.h ⟨c.opq, sendMode l⟩) rfl).enter (.wr l c)
  rw [heff, transport_setTransport] at hnext
  refine ⟨_, ?_, hnext⟩
  rw [step_answer hu.sched (by simp [State.heldFor, hu.encoder, hh]) (by rw [hu.encoder]; rfl), ← heff]
  exact exec_setcfg_ok (s := u.answered es k a o) rfl hu.encoder hh ha

/-- The response that ends a WRITE answered a (R87, R123). -/
def writeResponse (a : BitVec 3) : Response := if ansErr a then ⟨.writeError, false⟩ else ⟨.ok, ansCount a⟩

theorem Stage.step_write (hu : Stage s k l.h (.wr l c) T (.answer k a o :: es) u) (ho : T.isOpen = true)
    (hroom : ansErr a = false → ansCount a = true → T.full s.txqDepth = false) :
    ∃ u', step u = .next u' ∧ u'.rsp = some (k, responseWord (writeResponse a)) ∧
      Stage s k l.h .idle { T with txq := T.txq ++ (if !ansErr a && ansCount a then [l.b] else []) } es u' := by
  obtain rfl := hu.transport
  have hh : u.writeHeld l.h a = false := by
    rw [← Bool.not_eq_true, writeHeld_iff, hu.txqDepth]
    rintro ⟨_, ha, hc, hfull⟩
    rw [hroom ha hc] at hfull
    cases hfull
  have hnext := (hu.of_touches (loaded_answered u es k a o)
    (writeEffect_touches _ l.h l.b) rfl).finish (writeResponse a)
  rw [writeEffect_transport_open (s := u.answered es k a o) ho] at hnext
  refine ⟨_, ?_, finish_rsp .., hnext⟩
  rw [step_answer hu.sched (by simp [State.heldFor, hu.encoder, hh]) (by rw [hu.encoder]; rfl), writeResponse]
  cases ha : ansErr a with
  | true => exact exec_write_err (s := u.answered es k a o) rfl hu.encoder ha
  | false => exact exec_write_ok (s := u.answered es k a o) rfl hu.encoder hh ha

end Sending

/-! ### The whole SEND9 -/

theorem responseWord_writeResponse (a : BitVec 3) : responseWord (writeResponse a) =
    if ansErr a then 0b110#3 else if ansCount a then 0b001#3 else 0b000#3 := by
  unfold writeResponse
  cases ansErr a with
  | true => rw [if_pos rfl, if_pos rfl]; rfl
  | false => exact responseWord_ok (ansCount a)

/-- `T[h]` when a SEND9 of b with marker m on it has ended: q is out, the selected mode in force, b queued for Ok(1). -/
def Transport.sent (T : Transport) (b : Byte) (m : Bool) (a : BitVec 3) : Transport where
  isOpen := T.isOpen
  cfg := ⟨T.cfg.opq, muxMode (par8 b) m⟩
  txq := if !ansErr a && ansCount a then [b] else []
  wire := T.wire ++ framesUnder T.cfg.parity T.txq

theorem full_nil {T : Transport} {depth : Option Nat} (hq : T.txq = []) (hd : depth ≠ some 0) :
    T.full depth = false := by
  rw [← Bool.not_eq_true, full_iff, hq]
  rintro ⟨n, rfl, hn⟩
  exact hd (congrArg some (Nat.le_zero.mp hn))

theorem stage_accepted {s : State} {k : EncId} {h : Handle} {b mk : Byte} (es : List Event)
    (he : s.encoder k = .idle) :
    Stage s k h (.rd ⟨h, b, canon mk⟩) (s.transport h) es (s.accepted es k h b mk) := by
  have h0 : Stage s k h .idle (s.transport h) s.sched s := ⟨he, rfl, rfl, rfl, fun _ _ => rfl, fun _ _ => rfl⟩
  exact (h0.of_touches (loaded_requested s es k h) (.refl h _) rfl).enter _

theorem run_send {s : State} {k : EncId} {h : Handle} {w : BitVec 17} {mk b : Byte} {a1 a2 a3 : BitVec 3}
    {o1 o2 o3 : Opaque} {rest : List Event} (hd : decodeQ w = .send9 mk b)
    (hs : s.sched = .request k w h :: .answer k a1 o1 :: .answer k a2 o2 :: .answer k a3 o3 :: rest)
    (he : s.encoder k = .idle) (hp : s.premises h = true) (ha1 : ansErr a1 = false) (ha2 : ansErr a2 = false)
    (hdepth : ansErr a3 = false → ansCount a3 = true → s.txqDepth ≠ some 0) :
    ∃ t, runSteps ((s.transport h).txq.length + 4) s = .next t ∧
      t.rsp = some (k, responseWord (writeResponse a3)) ∧
      Stage s k h .idle ((s.transport h).sent b (canon mk) a3) rest t := by
  obtain ⟨ho, hf⟩ := premises_iff.1 hp
  have h1 := stage_accepted (h := h) (b := b) (mk := mk) (.answer k a1 o1 :: .answer k a2 o2 :: .answer k a3 o3 :: rest) he
  obtain ⟨u2, hs2, h2⟩ := Stage.step_read (l := ⟨h, b, canon mk⟩) h1 ho ha1
  obtain ⟨u3, hs3, h3⟩ := Stage.run_hold (l := ⟨h, b, canon mk⟩) h2 ho hf ha2
  obtain ⟨u4, hs4, h4⟩ := Stage.step_apply (l := ⟨h, b, canon mk⟩) h3 ho ha2 rfl
  obtain ⟨t, hs5, hrsp, h5⟩ := Stage.step_write (l := ⟨h, b, canon mk⟩) h4 ho
    fun ha hc => full_nil rfl (hdepth ha hc)
  refine ⟨t, ?_, hrsp, ?_⟩
  · rw [runSteps_succ (n := (s.transport h).txq.length + 3) (step_accept hd hs he),
      runSteps_succ (n := (s.transport h).txq.length + 2) hs2, runSteps_add hs3 2, runSteps_succ hs4]
    exact runSteps_one hs5
  · exact h5

/-- Settles O28: the run of a SEND9 through its stages; a drain step then emits the Byte with its marker. -/
theorem wholeSend : Obligations.WholeSend := by
  intro s k h w mk b a1 a2 a3 o1 o2 o3 rest hd hs he hp ha1 ha2 hdepth
  obtain ⟨ho, hf⟩ := premises_iff.1 hp
  obtain ⟨t, hrun, hrsp, ht⟩ := run_send hd hs he hp ha1 ha2 hdepth
  have hT : t.transport h = ⟨true, ⟨(s.transport h).cfg.opq, muxMode (par8 b) (canon mk)⟩,
      if !ansErr a3 && ansCount a3 then [b] else [],
      (s.transport h).wire ++ framesUnder (s.transport h).cfg.parity (s.transport h).txq⟩ := by
    rw [ht.transport, Transport.sent, ho]
  refine ⟨t, hrun, ht.encoder, ht.sched, hT, ?_, ht.encoders, ht.transports, fun hone => ?_⟩
  · rw [hrsp, responseWord_writeResponse]
  · rw [drain_transport_framed (by rw [hT]; exact hf), hT, if_pos hone, emitted_cons rfl, pgen_muxMode]

/-! ### An ordinary send after it (R94, R107, R145) -/

section Ordinary
variable {s u : State} {k : EncId} {h : Handle} {e : Encoder} {T : Transport} {es : List Event} {x : Byte}
  {o : Opaque} {a : BitVec 3}

theorem decodeT_write (x : Byte) : decodeT (0xC00#12 ||| x.setWidth 12) = .ok (.write x) :=
  decodeT_eq_ok_iff.2 ⟨_, rfl, (tWord_write x).symm⟩

/-- Another user's WRITE answered Ok(1) appends its Byte where the queue has room. -/
theorem Stage.step_user_write (hu : Stage s k h e T (.command (0xC00#12 ||| x.setWidth 12) h o a :: es) u)
    (ho : T.isOpen = true) (ha : ansErr a = false) (hc : ansCount a = true) (hroom : T.full s.txqDepth = false) :
    ∃ u', step u = .next u' ∧ Stage s k h e { T with txq := T.txq ++ [x] } es u' := by
  obtain rfl := hu.transport
  have hd := decodeT_write x
  have hh : u.writeHeld h a = false := by
    rw [← Bool.not_eq_true, writeHeld_iff, hu.txqDepth]
    rintro ⟨_, _, _, hfull⟩
    rw [hroom] at hfull
    cases hfull
  have hnext := hu.of_touches (loaded_used u es h o a) (writeEffect_touches _ h x) rfl
  rw [writeEffect_one (s := u.used es h o a) ho x ha hc, transport_setTransport] at hnext
  refine ⟨_, ?_, hnext⟩
  rw [step_event hu.sched (by simp [State.blockedOn, hd, hh]), runEvent_command, hd,
    ← writeEffect_one (s := u.used es h o a) ho x ha hc]
  exact (exec_write_user (s := u.used es h o a) rfl x).trans (if_neg (by rw [Bool.not_eq_true]; exact hh))

/-- With the queue full it waits one step for a frame emission (log 18). -/
theorem Stage.step_user_write_held
    (hu : Stage s k h e T (.command (0xC00#12 ||| x.setWidth 12) h o a :: es) u) (ho : T.isOpen = true)
    (hf : T.framed Config.p2 = true) (ha : ansErr a = false) (hc : ansCount a = true)
    (hfull : T.full s.txqDepth = true) :
    ∃ u', step u = .next u' ∧
      Stage s k h e T.emitted (.command (0xC00#12 ||| x.setWidth 12) h o a :: es) u' := by
  refine hu.step_held hf (blockedOn_command_iff.2 ⟨rfl, .inr ⟨x, decodeT_write x, (writeHeld_iff ..).2 ?_⟩⟩)
  rw [hu.transport, hu.txqDepth]
  exact ⟨ho, ha, hc, hfull⟩

/-- Two emissions drain a queue of at most two Bytes. -/
theorem emitted_emitted {T : Transport} (hq : T.txq.length ≤ 2) : T.emitted.emitted = T.drained := by
  have hempty : T.emitted.emitted.txq = [] := by
    apply List.eq_nil_of_length_eq_zero
    rw [emitted_length, emitted_length]
    omega
  rw [← drained_nil hempty, drained_emitted, drained_emitted]

theorem Stage.run_drain_twice (hu : Stage s k h e T (.drain h :: .drain h :: es) u)
    (hf : T.framed Config.p2 = true) (hq : T.txq.length ≤ 2) :
    ∃ t, runSteps 2 u = .next t ∧ Stage s k h e T.drained es t := by
  obtain ⟨u', hs', hu'⟩ := hu.step_drain hf
  obtain ⟨t, hst, ht⟩ := hu'.step_drain (by rw [Transport.framed, (emitted_isOpen T).2]; exact hf)
  exact ⟨t, (runSteps_succ hs').trans (runSteps_one hst), emitted_emitted hq ▸ ht⟩

/-- The ordinary send and two drain steps, with room for x in the queue. -/
theorem Stage.run_user_write
    (hu : Stage s k h e T (.command (0xC00#12 ||| x.setWidth 12) h o a :: .drain h :: .drain h :: es) u)
    (ho : T.isOpen = true) (hf : T.framed Config.p2 = true) (ha : ansErr a = false) (hc : ansCount a = true)
    (hroom : T.full s.txqDepth = false) (hq : T.txq.length ≤ 1) :
    ∃ t, runSteps 3 u = .next t ∧ Stage s k h e { T with txq := T.txq ++ [x] }.drained es t := by
  obtain ⟨u', hs', hu'⟩ := hu.step_user_write ho ha hc hroom
  obtain ⟨t, hrun, ht⟩ := hu'.run_drain_twice hf (by simpa using hq)
  exact ⟨t, (runSteps_succ hs').trans hrun, ht⟩

/-- The same with at most one Byte queued before x, in one step more where that Byte fills the queue. -/
theorem Stage.run_ordinary
    (hu : Stage s k h e T (.command (0xC00#12 ||| x.setWidth 12) h o a :: .drain h :: .drain h :: es) u)
    (ho : T.isOpen = true) (hf : T.framed Config.p2 = true) (ha : ansErr a = false) (hc : ansCount a = true)
    (hdepth : s.txqDepth ≠ some 0) (hq : T.txq.length ≤ 1) :
    ∃ t, runSteps (if T.full s.txqDepth then 4 else 3) u = .next t ∧
      Stage s k h e { T with txq := T.txq ++ [x] }.drained es t := by
  cases hfull : T.full s.txqDepth with
  | false => exact hu.run_user_write ho hf ha hc hfull hq
  | true =>
    obtain ⟨u', hs', hu'⟩ := hu.step_user_write_held ho hf ha hc hfull
    obtain ⟨hopen, hcfg⟩ := emitted_isOpen T
    have hempty : T.emitted.txq = [] := by
      apply List.eq_nil_of_length_eq_zero
      rw [emitted_length]
      omega
    obtain ⟨t, hrun, ht⟩ := hu'.run_user_write (hopen.trans ho) (by rw [Transport.framed, hcfg]; exact hf) ha hc
      (full_nil hempty hdepth) (by simp [hempty])
    refine ⟨t, (runSteps_succ hs').trans hrun, ?_⟩
    have hsame : { T.emitted with txq := T.emitted.txq ++ [x] }.drained =
        { T with txq := T.txq ++ [x] }.drained := by
      cases hT : T.txq with
      | nil => rw [emitted_nil hT, hT]
      | cons y r =>
        rw [← drained_emitted { T with txq := (y :: r) ++ [x] }, emitted_cons hT]
        rfl
    exact hsame ▸ ht

end Ordinary

/-- The queue a SEND9 leaves is full exactly when it holds the one Byte it may. -/
theorem full_sent_iff {T : Transport} {b : Byte} {m : Bool} {a : BitVec 3} {depth : Option Nat}
    (hd : depth ≠ some 0) :
    (T.sent b m a).full depth = true ↔ depth = some 1 ∧ ansErr a = false ∧ ansCount a = true := by
  rw [full_iff]
  cases hn : !ansErr a && ansCount a with
  | false =>
    have hno : ¬ (ansErr a = false ∧ ansCount a = true) := by simpa using hn
    simp only [Transport.sent, hn, Bool.false_eq_true, if_false, List.length_nil]
    constructor
    · rintro ⟨n, rfl, hn0⟩
      exact absurd (congrArg some (Nat.le_zero.mp hn0)) hd
    · exact fun h => absurd h.2 hno
  | true =>
    have hyes : ansErr a = false ∧ ansCount a = true := by simpa using hn
    simp only [Transport.sent, hn, if_true, List.length_singleton]
    constructor
    · rintro ⟨n, rfl, hn1⟩
      have hn0 : n ≠ 0 := fun h0 => hd (congrArg some h0)
      exact ⟨congrArg some (by omega), hyes⟩
    · exact fun h => ⟨1, h.1, le_rfl⟩

/-- The Byte of the SEND9, where it is queued, is owed with its marker. -/
theorem framesUnder_sent (T : Transport) (b : Byte) (m : Bool) (a : BitVec 3) :
    framesUnder (T.sent b m a).cfg.parity (T.sent b m a).txq =
      if !ansErr a && ansCount a then [⟨b, m⟩] else [] := by
  unfold Transport.sent
  dsimp only
  split
  · rw [framesUnder_cons, pgen_muxMode, framesUnder_nil]
  · rfl

/-- Settles O29: the stages of the SEND9, then those of the ordinary send; both Bytes go out under the mode selected. -/
theorem ordinarySendInherits : Obligations.OrdinarySendInherits := by
  intro s k h w mk b x a1 a2 a3 a4 o1 o2 o3 o4 rest hd hs he hp ha1 ha2 ha4 hc4 hdepth
  obtain ⟨ho, hf⟩ := premises_iff.1 hp
  obtain ⟨u, hrun, _, hu⟩ := run_send hd hs he hp ha1 ha2 fun _ _ => hdepth
  have hq : ((s.transport h).sent b (canon mk) a3).txq.length ≤ 1 := by
    unfold Transport.sent
    split <;> simp
  obtain ⟨t, hrun', ht⟩ := hu.run_ordinary ho hf ha4 hc4 hdepth hq
  refine ⟨t, ?_, ht.sched, ?_⟩
  · rw [← runSteps_add hrun] at hrun'
    rw [← hrun']
    congr 1
    simp only [full_sent_iff hdepth]
    split <;> omega
  · have hb := framesUnder_sent (s.transport h) b (canon mk) a3
    have hx : framesUnder (muxMode (par8 b) (canon mk)) [x] = [⟨x, (par8 x ^^ par8 b) ^^ canon mk⟩] := by
      rw [framesUnder_cons, pgen_muxMode_other, framesUnder_nil]
    rw [ht.transport, Transport.drained, framesUnder_append, hb]
    simp only [Transport.sent, ho, hx, List.append_assoc]


end Sys2Proof.Machine
end

section
/-! The queues drain (42_transport_interface.md R109; log 8): with no event left every step takes one Byte off the count of all
that are queued. -/

namespace Sys2Proof.Machine

/-! ### A sum over a table in canonical form -/

section Sum
variable {κ α : Type} [LinearOrder κ]

theorem tableGet_of_lt (d : α) {m : List (κ × α)} {k : κ} (h : ∀ e ∈ m, k < e.1) : tableGet d m k = d := by
  induction m with
  | nil => rfl
  | cons e rest ih =>
    have hk : k ≠ e.1 := (h e (by simp)).ne
    simpa [tableGet, hk] using ih fun e' he' => h e' (by simp [he'])

theorem tableDrop_of_lt {m : List (κ × α)} {k : κ} (h : ∀ e ∈ m, k < e.1) : tableDrop m k = m :=
  List.filter_eq_self.2 fun e he => by simpa using (h e he).ne'

variable [DecidableEq α] {d : α}

theorem tableGet_of_mem {m : List (κ × α)} (hw : tableWf d m = true) {k : κ} {v : α} (hm : (k, v) ∈ m) :
    tableGet d m k = v := by
  induction m with
  | nil => cases hm
  | cons e rest ih =>
    obtain ⟨j, w⟩ := e
    obtain ⟨_, hall, hrest⟩ := (tableWf_cons d j w rest).1 hw
    rcases List.mem_cons.1 hm with he | hm
    · cases he
      simp [tableGet]
    · have hk : k ≠ j := (hall _ hm).ne'
      simpa [tableGet, hk] using ih hrest hm

/-- A write replaces, in a sum over the records, the summand of its key; unlisted keys count nothing. -/
theorem sum_tablePut {f : α → Nat} (hd : f d = 0) {m : List (κ × α)} (hw : tableWf d m = true) (k : κ) (v : α) :
    ((tablePut d m k v).map fun e => f e.2).sum + f (tableGet d m k) = (m.map fun e => f e.2).sum + f v := by
  induction m with
  | nil => by_cases hv : v = d <;> simp [tablePut, tableGet, hv, hd]
  | cons e rest ih =>
    obtain ⟨j, w⟩ := e
    obtain ⟨_, hall, hrest⟩ := (tableWf_cons d j w rest).1 hw
    by_cases hlt : k < j
    · have hall' : ∀ e ∈ rest, k < e.1 := fun e he => hlt.trans (hall e he)
      have hget : tableGet d ((j, w) :: rest) k = d := by
        simp [tableGet, hlt.ne, tableGet_of_lt d hall']
      by_cases hv : v = d
      · simp [tablePut, hlt, hv, tableDrop_of_lt hall', hget]
      · simp only [tablePut, hlt, hv, if_true, if_false, hget, hd, List.map_cons, List.sum_cons]
        omega
    · by_cases hk : k = j
      · subst hk
        by_cases hv : v = d
        · simp only [tablePut, hv, if_true, lt_irrefl, if_false, tableDrop_of_lt hall, tableGet, hd, List.map_cons,
            List.sum_cons]
          omega
        · simp only [tablePut, hv, if_true, lt_irrefl, if_false, tableGet, List.map_cons, List.sum_cons]
          omega
      · have := ih hrest
        simp only [tablePut, hlt, hk, if_false, tableGet, List.map_cons, List.sum_cons]
        omega

end Sum

/-! ### The count of queued Bytes -/

theorem queuedTotal_setTransport {s : State} (hw : tableWf Transport.absent s.trans = true) (h : Handle)
    (T : Transport) :
    (s.setTransport h T).queuedTotal + (s.transport h).txq.length = s.queuedTotal + T.txq.length :=
  sum_tablePut (f := fun t : Transport => t.txq.length) rfl hw h T

theorem queuedTotal_drain {s : State} (hw : tableWf Transport.absent s.trans = true) {h : Handle}
    (hq : (s.transport h).txq ≠ []) : (s.drain Config.p2 h).queuedTotal + 1 = s.queuedTotal := by
  obtain ⟨x, r, hxr⟩ := List.exists_cons_of_ne_nil hq
  have hput (T : Transport) (hT : T.txq = r) : (s.setTransport h T).queuedTotal + 1 = s.queuedTotal := by
    have hsum := queuedTotal_setTransport hw h T
    rw [hxr, hT, List.length_cons] at hsum
    omega
  unfold State.drain
  split
  · next hnil => exact absurd hnil hq
  · next y r' hyr =>
    obtain ⟨rfl, rfl⟩ := List.cons.inj (hxr.symm.trans hyr)
    split
    · exact hput _ rfl
    · exact hput ⟨_, _, r, _⟩ rfl

/-- With no event left the drain agent takes one Byte off, as long as one is queued. -/
theorem queuedTotal_autoDrain {s : State} (hw : tableWf Transport.absent s.trans = true) :
    (s.autoDrain Config.p2).queuedTotal = s.queuedTotal - 1 := by
  unfold State.autoDrain
  split
  · next hnone =>
    have hzero : s.queuedTotal = 0 := by
      rw [State.queuedTotal, List.sum_eq_zero_iff]
      intro n hn
      obtain ⟨e, he, rfl⟩ := List.mem_map.1 hn
      simpa using List.find?_eq_none.1 hnone e he
    rw [hzero]
  · next e hsome =>
    have hq : (s.transport e.1).txq ≠ [] := by
      have hget : s.transport e.1 = e.2 := tableGet_of_mem hw (List.mem_of_find?_eq_some hsome)
      simpa [hget] using List.find?_some hsome
    have hsum := queuedTotal_drain hw hq
    omega

theorem autoDrain_wf {s : State} (hw : tableWf Transport.absent s.trans = true) :
    tableWf Transport.absent (s.autoDrain Config.p2).trans = true ∧ (s.autoDrain Config.p2).sched = s.sched := by
  rcases autoDrain_cases s with e | ⟨g, e⟩ <;> rw [e]
  · exact ⟨hw, rfl⟩
  · have hu := drain_touches Config.p2 s g
    exact ⟨hu.wf hw, hu.sched⟩

theorem txq_of_queuedTotal_zero {s : State} (hz : s.queuedTotal = 0) (h : Handle) : (s.transport h).txq = [] := by
  rw [State.queuedTotal, List.sum_eq_zero_iff] at hz
  rcases tableGet_mem_or_default Transport.absent s.trans h with hm | hd
  · exact List.eq_nil_of_length_eq_zero (hz _ (List.mem_map_of_mem hm))
  · rw [State.transport, hd]
    rfl

/-- Settles O40: by induction on the steps, each of which is a drain agent's. -/
theorem queuesDrain : Obligations.QueuesDrain := by
  intro n
  induction n with
  | zero => exact fun s _ _ hle => ⟨s, rfl, txq_of_queuedTotal_zero (Nat.le_zero.mp hle)⟩
  | succ n ih =>
    intro s hw hs hle
    have htotal : (s.quiet.autoDrain Config.p2).queuedTotal = s.queuedTotal - 1 :=
      queuedTotal_autoDrain (s := s.quiet) hw
    obtain ⟨hwf, hsched⟩ := autoDrain_wf (s := s.quiet) hw
    obtain ⟨t, hrun, ht⟩ := ih _ hwf (hsched.trans hs) (by omega)
    exact ⟨t, (runSteps_succ (step_nil hs)).trans hrun, ht⟩

end Sys2Proof.Machine
end

section
/-! The type arguments (00_scope.md R5, D8): a whole step that draws no free value commutes with a renaming of Handles that
keeps their order and a one-to-one renaming of opaque parts. Each part of the step follows the rules of Laws/Rename. -/

namespace Sys2Proof.Machine

/-- `execAt` is the dispatch of `exec`, at any types. -/
theorem exec_eq_execAt : exec = execAt := by
  funext i s
  cases i <;> rfl

section Renaming
variable {H H' O O' : Type} {f : H → H'} {g : O → O'}

/-- The outcome y is x renamed, where x draws no value beyond the n drawn before it; a refusal is the same. -/
def Follows (f : H → H') (g : O → O') (n : Nat) (x : Host.Outcome (State H O) Fault Refusal)
    (y : Host.Outcome (State H' O') Fault Refusal) : Prop :=
  (∀ t, x = .next t → t.draws = n → y = .next (t.rename f g)) ∧ ∀ r, x = .refused r → y = .refused r

theorem follows_next {n : Nat} {t : State H O} {u : State H' O'} (h : t.draws = n → u = t.rename f g) :
    Follows f g n (.next t) (.next u) := by
  refine ⟨fun t' ht hn => ?_, nofun⟩
  obtain rfl := Host.Outcome.next.inj ht
  rw [h hn]

theorem follows_refused {n : Nat} (r : Refusal) : Follows f g n (.refused r) (.refused r) :=
  ⟨nofun, fun _ hr => by rw [Host.Outcome.refused.inj hr]⟩

theorem follows_ite {n : Nat} {a b : Bool} (hab : b = a) {x x' : Host.Outcome (State H O) Fault Refusal}
    {y y' : Host.Outcome (State H' O') Fault Refusal} (h : a = true → Follows f g n x y)
    (h' : a = false → Follows f g n x' y') :
    Follows f g n (if a = true then x else x') (if b = true then y else y') := by
  subst hab
  cases b with
  | true => exact h rfl
  | false => exact h' rfl

/-! ### The signals -/

section Signals
variable (s : State H O)

@[simp] theorem rename_issuer : (s.rename f g).tport.issuer = s.tport.issuer := rfl
@[simp] theorem rename_ans : (s.rename f g).tport.ans = s.tport.ans := rfl
@[simp] theorem rename_handle : (s.rename f g).tport.handle = f s.tport.handle := rfl
@[simp] theorem rename_opq : (s.rename f g).tport.opq = g s.tport.opq := rfl
@[simp] theorem rename_caller : (s.rename f g).caller = ⟨s.caller.enc, f s.caller.handle⟩ := rfl
@[simp] theorem rename_sched : (s.rename f g).sched = s.sched.map (Event.rename f g) := rfl
@[simp] theorem rename_h (l : Latches H) : (l.rename f).h = f l.h := rfl
@[simp] theorem rename_b (l : Latches H) : (l.rename f).b = l.b := rfl
@[simp] theorem sendMode_rename (l : Latches H) : sendMode (l.rename f) = sendMode l := rfl

@[simp] theorem reqReady_rename (e : Encoder H O) : (e.rename f g).reqReady = e.reqReady := by cases e <;> rfl

theorem cmdWord_rename (e : Encoder H O) : (e.rename f g).cmdWord = e.cmdWord := by cases e <;> rfl

theorem quiet_rename : (s.rename f g).quiet = s.quiet.rename f g := rfl

theorem take_rename (rest : List (Event H O)) :
    (s.rename f g).take (rest.map (Event.rename f g)) = (s.take rest).rename f g := rfl

theorem load_rename (e : Event H O) : (s.rename f g).load (e.rename f g) = (s.load e).rename f g := by
  cases e <;> rfl

theorem load_draws (e : Event H O) : (s.load e).draws = s.draws := by cases e <;> rfl

theorem fetchWord_rename (e : Event H O) : (s.rename f g).fetchWord (e.rename f g) = s.fetchWord e := by
  cases e with
  | answer k w o => simp only [Event.rename, State.fetchWord, encoder_rename, cmdWord_rename]
  | _ => rfl

end Signals

/-! ### The instructions -/

theorem execPar8_rename (mk b : Byte) (s : State H O) :
    Follows f g s.draws (execPar8 mk b s) (execPar8 mk b (s.rename f g)) := by
  simp only [execPar8, rename_caller, encoder_rename, reqReady_rename]
  split
  · exact follows_next fun _ => respond_rename s _ _
  · exact follows_next fun _ => rfl

theorem execSend9_rename [DecidableEq H] [DecidableEq H'] [DecidableEq O] [DecidableEq O'] (mk b : Byte)
    (s : State H O) : Follows f g s.draws (execSend9 mk b s) (execSend9 mk b (s.rename f g)) := by
  simp only [execSend9, rename_caller, encoder_rename, reqReady_rename]
  split
  · exact follows_next fun _ => enter_rename s _ (.rd ⟨s.caller.handle, b, canon mk⟩)
  · exact follows_next fun _ => rfl

variable [LinearOrder H] [LinearOrder H'] [DecidableEq O] [DecidableEq O'] [Inhabited O] [Inhabited O']
  (hf : StrictMono f) (hg : Function.Injective g) (hd : g default = default)

section Commands
include hf hd

theorem execGetcfg_rename (s : State H O) :
    Follows f g s.draws (execGetcfg s) (execGetcfg (s.rename f g)) := by
  unfold execGetcfg
  rw [rename_issuer]
  cases s.tport.issuer with
  | none => exact follows_next fun hn => getEffect_rename s hf hd _ hn
  | some k =>
    dsimp only
    rw [encoder_rename]
    cases s.encoder k with
    | rd l =>
      simp only [Encoder.rename, rename_h, getAnswer_rename s hf hd, getOpaque_rename s hf hd]
      split
      · refine follows_next fun hn => ?_
        rw [getEffect_rename s hf hd _ hn]
        exact finish_rename _ k _
      · refine follows_next fun hn => ?_
        rw [getEffect_rename s hf hd _ hn]
        exact enter_rename (s.getEffect l.h) k (.ap l (ansCfg (s.getAnswer l.h) (s.getOpaque l.h)))
    | idle | ap | wr => exact follows_next fun _ => rfl

include hg

theorem execSetcfg_rename (p : Polarity) (s : State H O) :
    Follows f g s.draws (execSetcfg p s) (execSetcfg p (s.rename f g)) := by
  unfold execSetcfg
  rw [rename_issuer]
  cases s.tport.issuer with
  | none =>
    simp only [rename_handle, rename_ans, setHeld_rename s hf hd]
    split
    · exact follows_next fun _ => rfl
    · exact follows_next fun hn => setEffect_rename s hf hg hd _ _ hn
  | some k =>
    dsimp only
    rw [encoder_rename]
    cases s.encoder k with
    | ap l c =>
      have heff (hn : (s.setEffect l.h ⟨c.opq, p⟩).draws = s.draws) :
          (s.rename f g).setEffect (f l.h) ⟨(renameCfg g c).opq, p⟩ =
            (s.setEffect l.h ⟨c.opq, p⟩).rename f g := setEffect_rename s hf hg hd l.h _ hn
      refine follows_ite rfl (fun _ => follows_next fun _ => rfl) fun _ => ?_
      refine follows_ite (setHeld_rename s hf hd l.h s.tport.ans) (fun _ => follows_next fun _ => rfl) fun _ => ?_
      refine follows_ite rfl (fun _ => follows_next fun hn => ?_) fun _ => follows_next fun hn => ?_
      · exact (congrArg (State.raiseError · k .configApplyError) (heff hn)).trans (finish_rename _ k _)
      · exact (congrArg (State.enter · k _) (heff hn)).trans (enter_rename (s.setEffect l.h ⟨c.opq, p⟩) k (.wr l c))
    | idle | rd | wr => exact follows_next fun _ => rfl

theorem execWrite_rename (d : Byte) (s : State H O) :
    Follows f g s.draws (execWrite d s) (execWrite d (s.rename f g)) := by
  unfold execWrite
  rw [rename_issuer]
  cases s.tport.issuer with
  | none =>
    simp only [rename_handle, rename_ans, writeHeld_rename s hf hd]
    split
    · exact follows_next fun _ => rfl
    · exact follows_next fun hn => writeEffect_rename s hf hg hd _ _ hn
  | some k =>
    dsimp only
    rw [encoder_rename]
    cases s.encoder k with
    | wr l c =>
      have heff (hn : (s.writeEffect l.h d).draws = s.draws) :
          (s.rename f g).writeEffect (f l.h) d = (s.writeEffect l.h d).rename f g :=
        writeEffect_rename s hf hg hd l.h _ hn
      refine follows_ite rfl (fun _ => follows_next fun _ => rfl) fun _ => ?_
      refine follows_ite (writeHeld_rename s hf hd l.h s.tport.ans) (fun _ => follows_next fun _ => rfl) fun _ => ?_
      refine follows_ite rfl (fun _ => follows_next fun hn => ?_) fun _ => follows_next fun hn => ?_
      · exact (congrArg (State.raiseError · k .writeError) (heff hn)).trans (finish_rename _ k _)
      · exact (congrArg (State.finish · k _) (heff hn)).trans (finish_rename _ k _)
    | idle | rd | ap => exact follows_next fun _ => rfl

theorem execAt_rename (i : Instr) (s : State H O) :
    Follows f g s.draws (execAt i s) (execAt i (s.rename f g)) := by
  cases i with
  | par8 mk b => exact execPar8_rename mk b s
  | send9 mk b => exact execSend9_rename mk b s
  | getcfg => exact execGetcfg_rename hf hd s
  | setcfg p => exact execSetcfg_rename hf hg hd p s
  | write d => exact execWrite_rename hf hg hd d s

end Commands

/-! ### The agents -/

section Agents
variable (s : State H O) (h : H) {p2 : O → Bool} {p2' : O' → Bool} (hp : ∀ o, p2' (g o) = p2 o)
include hf hg hd

theorem flushNow_rename (c : Cfg O) (hn : (s.flushNow h c).draws = s.draws) :
    (s.rename f g).flushNow (f h) (renameCfg g c) = (s.flushNow h c).rename f g := by
  have hT := transport_rename (f := f) s hf hd h
  cases ho : (s.transport h).isOpen with
  | false => simp [State.flushNow, ho, State.closedEffect] at hn
  | true =>
    unfold State.flushNow
    rw [hT, if_pos ho, if_pos (show ((s.transport h).rename g).isOpen = true from ho)]
    exact setTransport_rename s hf hg hd h { s.transport h with cfg := c, txq := [] }

theorem connect_rename (c : Cfg O) :
    (s.rename f g).connect (f h) (renameCfg g c) = (s.connect h c).rename f g := by
  simp only [State.connect, transport_rename s hf hd]
  exact setTransport_rename s hf hg hd h { s.transport h with isOpen := true, cfg := c }

theorem disconnect_rename : (s.rename f g).disconnect (f h) = (s.disconnect h).rename f g := by
  simp only [State.disconnect, transport_rename s hf hd]
  exact setTransport_rename s hf hg hd h { s.transport h with isOpen := false }

theorem outstandingEffect_rename (k : EncId) (hn : (s.outstandingEffect k).draws = s.draws) :
    (s.rename f g).outstandingEffect k = (s.outstandingEffect k).rename f g := by
  unfold State.outstandingEffect at hn ⊢
  rw [encoder_rename]
  cases he : s.encoder k with
  | idle => rfl
  | rd l => rw [he] at hn; exact getEffect_rename s hf hd l.h hn
  | ap l c => rw [he] at hn; exact setEffect_rename s hf hg hd l.h ⟨c.opq, sendMode l⟩ hn
  | wr l c => rw [he] at hn; exact writeEffect_rename s hf hg hd l.h l.b hn

omit hf hg hd [Inhabited O] [Inhabited O'] in
theorem resetEncoder_rename (k : EncId) :
    (s.rename f g).resetEncoder k = (s.resetEncoder k).rename f g := by
  unfold State.resetEncoder
  rw [show (s.rename f g).setEncoder k Encoder.reset = (s.setEncoder k Encoder.reset).rename f g from
    setEncoder_rename s k .idle]
  simp [State.rename, Obs.rename]

theorem resetEvent_rename (k : EncId) (fate : Option (BitVec 3)) (hn : (s.resetEvent k fate).draws = s.draws) :
    (s.rename f g).resetEvent k fate = (s.resetEvent k fate).rename f g := by
  cases fate with
  | none => exact resetEncoder_rename s k
  | some w =>
    have heff := outstandingEffect_rename hf hg hd { s with tport := { s.tport with ans := w } } k hn
    exact (congrArg (·.resetEncoder k) heff).trans (resetEncoder_rename _ k)

include hp

theorem drain_rename (hn : (s.drain p2 h).draws = s.draws) :
    (s.rename f g).drain p2' (f h) = (s.drain p2 h).rename f g := by
  have hT := transport_rename (f := f) s hf hd h
  cases hq : (s.transport h).txq with
  | nil =>
    rw [drain_nil hq, drain_nil]
    rw [hT]
    exact hq
  | cons x r =>
    by_cases hfr : (s.transport h).framed p2 = true
    · have hq' : ((s.rename f g).transport (f h)).txq = x :: r := by rw [hT]; exact hq
      have hfr' : ((s.rename f g).transport (f h)).framed p2' = true := by
        rw [hT]
        exact (hp _).trans hfr
      rw [drain_cons hq hfr, drain_cons hq' hfr', hT]
      exact setTransport_rename s hf hg hd h { s.transport h with
        txq := r, wire := (s.transport h).wire ++ [⟨x, pgen (s.transport h).cfg.parity x⟩] }
    · simp [State.drain, hq, hfr] at hn

/-- The lowest Handle with a Byte queued is the renamed lowest, since f keeps the order (log 8). -/
theorem autoDrain_rename (hn : (s.autoDrain p2).draws = s.draws) :
    (s.rename f g).autoDrain p2' = (s.autoDrain p2).rename f g := by
  have hfind : ((s.rename f g).trans.find? fun e => !e.2.txq.isEmpty) =
      (s.trans.find? fun e => !e.2.txq.isEmpty).map fun e => (f e.1, e.2.rename g) := List.find?_map ..
  unfold State.autoDrain at hn ⊢
  rw [hfind]
  cases he : s.trans.find? fun e => !e.2.txq.isEmpty with
  | none => rfl
  | some e =>
    rw [he] at hn
    exact drain_rename hf hg hd s e.1 hp hn

theorem agent_rename (e : Event H O) (hn : (s.agent p2 e).draws = s.draws) :
    (s.rename f g).agent p2' (e.rename f g) = (s.agent p2 e).rename f g := by
  cases e with
  | request | answer | command => rfl
  | drain h => exact drain_rename hf hg hd s h hp hn
  | flush h c => exact flushNow_rename hf hg hd s h c hn
  | connect h c => exact connect_rename hf hg hd s h c
  | disconnect h => exact disconnect_rename hf hg hd s h
  | reset k fate => exact resetEvent_rename hf hg hd s k fate hn

end Agents

/-! ### The step -/

section Step
variable (s : State H O)
include hf hd

omit [DecidableEq O] [DecidableEq O'] in
theorem heldFor_rename (k : EncId) (w : BitVec 3) :
    (s.rename f g).heldFor k w = (s.heldFor k w).map f := by
  unfold State.heldFor
  rw [encoder_rename]
  cases s.encoder k with
  | idle => rfl
  | rd l => rfl
  | ap l c =>
    simp only [Encoder.rename, rename_h, setHeld_rename s hf hd]
    split <;> rfl
  | wr l c =>
    simp only [Encoder.rename, rename_h, writeHeld_rename s hf hd]
    split <;> rfl

omit [DecidableEq O] [DecidableEq O'] in
theorem blockedOn_rename (e : Event H O) :
    (s.rename f g).blockedOn (e.rename f g) = (s.blockedOn e).map f := by
  cases e with
  | answer k w o => exact heldFor_rename hf hd s k w
  | reset k fate =>
    cases fate with
    | none => rfl
    | some w => exact heldFor_rename hf hd s k w
  | command w h o a =>
    simp only [Event.rename, State.blockedOn, setHeld_rename s hf hd, writeHeld_rename s hf hd]
    cases decodeT w with
    | error r => rfl
    | ok i =>
      cases i with
      | setcfg p => dsimp only; split <;> rfl
      | write d => dsimp only; split <;> rfl
      | _ => rfl
  | _ => rfl

include hg

theorem rejected_rename (w : BitVec 12) (r : Reject) :
    Follows f g s.draws (s.rejected w r) ((s.rename f g).rejected w r) := by
  cases r with
  | cmdZero | unusedBits => exact follows_refused _
  | timingZero => exact follows_next fun hn => setEffect_rename s hf hg hd _ _ hn

theorem runWord_rename (iw : IfWord) :
    Follows f g s.draws (runWord execAt s iw) (runWord execAt (s.rename f g) iw) := by
  cases iw with
  | q w => exact execAt_rename hf hg hd _ s
  | t w =>
    cases hw : decodeT w with
    | ok i => simpa only [runWord, hw] using execAt_rename hf hg hd i s
    | error r => simpa only [runWord, hw] using rejected_rename hf hg hd s w r

variable {p2 : O → Bool} {p2' : O' → Bool} (hp : ∀ o, p2' (g o) = p2 o)
include hp

theorem runEvent_rename (e : Event H O) :
    Follows f g s.draws (runEvent execAt p2 e s) (runEvent execAt p2' (e.rename f g) (s.rename f g)) := by
  unfold runEvent
  rw [fetchWord_rename]
  cases s.fetchWord e with
  | none => exact follows_next fun hn => agent_rename hf hg hd s hp e hn
  | some iw =>
    dsimp only
    rw [load_rename, ← load_draws s e]
    exact runWord_rename hf hg hd (s.load e) iw

theorem runStep_rename : Follows f g s.draws (runStep execAt p2 s) (runStep execAt p2' (s.rename f g)) := by
  unfold runStep
  rw [rename_sched]
  cases s.sched with
  | nil => exact follows_next fun hn => autoDrain_rename hf hg hd s.quiet hp hn
  | cons e rest =>
    rw [List.map_cons]
    dsimp only
    rw [blockedOn_rename hf hd]
    cases s.blockedOn e with
    | some h => exact follows_next fun hn => drain_rename hf hg hd s.quiet h hp hn
    | none => exact runEvent_rename hf hg hd (s.take rest) hp e

end Step

end Renaming

/-- Settles O45: `step` is the run of `execAt` at its own types, and every part of a run follows a renaming. -/
theorem argumentsOnlyCopied : Obligations.ArgumentsOnlyCopied := by
  refine ⟨fun s => by rw [step, exec_eq_execAt], ?_⟩
  intro H H' O O' _ _ _ _ _ _ p2 p2' f g s hf hg hd hp
  exact runStep_rename hf hg hd s hp

end Sys2Proof.Machine
end
